-- ==== Sys2Proof/Word.lean ====
section
/-! DEFINITION. The word types of the engine (00_scope.md R5(f), R10 to R12; 40_primitives.md R200): bytes, 32- and
64-bit words, the widths of the registers of 10_state.md, and the two byte orders. Every value is unsigned. -/

namespace Sys2Proof

/-- A byte is an 8-bit unsigned value (R12). -/
abbrev Byte := BitVec 8

/-- A word of the 32-bit algorithms (R200). -/
abbrev Word32 := BitVec 32

/-- A word of the 64-bit algorithms, a command word (R120) and the contents of a host register (R44). -/
abbrev Word64 := BitVec 64

/-- `E` of R8: the byte order of the block parse, the length field and the digest. -/
inductive Endian where
  | little
  | big
deriving DecidableEq, Repr

end Sys2Proof
end

