-- ==== Sys2Proof/Machine/Primitives.lean ====
section
/-! DEFINITION. The primitives of 40_primitives.md: rotation and shift (R201 to R203), the word serializers (R206 to
R211), the block parse (R212) and the shared Boolean functions (R213 to R215). Addition, AND, OR, XOR and NOT on W-bit
words (R204, R205) are BitVec's own. -/

namespace Sys2Proof.Machine

/-- `rotl_W(x, n)`, for `n < W` (R201). -/
def rotl {w : Nat} (x : BitVec w) (n : Nat) : BitVec w := (x <<< n) ||| (x >>> (w - n))

/-- `rotr_W(x, n) = rotl_W(x, (W - n) mod W)`, for `n < W` (R202). -/
def rotr {w : Nat} (x : BitVec w) (n : Nat) : BitVec w := rotl x ((w - n) % w)

/-- `shr_W(x, n)`, the logical right shift (R203). -/
def shr {w : Nat} (x : BitVec w) (n : Nat) : BitVec w := x >>> n

/-- The number whose base-256 digits are the bytes, least significant first: the sum of `s[j] * 2^(8j)` (R207). -/
def leValue : List Byte → Nat
  | [] => 0
  | b :: s => b.toNat + 256 * leValue s

/-- `LoadLE_M(s)` (R207). -/
def loadLE (m : Nat) (s : List Byte) : BitVec m := BitVec.ofNat m (leValue s)

/-- `LoadBE_M(s)` (R208): the same with the bytes in the other order. -/
def loadBE (m : Nat) (s : List Byte) : BitVec m := loadLE m s.reverse

/-- `StoreLE_M(x)` (R209): the bytes `x[7:0], x[15:8], ..., x[M-1:M-8]`. -/
def storeLE {m : Nat} (x : BitVec m) : List Byte :=
  (List.range (m / 8)).map fun j => x.extractLsb' (8 * j) 8

/-- `StoreBE_M(x)` (R210). -/
def storeBE {m : Nat} (x : BitVec m) : List Byte := (storeLE x).reverse

/-- `bswap_M(x)` (R206): the bytes of `x` in the other order. -/
def bswap {m : Nat} (x : BitVec m) : BitVec m := loadBE m (storeLE x)

/-- `Load_E_M` (R211). -/
def load (e : Endian) (m : Nat) (s : List Byte) : BitVec m :=
  match e with
  | .little => loadLE m s
  | .big => loadBE m s

/-- `Store_E_M` (R211). -/
def store (e : Endian) {m : Nat} (x : BitVec m) : List Byte :=
  match e with
  | .little => storeLE x
  | .big => storeBE x

/-- `s[i..i+k)` (R12). -/
def byteSlice (s : List Byte) (i k : Nat) : List Byte := (s.drop i).take k

/-- `Parse_ALG(blk)` (R212) at width `w`: sixteen words, each from `w/8` consecutive bytes of the block. -/
def parseBlock (e : Endian) (w : Nat) (blk : List Byte) : Vector (BitVec w) 16 :=
  Vector.ofFn fun i => load e w (byteSlice blk (i.val * (w / 8)) (w / 8))

/-- `Ch(x, y, z)` (R213). -/
def ch {w : Nat} (x y z : BitVec w) : BitVec w := (x &&& y) ^^^ (~~~x &&& z)

/-- `Maj(x, y, z)` (R214). -/
def maj {w : Nat} (x y z : BitVec w) : BitVec w := (x &&& y) ^^^ (x &&& z) ^^^ (y &&& z)

/-- `Parity(x, y, z)` (R215). -/
def parity {w : Nat} (x y z : BitVec w) : BitVec w := x ^^^ y ^^^ z

/-- Four 32-bit working registers: MD5 and one line of RIPEMD-128/256 (R41). -/
structure Regs4 where
  a : Word32
  b : Word32
  c : Word32
  d : Word32
deriving DecidableEq, Repr

/-- Five 32-bit working registers: SHA-1 and one line of RIPEMD-160/320 (R41). -/
structure Regs5 where
  a : Word32
  b : Word32
  c : Word32
  d : Word32
  e : Word32
deriving DecidableEq, Repr

/-- Eight working registers of width `w`: SHA-2 (R41). -/
structure Regs8 (w : Nat) where
  a : BitVec w
  b : BitVec w
  c : BitVec w
  d : BitVec w
  e : BitVec w
  f : BitVec w
  g : BitVec w
  h : BitVec w
deriving DecidableEq, Repr

/-- The word-wise feed-forward of four words, modulo 2^32 (R345). -/
def Regs4.add (x y : Regs4) : Regs4 := ⟨x.a + y.a, x.b + y.b, x.c + y.c, x.d + y.d⟩

/-- The word-wise feed-forward of five words, modulo 2^32 (R378). -/
def Regs5.add (x y : Regs5) : Regs5 := ⟨x.a + y.a, x.b + y.b, x.c + y.c, x.d + y.d, x.e + y.e⟩

/-- The word-wise feed-forward of eight words, modulo 2^W (R409, R418). -/
def Regs8.add {w : Nat} (x y : Regs8 w) : Regs8 w :=
  ⟨x.a + y.a, x.b + y.b, x.c + y.c, x.d + y.d, x.e + y.e, x.f + y.f, x.g + y.g, x.h + y.h⟩

end Sys2Proof.Machine
end

