-- ==== Sys2Proof/Machine/Md5.lean ====
section
/-! DEFINITION. MD5 compression (43_md5.md R331 to R334 and R345). -/

namespace Sys2Proof.Machine

/-- The name of an MD5 Boolean function (R333). -/
inductive Md5Fn where
  | f | g | h | i
deriving DecidableEq, Repr

/-- One row of the step table of R331: the function, the message word `g(t)`, the rotation `s(t)` and `T[t]`. -/
structure Md5Row where
  fn : Md5Fn
  word : Fin 16
  rot : Nat
  const : Word32
deriving DecidableEq, Repr

/-- Round 1 of the step table of R331: steps 0 to 15. -/
def md5Round1 : List Md5Row :=
  [⟨.f, 0, 7, 0xD76AA478⟩, ⟨.f, 1, 12, 0xE8C7B756⟩, ⟨.f, 2, 17, 0x242070DB⟩, ⟨.f, 3, 22, 0xC1BDCEEE⟩,
   ⟨.f, 4, 7, 0xF57C0FAF⟩, ⟨.f, 5, 12, 0x4787C62A⟩, ⟨.f, 6, 17, 0xA8304613⟩, ⟨.f, 7, 22, 0xFD469501⟩,
   ⟨.f, 8, 7, 0x698098D8⟩, ⟨.f, 9, 12, 0x8B44F7AF⟩, ⟨.f, 10, 17, 0xFFFF5BB1⟩, ⟨.f, 11, 22, 0x895CD7BE⟩,
   ⟨.f, 12, 7, 0x6B901122⟩, ⟨.f, 13, 12, 0xFD987193⟩, ⟨.f, 14, 17, 0xA679438E⟩, ⟨.f, 15, 22, 0x49B40821⟩]

/-- Round 2 of the step table of R331: steps 16 to 31. -/
def md5Round2 : List Md5Row :=
  [⟨.g, 1, 5, 0xF61E2562⟩, ⟨.g, 6, 9, 0xC040B340⟩, ⟨.g, 11, 14, 0x265E5A51⟩, ⟨.g, 0, 20, 0xE9B6C7AA⟩,
   ⟨.g, 5, 5, 0xD62F105D⟩, ⟨.g, 10, 9, 0x02441453⟩, ⟨.g, 15, 14, 0xD8A1E681⟩, ⟨.g, 4, 20, 0xE7D3FBC8⟩,
   ⟨.g, 9, 5, 0x21E1CDE6⟩, ⟨.g, 14, 9, 0xC33707D6⟩, ⟨.g, 3, 14, 0xF4D50D87⟩, ⟨.g, 8, 20, 0x455A14ED⟩,
   ⟨.g, 13, 5, 0xA9E3E905⟩, ⟨.g, 2, 9, 0xFCEFA3F8⟩, ⟨.g, 7, 14, 0x676F02D9⟩, ⟨.g, 12, 20, 0x8D2A4C8A⟩]

/-- Round 3 of the step table of R331: steps 32 to 47. -/
def md5Round3 : List Md5Row :=
  [⟨.h, 5, 4, 0xFFFA3942⟩, ⟨.h, 8, 11, 0x8771F681⟩, ⟨.h, 11, 16, 0x6D9D6122⟩, ⟨.h, 14, 23, 0xFDE5380C⟩,
   ⟨.h, 1, 4, 0xA4BEEA44⟩, ⟨.h, 4, 11, 0x4BDECFA9⟩, ⟨.h, 7, 16, 0xF6BB4B60⟩, ⟨.h, 10, 23, 0xBEBFBC70⟩,
   ⟨.h, 13, 4, 0x289B7EC6⟩, ⟨.h, 0, 11, 0xEAA127FA⟩, ⟨.h, 3, 16, 0xD4EF3085⟩, ⟨.h, 6, 23, 0x04881D05⟩,
   ⟨.h, 9, 4, 0xD9D4D039⟩, ⟨.h, 12, 11, 0xE6DB99E5⟩, ⟨.h, 15, 16, 0x1FA27CF8⟩, ⟨.h, 2, 23, 0xC4AC5665⟩]

/-- Round 4 of the step table of R331: steps 48 to 63. -/
def md5Round4 : List Md5Row :=
  [⟨.i, 0, 6, 0xF4292244⟩, ⟨.i, 7, 10, 0x432AFF97⟩, ⟨.i, 14, 15, 0xAB9423A7⟩, ⟨.i, 5, 21, 0xFC93A039⟩,
   ⟨.i, 12, 6, 0x655B59C3⟩, ⟨.i, 3, 10, 0x8F0CCC92⟩, ⟨.i, 10, 15, 0xFFEFF47D⟩, ⟨.i, 1, 21, 0x85845DD1⟩,
   ⟨.i, 8, 6, 0x6FA87E4F⟩, ⟨.i, 15, 10, 0xFE2CE6E0⟩, ⟨.i, 6, 15, 0xA3014314⟩, ⟨.i, 13, 21, 0x4E0811A1⟩,
   ⟨.i, 4, 6, 0xF7537E82⟩, ⟨.i, 11, 10, 0xBD3AF235⟩, ⟨.i, 2, 15, 0x2AD7D2BB⟩, ⟨.i, 9, 21, 0xEB86D391⟩]

/-- The step table of R331, one row for each step `t` in 0..63. -/
def md5Table : List Md5Row := md5Round1 ++ md5Round2 ++ md5Round3 ++ md5Round4

/-- The four Boolean functions of R333. -/
def md5Fn (k : Md5Fn) (x y z : Word32) : Word32 :=
  match k with
  | .f => (x &&& y) ||| (~~~x &&& z)
  | .g => (x &&& z) ||| (y &&& ~~~z)
  | .h => parity x y z
  | .i => y ^^^ (x ||| ~~~z)

/-- `Step_MD5` (R334) with the row of step `t`. -/
def md5Step (x : Vector Word32 16) (r : Regs4) (row : Md5Row) : Regs4 :=
  ⟨r.d, r.b + rotl (r.a + md5Fn row.fn r.b r.c r.d + x[row.word] + row.const) row.rot, r.b, r.c⟩

/-- `Compress_MD5` (R345). -/
def compressMd5 (hin : Regs4) (x : Vector Word32 16) : Regs4 :=
  hin.add (md5Table.foldl (md5Step x) hin)

end Sys2Proof.Machine
end

