-- ==== Sys2Proof/Config.lean ====
section
/-! DEFINITION. What a platform fixes about one engine instance (00_scope.md R3 and R6). A model takes the OPEN
parameters of R6 as arguments: they stand in one plain record that State carries and no step ever writes, so a
statement about every state is a statement about every choice of them. The engine has no value that the spec
leaves undefined and a program goes on with, so there is no opaque constant here. -/

namespace Sys2Proof

/-- The name of the interface a model implements (R3). -/
def interfaceName : String := "quasis/crypto CORE command interface, revision 1"

/-- The OPEN parameters of R6 for one instance. `NUM_INSTANCES` is the length of the list of engines of a platform
(Machine/Platform.lean). -/
structure Params where
  /-- `IWIN_SIZE`: the size in bytes of the input window (20_memory.md R81). -/
  iwinSize : Nat
  /-- `REG_BASE`: the host address of the register block (10_state.md R44). -/
  regBase : Nat
  /-- `IWIN_BASE`: the host address of the input window (20_memory.md R81). -/
  iwinBase : Nat
deriving DecidableEq, Repr

/-- The size in bytes of the register block (10_state.md R44). -/
def regBlockBytes : Nat := 256

/-- DESIGN CHOICE (log entry 1): the parameters of the instance that `State.reset` stands for. The window size is the
one the programs of 95_test_vectors.md section 3 use; the bases are any two that R6 and R89 allow. -/
def Params.default : Params := ⟨4096, 0x1000, 0x2000⟩

end Sys2Proof
end

