-- ==== Sys2Proof/Syntax.lean ====
section
/-! DEFINITION. The commands (30_encoding.md R123 to R125, one constructor per row of spec/opcode_table.json), the
algorithms INIT selects (00_scope.md R8), the error codes (60_exceptions.md R600), what the host can do to an
instance (10_state.md section 5, 20_memory.md), and the assembler's source terms (30_encoding.md R130, R131). -/

namespace Sys2Proof

/-- The twelve algorithms of R8. -/
inductive Alg where
  | md5 | sha1 | sha224 | sha256 | sha384 | sha512 | sha512_224 | sha512_256 | rmd128 | rmd160 | rmd256 | rmd320
deriving DecidableEq, Repr

/-- A command whose fields have passed the decode checks of R126. The operands are bit vectors of the widths of R120,
so an instruction that does not fit its encoding cannot be written down. -/
inductive Instr where
  | initMd5
  | initSha1
  | initSha224
  | initSha256
  | initSha384
  | initSha512
  | initSha512_224
  | initSha512_256
  | initRmd128
  | initRmd160
  | initRmd256
  | initRmd320
  /-- `UPDR byte, count` (R260). -/
  | updr (byte : Byte) (count : BitVec 48)
  /-- `SETSRC offset` (R262). -/
  | setsrc (offset : BitVec 48)
  /-- `UPDS length` (R264). -/
  | upds (length : BitVec 48)
  /-- `UPDZ` (R266). -/
  | updz
  /-- `DIGEST` (R290). -/
  | digest
deriving DecidableEq, Repr

/-- INIT of an algorithm: the twelve INIT rows are one command with an operand (R250). -/
def Instr.init : Alg → Instr
  | .md5 => .initMd5
  | .sha1 => .initSha1
  | .sha224 => .initSha224
  | .sha256 => .initSha256
  | .sha384 => .initSha384
  | .sha512 => .initSha512
  | .sha512_224 => .initSha512_224
  | .sha512_256 => .initSha512_256
  | .rmd128 => .initRmd128
  | .rmd160 => .initRmd160
  | .rmd256 => .initRmd256
  | .rmd320 => .initRmd320

/-- The algorithm an INIT selects; `none` for the other five commands. -/
def Instr.initAlg : Instr → Option Alg
  | .initMd5 => some .md5
  | .initSha1 => some .sha1
  | .initSha224 => some .sha224
  | .initSha256 => some .sha256
  | .initSha384 => some .sha384
  | .initSha512 => some .sha512
  | .initSha512_224 => some .sha512_224
  | .initSha512_256 => some .sha512_256
  | .initRmd128 => some .rmd128
  | .initRmd160 => some .rmd160
  | .initRmd256 => some .rmd256
  | .initRmd320 => some .rmd320
  | .updr _ _ => none
  | .setsrc _ => none
  | .upds _ => none
  | .updz => none
  | .digest => none

/-- The contents of `ECODE` (R600). Codes 7 to 15 are never written, so they are no values of the type. -/
inductive ECode where
  | none
  | illegalOp
  | reservedNonzero
  | illegalAlg
  | notInit
  | srcRange
  | countOverflow
deriving DecidableEq, Repr

/-- A window byte that a second host agent writes while a command is executing (R97). Each byte the command reads is
the value before or after that write, and the two flags say which it is for each of the command's two kinds of read. -/
structure RaceWrite where
  /-- The window offset written. -/
  offset : Nat
  /-- The value written. -/
  value : Byte
  /-- Whether UPDZ's search for the terminator sees the new value. -/
  seenByScan : Bool
  /-- Whether the command's absorption of the byte sees the new value. -/
  seenByAbsorb : Bool
deriving DecidableEq, Repr

/-- What the outside of an instance does to it. Addresses are host addresses and widths are in bytes. -/
inductive HostEvent where
  /-- A host store; a store to CMD issues a command (R52). -/
  | write (addr width : Nat) (value : Word64)
  /-- A host load of a register or of window bytes. -/
  | read (addr width : Nat)
  /-- A second agent's window write begins and overlaps the next command (R97). -/
  | overlap (w : RaceWrite)
  /-- Reset between commands (R700, R701). -/
  | reset
  /-- Reset asserted while the command `cmd` is executing: its CMD write completes with no effect (R701). -/
  | resetDuring (cmd : Word64)
  /-- Power-on, which is a reset after which the window's content is unspecified (R82, R634, R700). -/
  | powerOn
deriving DecidableEq, Repr

/-- A line of assembler source (R130, R131). Operands are the numbers written in the source, of any size. -/
inductive Source where
  | init (alg : Nat)
  | updr (byte count : Nat)
  | setsrc (offset : Nat)
  | upds (length : Nat)
  | updz
  | digest
  /-- `UPDB byte` (R131). -/
  | updb (byte : Nat)
  /-- `UPDRL byte, count` (R131). -/
  | updrl (byte count : Nat)
  /-- `HASHS alg, offset, length` (R131). -/
  | hashs (alg offset length : Nat)
  /-- `HASHZ alg, offset` (R131). -/
  | hashz (alg offset : Nat)
  /-- The directive `.iwin offset: bytes` (R130). -/
  | iwin (offset : Nat) (bytes : List Nat)
deriving DecidableEq, Repr

end Sys2Proof
end

