-- ==== Sys2Proof/WellFormed.lean ====
section
/-! DEFINITION. The checks on terms that a type does not make: the platform's parameters (00_scope.md R6,
20_memory.md R89) and the operand ranges of an assembler source line (30_encoding.md R130, R131). An `Instr` needs
none: its operands have the widths of R120 by their types. -/

namespace Sys2Proof

/-- The register block and the window of one instance do not overlap (R89). -/
abbrev Params.Disjoint (p : Params) : Prop :=
  p.regBase + regBlockBytes ≤ p.iwinBase ∨ p.iwinBase + p.iwinSize ≤ p.regBase

/-- The parameters an instance may have (R6, R89). -/
abbrev Params.WellFormed (p : Params) : Prop :=
  1 ≤ p.iwinSize ∧ p.iwinSize ≤ 2 ^ 48 ∧ p.regBase % 256 = 0 ∧ p.Disjoint

/-- An `<alg>` operand written as a number is 0x1 to 0xC (R130). -/
abbrev algOperandOk (alg : Nat) : Prop := 1 ≤ alg ∧ alg ≤ 12

/-- A `<byte>` operand is at most 255 (R130). -/
abbrev byteOperandOk (byte : Nat) : Prop := byte < 256

/-- A `<count>`, `<offset>` or `<length>` operand is below 2^48 (R130). -/
abbrev nOperandOk (n : Nat) : Prop := n < 2 ^ 48

/-- An operand outside its field's range is an assembly error and is never truncated (R130, R131). -/
def Source.WellFormed : Source → Bool
  | .init alg => decide (algOperandOk alg)
  | .updr byte count => decide (byteOperandOk byte ∧ nOperandOk count)
  | .setsrc offset => decide (nOperandOk offset)
  | .upds length => decide (nOperandOk length)
  | .updz => true
  | .digest => true
  | .updb byte => decide (byteOperandOk byte)
  | .updrl byte count => decide (byteOperandOk byte ∧ count < 2 ^ 128)
  | .hashs alg offset length => decide (algOperandOk alg ∧ nOperandOk offset ∧ nOperandOk length)
  | .hashz alg offset => decide (algOperandOk alg ∧ nOperandOk offset)
  | .iwin offset bytes => decide (nOperandOk offset) && bytes.all fun b => decide (byteOperandOk b)

end Sys2Proof
end

