-- ==== Sys2Proof/Decode.lean ====
section
/-! DEFINITION. The decoder of 30_encoding.md R120 to R127, total on every 64-bit word and rejecting by the error code
of R600, and the encoder after it, written from the same tables (R123 to R125). -/

namespace Sys2Proof

/-- `OP = cmd[63:60]` (R120, R122). -/
def cmdOp (w : Word64) : BitVec 4 := w.extractLsb' 60 4

/-- `ALG = cmd[59:56]` (R120, R122). -/
def cmdAlg (w : Word64) : BitVec 4 := w.extractLsb' 56 4

/-- `BYTE = cmd[55:48]` (R120, R122). -/
def cmdByte (w : Word64) : Byte := w.extractLsb' 48 8

/-- `N = cmd[47:0]` (R120, R122). -/
def cmdN (w : Word64) : BitVec 48 := w.extractLsb' 0 48

/-- The algorithm code of R124, which is also the content of the register `ALG` (R31). -/
def Alg.code : Alg → BitVec 4
  | .md5 => 0x1
  | .sha1 => 0x2
  | .sha224 => 0x3
  | .sha256 => 0x4
  | .sha384 => 0x5
  | .sha512 => 0x6
  | .sha512_224 => 0x7
  | .sha512_256 => 0x8
  | .rmd128 => 0x9
  | .rmd160 => 0xA
  | .rmd256 => 0xB
  | .rmd320 => 0xC

/-- The algorithm a code stands for: `LegalAlg` of R126, and `none` for the reserved codes 0x0 and 0xD to 0xF. -/
def Alg.ofCode (c : BitVec 4) : Option Alg :=
  match c.toNat with
  | 1 => some .md5
  | 2 => some .sha1
  | 3 => some .sha224
  | 4 => some .sha256
  | 5 => some .sha384
  | 6 => some .sha512
  | 7 => some .sha512_224
  | 8 => some .sha512_256
  | 9 => some .rmd128
  | 10 => some .rmd160
  | 11 => some .rmd256
  | 12 => some .rmd320
  | _ => none

/-- The decode checks of R126 on one word, in the order of R605: ILLEGAL_OP, RESERVED_NONZERO, ILLEGAL_ALG. Which
fields an opcode does not use, and which must therefore be zero, is R125. -/
def decode (w : Word64) : Except ECode Instr :=
  match (cmdOp w).toNat with
  | 1 =>
    if cmdByte w = 0 ∧ cmdN w = 0 then
      match Alg.ofCode (cmdAlg w) with
      | some a => .ok (Instr.init a)
      | none => .error .illegalAlg
    else .error .reservedNonzero
  | 2 => if cmdAlg w = 0 then .ok (.updr (cmdByte w) (cmdN w)) else .error .reservedNonzero
  | 3 => if cmdAlg w = 0 ∧ cmdByte w = 0 then .ok (.setsrc (cmdN w)) else .error .reservedNonzero
  | 4 => if cmdAlg w = 0 ∧ cmdByte w = 0 then .ok (.upds (cmdN w)) else .error .reservedNonzero
  | 5 => if cmdAlg w = 0 ∧ cmdByte w = 0 ∧ cmdN w = 0 then .ok .updz else .error .reservedNonzero
  | 6 => if cmdAlg w = 0 ∧ cmdByte w = 0 ∧ cmdN w = 0 then .ok .digest else .error .reservedNonzero
  | _ => .error .illegalOp

/-- A valid INIT: `OP = 0x1`, a legal algorithm code, and `BYTE = N = 0` (R604(a)). -/
def validInit (w : Word64) : Bool :=
  (cmdOp w).toNat == 1 && (Alg.ofCode (cmdAlg w)).isSome && cmdByte w == 0 && cmdN w == 0

/-- The four fields of R120 laid side by side, bit 63 first. -/
def packCmd (op alg : BitVec 4) (byte : Byte) (n : BitVec 48) : Word64 := op ++ alg ++ byte ++ n

/-- The command word of an instruction (R123 to R125). -/
def encode : Instr → Word64
  | .initMd5 => packCmd 0x1 0x1 0 0
  | .initSha1 => packCmd 0x1 0x2 0 0
  | .initSha224 => packCmd 0x1 0x3 0 0
  | .initSha256 => packCmd 0x1 0x4 0 0
  | .initSha384 => packCmd 0x1 0x5 0 0
  | .initSha512 => packCmd 0x1 0x6 0 0
  | .initSha512_224 => packCmd 0x1 0x7 0 0
  | .initSha512_256 => packCmd 0x1 0x8 0 0
  | .initRmd128 => packCmd 0x1 0x9 0 0
  | .initRmd160 => packCmd 0x1 0xA 0 0
  | .initRmd256 => packCmd 0x1 0xB 0 0
  | .initRmd320 => packCmd 0x1 0xC 0 0
  | .updr byte count => packCmd 0x2 0 byte count
  | .setsrc offset => packCmd 0x3 0 0 offset
  | .upds length => packCmd 0x4 0 0 length
  | .updz => packCmd 0x5 0 0 0
  | .digest => packCmd 0x6 0 0 0

/-- One row of spec/opcode_table.json: the bits a word of the row has, and the bits of it that are fixed (R125). -/
structure OpcodeRow where
  bits : Word64
  mask : Word64
deriving DecidableEq, Repr

/-- The row of an instruction (R125). -/
def tableRow : Instr → OpcodeRow
  | .initMd5 => ⟨0x1100000000000000, 0xFFFFFFFFFFFFFFFF⟩
  | .initSha1 => ⟨0x1200000000000000, 0xFFFFFFFFFFFFFFFF⟩
  | .initSha224 => ⟨0x1300000000000000, 0xFFFFFFFFFFFFFFFF⟩
  | .initSha256 => ⟨0x1400000000000000, 0xFFFFFFFFFFFFFFFF⟩
  | .initSha384 => ⟨0x1500000000000000, 0xFFFFFFFFFFFFFFFF⟩
  | .initSha512 => ⟨0x1600000000000000, 0xFFFFFFFFFFFFFFFF⟩
  | .initSha512_224 => ⟨0x1700000000000000, 0xFFFFFFFFFFFFFFFF⟩
  | .initSha512_256 => ⟨0x1800000000000000, 0xFFFFFFFFFFFFFFFF⟩
  | .initRmd128 => ⟨0x1900000000000000, 0xFFFFFFFFFFFFFFFF⟩
  | .initRmd160 => ⟨0x1A00000000000000, 0xFFFFFFFFFFFFFFFF⟩
  | .initRmd256 => ⟨0x1B00000000000000, 0xFFFFFFFFFFFFFFFF⟩
  | .initRmd320 => ⟨0x1C00000000000000, 0xFFFFFFFFFFFFFFFF⟩
  | .updr _ _ => ⟨0x2000000000000000, 0xFF00000000000000⟩
  | .setsrc _ => ⟨0x3000000000000000, 0xFFFF000000000000⟩
  | .upds _ => ⟨0x4000000000000000, 0xFFFF000000000000⟩
  | .updz => ⟨0x5000000000000000, 0xFFFFFFFFFFFFFFFF⟩
  | .digest => ⟨0x6000000000000000, 0xFFFFFFFFFFFFFFFF⟩

/-- The seventeen rows of the table. -/
def opcodeRows : List OpcodeRow :=
  ([.initMd5, .initSha1, .initSha224, .initSha256, .initSha384, .initSha512,
    .initSha512_224, .initSha512_256, .initRmd128, .initRmd160, .initRmd256, .initRmd320,
    .updr 0 0, .setsrc 0, .upds 0, .updz, .digest] : List Instr).map tableRow

/-- A word matches a row when its fixed bits are the row's (R125). -/
def OpcodeRow.matches (r : OpcodeRow) (w : Word64) : Bool := w &&& r.mask == r.bits

/-- The command word whose low `nbits` bits are those of `w` and whose other bits are 0. Every command is one 64-bit
word (R121), numbered from its least significant bit (R10, R120). -/
def tableWord (nbits w : Nat) : Word64 := BitVec.ofNat 64 (w % 2 ^ nbits)

/-- What the decoder reads from the word that spec/opcode_table.json numbers as `w`. -/
def decodeTableWord (nbits w : Nat) : Option Instr :=
  match decode (tableWord nbits w) with
  | .ok i => some i
  | .error _ => none

end Sys2Proof
end

