-- ==== Sys2Proof/Machine/Parameters.lean ====
section
/-! DEFINITION. The per-algorithm parameters: the table of 00_scope.md R8 column by column, and the byte-count limit of
R9. -/

namespace Sys2Proof

/-- `W`: the word width in bits. -/
def Alg.wordBits : Alg → Nat
  | .sha384 | .sha512 | .sha512_224 | .sha512_256 => 64
  | .md5 | .sha1 | .sha224 | .sha256 | .rmd128 | .rmd160 | .rmd256 | .rmd320 => 32

/-- `B`: the block size in bytes. -/
def Alg.blockBytes : Alg → Nat
  | .sha384 | .sha512 | .sha512_224 | .sha512_256 => 128
  | .md5 | .sha1 | .sha224 | .sha256 | .rmd128 | .rmd160 | .rmd256 | .rmd320 => 64

/-- `N`: the number of state words. -/
def Alg.stateWords : Alg → Nat
  | .md5 | .rmd128 => 4
  | .sha1 | .rmd160 => 5
  | .sha224 | .sha256 | .sha384 | .sha512 | .sha512_224 | .sha512_256 | .rmd256 => 8
  | .rmd320 => 10

/-- `L`: the length of the length field in bytes. -/
def Alg.lengthBytes : Alg → Nat
  | .sha384 | .sha512 | .sha512_224 | .sha512_256 => 16
  | .md5 | .sha1 | .sha224 | .sha256 | .rmd128 | .rmd160 | .rmd256 | .rmd320 => 8

/-- `E`: the byte order of the block parse, the length field and the digest. -/
def Alg.order : Alg → Endian
  | .md5 | .rmd128 | .rmd160 | .rmd256 | .rmd320 => .little
  | .sha1 | .sha224 | .sha256 | .sha384 | .sha512 | .sha512_224 | .sha512_256 => .big

/-- `DLEN`: the digest length in bytes. -/
def Alg.digestBytes : Alg → Nat
  | .md5 => 16
  | .sha1 => 20
  | .sha224 => 28
  | .sha256 => 32
  | .sha384 => 48
  | .sha512 => 64
  | .sha512_224 => 28
  | .sha512_256 => 32
  | .rmd128 => 16
  | .rmd160 => 20
  | .rmd256 => 32
  | .rmd320 => 40

/-- `STEPS`: the number of compression steps per line (also 70_reset_and_hazards.md R721). -/
def Alg.steps : Alg → Nat
  | .md5 | .sha224 | .sha256 | .rmd128 | .rmd256 => 64
  | .sha1 | .sha384 | .sha512 | .sha512_224 | .sha512_256 | .rmd160 | .rmd320 => 80

/-- `LINES`: the number of parallel lines. -/
def Alg.lines : Alg → Nat
  | .rmd128 | .rmd160 | .rmd256 | .rmd320 => 2
  | .md5 | .sha1 | .sha224 | .sha256 | .sha384 | .sha512 | .sha512_224 | .sha512_256 => 1

/-- `LIMIT(ALG) = 2^(8*L - 3) - 1` (R9): the largest byte count whose bit length fits in the length field. -/
def Alg.limit (a : Alg) : Nat := 2 ^ (8 * a.lengthBytes - 3) - 1

/-- A block is never empty. -/
theorem Alg.blockBytes_pos (a : Alg) : 0 < a.blockBytes := by cases a <;> decide

/-- A block fits the buffer (R6, `BUF_BYTES`). -/
theorem Alg.blockBytes_le (a : Alg) : a.blockBytes ≤ 128 := by cases a <;> decide

/-- The cursor `COUNT mod B` is a place in the buffer. -/
theorem Alg.cursor_lt (a : Alg) (c : Nat) : c % a.blockBytes < 128 :=
  Nat.lt_of_lt_of_le (Nat.mod_lt _ a.blockBytes_pos) a.blockBytes_le

end Sys2Proof
end

