-- ==== Sys2Proof/Machine/Ripemd.lean ====
section
/-! DEFINITION. The compressions of RIPEMD-128, -160, -256 and -320 (46_ripemd.md R460 to R468, R470, R472, R474,
R476). -/

namespace Sys2Proof.Machine

/-- The name of a RIPEMD Boolean function (R463). -/
inductive RmdFn where
  | f1 | f2 | f3 | f4 | f5
deriving DecidableEq, Repr

/-- One row of the tables of R460: `r(j)`, `r'(j)`, `s(j)`, `s'(j)`. -/
structure RmdRow where
  wordLeft : Fin 16
  wordRight : Fin 16
  rotLeft : Nat
  rotRight : Nat
deriving DecidableEq, Repr

/-- One round of a compression: its sixteen rows, and the function and constant of each line (R461, R462). -/
structure RmdRound where
  rows : List RmdRow
  fnLeft : RmdFn
  constLeft : Word32
  fnRight : RmdFn
  constRight : Word32
deriving DecidableEq, Repr

/-- A working register of a line, named as in R464 and R465. -/
inductive RmdReg where
  | a | b | c | d | e
deriving DecidableEq, Repr

/-- Round 1 of the tables of R460: steps 0 to 15. -/
def rmdRows1 : List RmdRow :=
  [⟨0, 5, 11, 8⟩, ⟨1, 14, 14, 9⟩, ⟨2, 7, 15, 9⟩, ⟨3, 0, 12, 11⟩, ⟨4, 9, 5, 13⟩, ⟨5, 2, 8, 15⟩, ⟨6, 11, 7, 15⟩, ⟨7, 4, 9, 5⟩,
   ⟨8, 13, 11, 7⟩, ⟨9, 6, 13, 7⟩, ⟨10, 15, 14, 8⟩, ⟨11, 8, 15, 11⟩, ⟨12, 1, 6, 14⟩, ⟨13, 10, 7, 14⟩, ⟨14, 3, 9, 12⟩, ⟨15, 12, 8, 6⟩]

/-- Round 2 of the tables of R460: steps 16 to 31. -/
def rmdRows2 : List RmdRow :=
  [⟨7, 6, 7, 9⟩, ⟨4, 11, 6, 13⟩, ⟨13, 3, 8, 15⟩, ⟨1, 7, 13, 7⟩, ⟨10, 0, 11, 12⟩, ⟨6, 13, 9, 8⟩, ⟨15, 5, 7, 9⟩, ⟨3, 10, 15, 11⟩,
   ⟨12, 14, 7, 7⟩, ⟨0, 15, 12, 7⟩, ⟨9, 8, 15, 12⟩, ⟨5, 12, 9, 7⟩, ⟨2, 4, 11, 6⟩, ⟨14, 9, 7, 15⟩, ⟨11, 1, 13, 13⟩, ⟨8, 2, 12, 11⟩]

/-- Round 3 of the tables of R460: steps 32 to 47. -/
def rmdRows3 : List RmdRow :=
  [⟨3, 15, 11, 9⟩, ⟨10, 5, 13, 7⟩, ⟨14, 1, 6, 15⟩, ⟨4, 3, 7, 11⟩, ⟨9, 7, 14, 8⟩, ⟨15, 14, 9, 6⟩, ⟨8, 6, 13, 6⟩, ⟨1, 9, 15, 14⟩,
   ⟨2, 11, 14, 12⟩, ⟨7, 8, 8, 13⟩, ⟨0, 12, 13, 5⟩, ⟨6, 2, 6, 14⟩, ⟨13, 10, 5, 13⟩, ⟨11, 0, 12, 13⟩, ⟨5, 4, 7, 7⟩, ⟨12, 13, 5, 5⟩]

/-- Round 4 of the tables of R460: steps 48 to 63. -/
def rmdRows4 : List RmdRow :=
  [⟨1, 8, 11, 15⟩, ⟨9, 6, 12, 5⟩, ⟨11, 4, 14, 8⟩, ⟨10, 1, 15, 11⟩, ⟨0, 3, 14, 14⟩, ⟨8, 11, 15, 14⟩, ⟨12, 15, 9, 6⟩, ⟨4, 0, 8, 14⟩,
   ⟨13, 5, 9, 6⟩, ⟨3, 12, 14, 9⟩, ⟨7, 2, 5, 12⟩, ⟨15, 13, 6, 9⟩, ⟨14, 9, 8, 12⟩, ⟨5, 7, 6, 5⟩, ⟨6, 10, 5, 15⟩, ⟨2, 14, 12, 8⟩]

/-- Round 5 of the tables of R460: steps 64 to 79. -/
def rmdRows5 : List RmdRow :=
  [⟨4, 12, 9, 8⟩, ⟨0, 15, 15, 5⟩, ⟨5, 10, 5, 12⟩, ⟨9, 4, 11, 9⟩, ⟨7, 1, 6, 12⟩, ⟨12, 5, 8, 5⟩, ⟨2, 8, 13, 14⟩, ⟨10, 7, 12, 6⟩,
   ⟨14, 6, 5, 8⟩, ⟨1, 2, 12, 13⟩, ⟨3, 13, 13, 6⟩, ⟨8, 14, 14, 5⟩, ⟨11, 0, 11, 15⟩, ⟨6, 3, 8, 13⟩, ⟨15, 9, 5, 11⟩, ⟨13, 11, 6, 11⟩]

/-- The four rounds of RIPEMD-128 and RIPEMD-256 (R461 and R462, columns 128/256). -/
def rmdRounds4 : List RmdRound :=
  [⟨rmdRows1, .f1, 0x00000000, .f4, 0x50A28BE6⟩,
   ⟨rmdRows2, .f2, 0x5A827999, .f3, 0x5C4DD124⟩,
   ⟨rmdRows3, .f3, 0x6ED9EBA1, .f2, 0x6D703EF3⟩,
   ⟨rmdRows4, .f4, 0x8F1BBCDC, .f1, 0x00000000⟩]

/-- The five rounds of RIPEMD-160 and RIPEMD-320 (R461 and R462, columns 160/320). -/
def rmdRounds5 : List RmdRound :=
  [⟨rmdRows1, .f1, 0x00000000, .f5, 0x50A28BE6⟩,
   ⟨rmdRows2, .f2, 0x5A827999, .f4, 0x5C4DD124⟩,
   ⟨rmdRows3, .f3, 0x6ED9EBA1, .f3, 0x6D703EF3⟩,
   ⟨rmdRows4, .f4, 0x8F1BBCDC, .f2, 0x7A6D76E9⟩,
   ⟨rmdRows5, .f5, 0xA953FD4E, .f1, 0x00000000⟩]

/-- The five Boolean functions of R463. -/
def rmdFn (k : RmdFn) (x y z : Word32) : Word32 :=
  match k with
  | .f1 => x ^^^ y ^^^ z
  | .f2 => (x &&& y) ||| (~~~x &&& z)
  | .f3 => (x ||| ~~~y) ^^^ z
  | .f4 => (x &&& z) ||| (y &&& ~~~z)
  | .f5 => x ^^^ (y ||| ~~~z)

/-- `Step4` (R464), with the function, constant, message word and rotation of the step. -/
def rmdStep4 (f : RmdFn) (k : Word32) (word : Word32) (rot : Nat) (r : Regs4) : Regs4 :=
  ⟨r.d, rotl (r.a + rmdFn f r.b r.c r.d + word + k) rot, r.b, r.c⟩

/-- `Step5` (R465), with the function, constant, message word and rotation of the step. -/
def rmdStep5 (f : RmdFn) (k : Word32) (word : Word32) (rot : Nat) (r : Regs5) : Regs5 :=
  ⟨r.e, rotl (r.a + rmdFn f r.b r.c r.d + word + k) rot + r.e, r.b, rotl r.c 10, r.d⟩

/-- The sixteen steps of one round on both 4-word lines, left line first (R464, R466). -/
def rmdRound4 (x : Vector Word32 16) (lr : Regs4 × Regs4) (q : RmdRound) : Regs4 × Regs4 :=
  (q.rows.foldl (fun r row => rmdStep4 q.fnLeft q.constLeft x[row.wordLeft] row.rotLeft r) lr.1,
   q.rows.foldl (fun r row => rmdStep4 q.fnRight q.constRight x[row.wordRight] row.rotRight r) lr.2)

/-- The sixteen steps of one round on both 5-word lines, left line first (R465, R466). -/
def rmdRound5 (x : Vector Word32 16) (lr : Regs5 × Regs5) (q : RmdRound) : Regs5 × Regs5 :=
  (q.rows.foldl (fun r row => rmdStep5 q.fnLeft q.constLeft x[row.wordLeft] row.rotLeft r) lr.1,
   q.rows.foldl (fun r row => rmdStep5 q.fnRight q.constRight x[row.wordRight] row.rotRight r) lr.2)

/-- The exchange of one register between two 4-word lines (R468). A 4-word line has no register `E`. -/
def rmdSwap4 (k : RmdReg) (lr : Regs4 × Regs4) : Regs4 × Regs4 :=
  match k with
  | .a => ({ lr.1 with a := lr.2.a }, { lr.2 with a := lr.1.a })
  | .b => ({ lr.1 with b := lr.2.b }, { lr.2 with b := lr.1.b })
  | .c => ({ lr.1 with c := lr.2.c }, { lr.2 with c := lr.1.c })
  | .d => ({ lr.1 with d := lr.2.d }, { lr.2 with d := lr.1.d })
  | .e => lr

/-- The exchange of one register between two 5-word lines (R468). -/
def rmdSwap5 (k : RmdReg) (lr : Regs5 × Regs5) : Regs5 × Regs5 :=
  match k with
  | .a => ({ lr.1 with a := lr.2.a }, { lr.2 with a := lr.1.a })
  | .b => ({ lr.1 with b := lr.2.b }, { lr.2 with b := lr.1.b })
  | .c => ({ lr.1 with c := lr.2.c }, { lr.2 with c := lr.1.c })
  | .d => ({ lr.1 with d := lr.2.d }, { lr.2 with d := lr.1.d })
  | .e => ({ lr.1 with e := lr.2.e }, { lr.2 with e := lr.1.e })

/-- The register RIPEMD-256 exchanges after each of its four rounds (R468). -/
def rmdSwaps256 : List RmdReg := [.a, .b, .c, .d]

/-- The register RIPEMD-320 exchanges after each of its five rounds (R468). -/
def rmdSwaps320 : List RmdReg := [.b, .d, .a, .c, .e]

/-- `Compress_RMD128` (R470), with its cross-wise combination. -/
def compressRmd128 (hin : Regs4) (x : Vector Word32 16) : Regs4 :=
  let lr := rmdRounds4.foldl (rmdRound4 x) (hin, hin)
  ⟨hin.b + lr.1.c + lr.2.d, hin.c + lr.1.d + lr.2.a, hin.d + lr.1.a + lr.2.b, hin.a + lr.1.b + lr.2.c⟩

/-- `Compress_RMD160` (R472), with its cross-wise combination. -/
def compressRmd160 (hin : Regs5) (x : Vector Word32 16) : Regs5 :=
  let lr := rmdRounds5.foldl (rmdRound5 x) (hin, hin)
  ⟨hin.b + lr.1.c + lr.2.d, hin.c + lr.1.d + lr.2.e, hin.d + lr.1.e + lr.2.a, hin.e + lr.1.a + lr.2.b,
   hin.a + lr.1.b + lr.2.c⟩

/-- `Compress_RMD256` (R474): the left line starts from the first half of the chaining value and the right line from
the second (R467), one exchange ends each round, and each line feeds forward into its own half. -/
def compressRmd256 (hin : Regs4 × Regs4) (x : Vector Word32 16) : Regs4 × Regs4 :=
  let lr := (rmdRounds4.zip rmdSwaps256).foldl (fun lr q => rmdSwap4 q.2 (rmdRound4 x lr q.1)) hin
  (hin.1.add lr.1, hin.2.add lr.2)

/-- `Compress_RMD320` (R476): as RIPEMD-256, with five registers and five rounds. -/
def compressRmd320 (hin : Regs5 × Regs5) (x : Vector Word32 16) : Regs5 × Regs5 :=
  let lr := (rmdRounds5.zip rmdSwaps320).foldl (fun lr q => rmdSwap5 q.2 (rmdRound5 x lr q.1)) hin
  (hin.1.add lr.1, hin.2.add lr.2)

end Sys2Proof.Machine
end

