-- ==== Sys2Proof/Machine/Sha1.lean ====
section
/-! DEFINITION. SHA-1 compression (44_sha1.md R371 to R374 and R378). -/

namespace Sys2Proof.Machine

/-- `K(t)` (R371). -/
def sha1K (t : Nat) : Word32 :=
  if t < 20 then 0x5A827999 else if t < 40 then 0x6ED9EBA1 else if t < 60 then 0x8F1BBCDC else 0xCA62C1D6

/-- `f(t, x, y, z)` (R372). -/
def sha1F (t : Nat) (x y z : Word32) : Word32 :=
  if t < 20 then ch x y z else if t < 40 then parity x y z else if t < 60 then maj x y z else parity x y z

/-- The schedule word after those of `ws` (R373): word `t` for `t` the length of `ws`, which is at least 16. -/
def sha1Next (ws : List Word32) : Word32 :=
  let t := ws.length
  rotl (ws.getD (t - 3) 0 ^^^ ws.getD (t - 8) 0 ^^^ ws.getD (t - 14) 0 ^^^ ws.getD (t - 16) 0) 1

/-- `n` more words of the schedule. -/
def sha1Expand : Nat → List Word32 → List Word32
  | 0, ws => ws
  | n + 1, ws => sha1Expand n (ws ++ [sha1Next ws])

/-- The message schedule `W0..W79` (R373). -/
def sha1Schedule (x : Vector Word32 16) : List Word32 := sha1Expand 64 x.toList

/-- `Step_SHA1` (R374) at step `t` with the schedule word `wt`. -/
def sha1Step (r : Regs5) (wt : Word32 × Nat) : Regs5 :=
  ⟨rotl r.a 5 + sha1F wt.2 r.b r.c r.d + r.e + sha1K wt.2 + wt.1, r.a, rotl r.b 30, r.c, r.d⟩

/-- `Compress_SHA1` (R378). -/
def compressSha1 (hin : Regs5) (x : Vector Word32 16) : Regs5 :=
  hin.add ((sha1Schedule x).zipIdx.foldl sha1Step hin)

end Sys2Proof.Machine
end

