-- ==== Sys2Proof/Machine/Sha2.lean ====
section
/-! DEFINITION. SHA-2 compression in its 32-bit shape (45_sha2.md R400 to R403, R409) and its 64-bit shape (R410 to
R413, R418). The two share one schedule and one step, with their functions as arguments. -/

namespace Sys2Proof.Machine

/-- `K256[0..15]` (R400). -/
def k256Part1 : List Word32 :=
  [0x428A2F98, 0x71374491, 0xB5C0FBCF, 0xE9B5DBA5,
   0x3956C25B, 0x59F111F1, 0x923F82A4, 0xAB1C5ED5,
   0xD807AA98, 0x12835B01, 0x243185BE, 0x550C7DC3,
   0x72BE5D74, 0x80DEB1FE, 0x9BDC06A7, 0xC19BF174]

/-- `K256[16..31]` (R400). -/
def k256Part2 : List Word32 :=
  [0xE49B69C1, 0xEFBE4786, 0x0FC19DC6, 0x240CA1CC,
   0x2DE92C6F, 0x4A7484AA, 0x5CB0A9DC, 0x76F988DA,
   0x983E5152, 0xA831C66D, 0xB00327C8, 0xBF597FC7,
   0xC6E00BF3, 0xD5A79147, 0x06CA6351, 0x14292967]

/-- `K256[32..47]` (R400). -/
def k256Part3 : List Word32 :=
  [0x27B70A85, 0x2E1B2138, 0x4D2C6DFC, 0x53380D13,
   0x650A7354, 0x766A0ABB, 0x81C2C92E, 0x92722C85,
   0xA2BFE8A1, 0xA81A664B, 0xC24B8B70, 0xC76C51A3,
   0xD192E819, 0xD6990624, 0xF40E3585, 0x106AA070]

/-- `K256[48..63]` (R400). -/
def k256Part4 : List Word32 :=
  [0x19A4C116, 0x1E376C08, 0x2748774C, 0x34B0BCB5,
   0x391C0CB3, 0x4ED8AA4A, 0x5B9CCA4F, 0x682E6FF3,
   0x748F82EE, 0x78A5636F, 0x84C87814, 0x8CC70208,
   0x90BEFFFA, 0xA4506CEB, 0xBEF9A3F7, 0xC67178F2]

/-- `K256[0..63]` (R400). -/
def k256 : List Word32 := k256Part1 ++ k256Part2 ++ k256Part3 ++ k256Part4

/-- `K512[0..19]` (R410). -/
def k512Part1 : List Word64 :=
  [0x428A2F98D728AE22, 0x7137449123EF65CD, 0xB5C0FBCFEC4D3B2F, 0xE9B5DBA58189DBBC,
   0x3956C25BF348B538, 0x59F111F1B605D019, 0x923F82A4AF194F9B, 0xAB1C5ED5DA6D8118,
   0xD807AA98A3030242, 0x12835B0145706FBE, 0x243185BE4EE4B28C, 0x550C7DC3D5FFB4E2,
   0x72BE5D74F27B896F, 0x80DEB1FE3B1696B1, 0x9BDC06A725C71235, 0xC19BF174CF692694,
   0xE49B69C19EF14AD2, 0xEFBE4786384F25E3, 0x0FC19DC68B8CD5B5, 0x240CA1CC77AC9C65]

/-- `K512[20..39]` (R410). -/
def k512Part2 : List Word64 :=
  [0x2DE92C6F592B0275, 0x4A7484AA6EA6E483, 0x5CB0A9DCBD41FBD4, 0x76F988DA831153B5,
   0x983E5152EE66DFAB, 0xA831C66D2DB43210, 0xB00327C898FB213F, 0xBF597FC7BEEF0EE4,
   0xC6E00BF33DA88FC2, 0xD5A79147930AA725, 0x06CA6351E003826F, 0x142929670A0E6E70,
   0x27B70A8546D22FFC, 0x2E1B21385C26C926, 0x4D2C6DFC5AC42AED, 0x53380D139D95B3DF,
   0x650A73548BAF63DE, 0x766A0ABB3C77B2A8, 0x81C2C92E47EDAEE6, 0x92722C851482353B]

/-- `K512[40..59]` (R410). -/
def k512Part3 : List Word64 :=
  [0xA2BFE8A14CF10364, 0xA81A664BBC423001, 0xC24B8B70D0F89791, 0xC76C51A30654BE30,
   0xD192E819D6EF5218, 0xD69906245565A910, 0xF40E35855771202A, 0x106AA07032BBD1B8,
   0x19A4C116B8D2D0C8, 0x1E376C085141AB53, 0x2748774CDF8EEB99, 0x34B0BCB5E19B48A8,
   0x391C0CB3C5C95A63, 0x4ED8AA4AE3418ACB, 0x5B9CCA4F7763E373, 0x682E6FF3D6B2B8A3,
   0x748F82EE5DEFB2FC, 0x78A5636F43172F60, 0x84C87814A1F0AB72, 0x8CC702081A6439EC]

/-- `K512[60..79]` (R410). -/
def k512Part4 : List Word64 :=
  [0x90BEFFFA23631E28, 0xA4506CEBDE82BDE9, 0xBEF9A3F7B2C67915, 0xC67178F2E372532B,
   0xCA273ECEEA26619C, 0xD186B8C721C0C207, 0xEADA7DD6CDE0EB1E, 0xF57D4F7FEE6ED178,
   0x06F067AA72176FBA, 0x0A637DC5A2C898A6, 0x113F9804BEF90DAE, 0x1B710B35131C471B,
   0x28DB77F523047D84, 0x32CAAB7B40C72493, 0x3C9EBE0A15C9BEBC, 0x431D67C49C100D4C,
   0x4CC5D4BECB3E42B6, 0x597F299CFC657E2A, 0x5FCB6FAB3AD6FAEC, 0x6C44198C4A475817]

/-- `K512[0..79]` (R410). -/
def k512 : List Word64 := k512Part1 ++ k512Part2 ++ k512Part3 ++ k512Part4

/-- `Σ0_256` (R401). -/
def bigSigma0_256 (x : Word32) : Word32 := rotr x 2 ^^^ rotr x 13 ^^^ rotr x 22

/-- `Σ1_256` (R401). -/
def bigSigma1_256 (x : Word32) : Word32 := rotr x 6 ^^^ rotr x 11 ^^^ rotr x 25

/-- `σ0_256` (R401). -/
def smallSigma0_256 (x : Word32) : Word32 := rotr x 7 ^^^ rotr x 18 ^^^ shr x 3

/-- `σ1_256` (R401). -/
def smallSigma1_256 (x : Word32) : Word32 := rotr x 17 ^^^ rotr x 19 ^^^ shr x 10

/-- `Σ0_512` (R411). -/
def bigSigma0_512 (x : Word64) : Word64 := rotr x 28 ^^^ rotr x 34 ^^^ rotr x 39

/-- `Σ1_512` (R411). -/
def bigSigma1_512 (x : Word64) : Word64 := rotr x 14 ^^^ rotr x 18 ^^^ rotr x 41

/-- `σ0_512` (R411). -/
def smallSigma0_512 (x : Word64) : Word64 := rotr x 1 ^^^ rotr x 8 ^^^ shr x 7

/-- `σ1_512` (R411). -/
def smallSigma1_512 (x : Word64) : Word64 := rotr x 19 ^^^ rotr x 61 ^^^ shr x 6

/-- The schedule word after those of `ws` (R402, R412): word `t` for `t` the length of `ws`, which is at least 16. -/
def sha2Next {w : Nat} (s0 s1 : BitVec w → BitVec w) (ws : List (BitVec w)) : BitVec w :=
  let t := ws.length
  s1 (ws.getD (t - 2) 0) + ws.getD (t - 7) 0 + s0 (ws.getD (t - 15) 0) + ws.getD (t - 16) 0

/-- `n` more words of the schedule. -/
def sha2Expand {w : Nat} (s0 s1 : BitVec w → BitVec w) : Nat → List (BitVec w) → List (BitVec w)
  | 0, ws => ws
  | n + 1, ws => sha2Expand s0 s1 n (ws ++ [sha2Next s0 s1 ws])

/-- The schedule `W0..W63` of the 32-bit shape (R402). -/
def sha256Schedule (x : Vector Word32 16) : List Word32 :=
  sha2Expand smallSigma0_256 smallSigma1_256 48 x.toList

/-- The schedule `W0..W79` of the 64-bit shape (R412). -/
def sha512Schedule (x : Vector Word64 16) : List Word64 :=
  sha2Expand smallSigma0_512 smallSigma1_512 64 x.toList

/-- One step of either shape (R403, R413) with the step constant and the schedule word. -/
def sha2Step {w : Nat} (big0 big1 : BitVec w → BitVec w) (r : Regs8 w) (kw : BitVec w × BitVec w) : Regs8 w :=
  let t1 := r.h + big1 r.e + ch r.e r.f r.g + kw.1 + kw.2
  let t2 := big0 r.a + maj r.a r.b r.c
  ⟨t1 + t2, r.a, r.b, r.c, r.d + t1, r.e, r.f, r.g⟩

/-- `Compress_SHA256` (R409). -/
def compressSha256 (hin : Regs8 32) (x : Vector Word32 16) : Regs8 32 :=
  hin.add ((k256.zip (sha256Schedule x)).foldl (sha2Step bigSigma0_256 bigSigma1_256) hin)

/-- `Compress_SHA512` (R418). -/
def compressSha512 (hin : Regs8 64) (x : Vector Word64 16) : Regs8 64 :=
  hin.add ((k512.zip (sha512Schedule x)).foldl (sha2Step bigSigma0_512 bigSigma1_512) hin)

end Sys2Proof.Machine
end

