-- ==== Sys2Proof/Machine/State.lean ====
section
/-! DEFINITION. The state of one engine instance (10_state.md R30 to R39, 20_memory.md R81), the reasons a step can
stop, and the state after reset (10_state.md R55, 70_reset_and_hazards.md R700). State is plain data. -/

namespace Sys2Proof.Machine

/-- The input window's content: the bytes some host write has set since power-on, as (offset, value) pairs with strictly
rising offsets. An offset that is not listed has never been written and holds no known value (R82). -/
abbrev Memory := List Host.Cell

/-- `BUF[0..127]` (R34), the 128 bytes of `BUF_BYTES` (R6). -/
abbrev Block := Vector Byte 128

/-- `H[0..9]` (R35): ten slots of 64 bits. -/
abbrev Slots := Vector Word64 10

/-- `DOUT[0..63]` (R38). -/
abbrev DigestBytes := Vector Byte 64

/-- The part of the state that absorption reads and writes: the triple `(COUNT, BUF, H)`, of which DIGEST takes a private
copy (R41(d)). -/
structure Acc where
  count : BitVec 128
  buf : Block
  h : Slots
deriving DecidableEq, Repr

/-- The whole of one instance. -/
structure State where
  /-- The OPEN parameters of R6, fixed for the machine: no step writes them. -/
  params : Params
  /-- `ALG` (R31), a 4-bit register whose legal values are 0x0, here `none`, and the twelve codes (R46). -/
  alg : Option Alg
  /-- `READY` (R32), 1 bit. -/
  ready : Bool
  /-- `ERR` (R39), 1 bit. -/
  err : Bool
  /-- `ECODE` (R39), 4 bits, whose values are 0 to 6 (R600). -/
  ecode : ECode
  /-- `COUNT` (R33), 128 bits. -/
  count : BitVec 128
  /-- `BUF` (R34), 128 bytes. -/
  buf : Block
  /-- `H` (R35), ten slots of 64 bits. -/
  h : Slots
  /-- `SRC` (R37), 48 bits. -/
  src : BitVec 48
  /-- `DOUT` (R38), 64 bytes. -/
  dout : DigestBytes
  /-- `DLEN` (R38), 7 bits. -/
  dlen : BitVec 7
  /-- `IWIN` (R81), the input window. -/
  iwin : Memory
  /-- The model's own: writes of a second host agent that overlap the next command (R97), oldest first. -/
  racing : List RaceWrite
  /-- The model's own: what the host still does to the instance, in order (R95). -/
  host : List HostEvent
  /-- The model's own: the value the last host load returned; `none` after any other event. -/
  reply : Option Word64
deriving DecidableEq, Repr

/-- Why a step stops. None of these is an engine error: those are recorded in `ERR` and `ECODE` and the machine goes
on (R602, R607). -/
inductive Fault where
  /-- A command, or a host load, reads a window byte that no host write has set since power-on (R82, R607, U3). Raised by
  UPDS, UPDZ and host window loads. Safe: the hardware goes on with some value. -/
  | unwrittenByte
  /-- A register access that is not 8 bytes wide or not at a multiple of 8 (R90, U7): a bus error. Raised by host
  accesses. Safe: no state is reached. -/
  | registerBusError
  /-- A window access whose width does not divide its offset (R85, U7): a bus error. Raised by host accesses. Safe. -/
  | windowBusError
  /-- A window access of a width other than 1, 2, 4 or 8 (R84 gives no other). Raised by host accesses. Safe. -/
  | windowWidth
  /-- A window access that runs past the last byte of the window: those offsets do not exist (R81). Raised by host
  accesses. Safe. -/
  | windowEnd
  /-- A host address outside both of the instance's ranges (R80): it is not an address of this instance. Raised by
  host accesses. Safe. -/
  | noSuchAddress
  /-- `READY = 1` with no algorithm selected: a state that R31 and R32 rule out and no run reaches. Raised by UPDR, UPDS,
  UPDZ and DIGEST in such a state only. Safe. -/
  | noAlgorithm
  /-- The platform has no instance of that number. Raised by the platform layer only. Safe. -/
  | noSuchInstance
deriving DecidableEq, Repr

/-- Why a step refuses an instruction. -/
inductive Refusal where
  /-- The model has no meaning for the instruction. Raised by exec's dispatch alone, and by no arm of it: every
  instruction of the table has its meaning. Safe. -/
  | notModelled (mnemonic : String)
deriving DecidableEq, Repr

/-- The result of an instruction or of a step. -/
abbrev Result := Host.Outcome State Fault Refusal

/-- The power-on state of an instance with the parameters `p` (R55, R82, R700). -/
def State.resetWith (p : Params) : State where
  params := p
  alg := none
  ready := false
  err := false
  ecode := .none
  count := 0
  buf := Vector.replicate 128 0
  h := Vector.replicate 10 0
  src := 0
  dout := Vector.replicate 64 0
  dlen := 0
  iwin := []
  racing := []
  host := []
  reply := none

/-- The machine right after power-on reset, for the parameters of log entry 1. -/
def State.reset : State := State.resetWith Params.default

end Sys2Proof.Machine
end

