-- ==== Sys2Proof/Machine/Compress.lean ====
section
/-! DEFINITION. The initial values (30_encoding.md R124 names the rule of each), how the working registers of a
compression are read from and written to the state store (10_state.md R35, 46_ripemd.md R467), and the compression of
each algorithm (41_accumulator.md R246). -/

namespace Sys2Proof.Machine

/-- `IV(alg)`: the state words an INIT loads, each zero-extended to its slot (R35). -/
def iv : Alg → List Word64
  -- 43_md5.md R330
  | .md5 =>
    [0x67452301, 0xEFCDAB89, 0x98BADCFE, 0x10325476]
  -- 44_sha1.md R370
  | .sha1 =>
    [0x67452301, 0xEFCDAB89, 0x98BADCFE, 0x10325476,
     0xC3D2E1F0]
  -- 45_sha2.md R421
  | .sha224 =>
    [0xC1059ED8, 0x367CD507, 0x3070DD17, 0xF70E5939,
     0xFFC00B31, 0x68581511, 0x64F98FA7, 0xBEFA4FA4]
  -- 45_sha2.md R420
  | .sha256 =>
    [0x6A09E667, 0xBB67AE85, 0x3C6EF372, 0xA54FF53A,
     0x510E527F, 0x9B05688C, 0x1F83D9AB, 0x5BE0CD19]
  -- 45_sha2.md R423
  | .sha384 =>
    [0xCBBB9D5DC1059ED8, 0x629A292A367CD507, 0x9159015A3070DD17, 0x152FECD8F70E5939,
     0x67332667FFC00B31, 0x8EB44A8768581511, 0xDB0C2E0D64F98FA7, 0x47B5481DBEFA4FA4]
  -- 45_sha2.md R422
  | .sha512 =>
    [0x6A09E667F3BCC908, 0xBB67AE8584CAA73B, 0x3C6EF372FE94F82B, 0xA54FF53A5F1D36F1,
     0x510E527FADE682D1, 0x9B05688C2B3E6C1F, 0x1F83D9ABFB41BD6B, 0x5BE0CD19137E2179]
  -- 45_sha2.md R424
  | .sha512_224 =>
    [0x8C3D37C819544DA2, 0x73E1996689DCD4D6, 0x1DFAB7AE32FF9C82, 0x679DD514582F9FCF,
     0x0F6D2B697BD44DA8, 0x77E36F7304C48942, 0x3F9D85A86A1D36C8, 0x1112E6AD91D692A1]
  -- 45_sha2.md R425
  | .sha512_256 =>
    [0x22312194FC2BF72C, 0x9F555FA3C84C64C2, 0x2393B86B6F53B151, 0x963877195940EABD,
     0x96283EE2A88EFFE3, 0xBE5E1E2553863992, 0x2B0199FC2C85B8AA, 0x0EB72DDC81C52CA2]
  -- 46_ripemd.md R469
  | .rmd128 =>
    [0x67452301, 0xEFCDAB89, 0x98BADCFE, 0x10325476]
  -- 46_ripemd.md R471
  | .rmd160 =>
    [0x67452301, 0xEFCDAB89, 0x98BADCFE, 0x10325476,
     0xC3D2E1F0]
  -- 46_ripemd.md R473
  | .rmd256 =>
    [0x67452301, 0xEFCDAB89, 0x98BADCFE, 0x10325476,
     0x76543210, 0xFEDCBA98, 0x89ABCDEF, 0x01234567]
  -- 46_ripemd.md R475
  | .rmd320 =>
    [0x67452301, 0xEFCDAB89, 0x98BADCFE, 0x10325476,
     0xC3D2E1F0, 0x76543210, 0xFEDCBA98, 0x89ABCDEF,
     0x01234567, 0x3C2D1E0F]

/-- The state store after INIT (R250): `IV(alg)[i]` in the slots `i < N(alg)` and 0 in the others. -/
def ivSlots (a : Alg) : Slots := Vector.ofFn fun i => (iv a).getD i.val 0

/-- The low 32 bits of a slot: a state word at `W = 32` (R35). -/
def slot32 (h : Slots) (i : Fin 10) : Word32 := (h[i]).setWidth 32

/-- A 32-bit word zero-extended to its slot (R35). -/
def widen (x : Word32) : Word64 := x.setWidth 64

/-- Four consecutive state words, from slot `i` on. -/
def get4 (h : Slots) (i : Fin 7) : Regs4 :=
  ⟨slot32 h ⟨i, by omega⟩, slot32 h ⟨i + 1, by omega⟩, slot32 h ⟨i + 2, by omega⟩, slot32 h ⟨i + 3, by omega⟩⟩

/-- Writes four consecutive state words, from slot `i` on. -/
def put4 (h : Slots) (i : Fin 7) (r : Regs4) : Slots :=
  (((h.set i (widen r.a)).set (i + 1) (widen r.b)).set (i + 2) (widen r.c)).set (i + 3) (widen r.d)

/-- Five consecutive state words, from slot `i` on. -/
def get5 (h : Slots) (i : Fin 6) : Regs5 :=
  ⟨slot32 h ⟨i, by omega⟩, slot32 h ⟨i + 1, by omega⟩, slot32 h ⟨i + 2, by omega⟩, slot32 h ⟨i + 3, by omega⟩,
   slot32 h ⟨i + 4, by omega⟩⟩

/-- Writes five consecutive state words, from slot `i` on. -/
def put5 (h : Slots) (i : Fin 6) (r : Regs5) : Slots :=
  ((((h.set i (widen r.a)).set (i + 1) (widen r.b)).set (i + 2) (widen r.c)).set (i + 3) (widen r.d)).set (i + 4)
    (widen r.e)

/-- The eight state words of the 32-bit SHA-2 shape. -/
def get8x32 (h : Slots) : Regs8 32 :=
  ⟨slot32 h 0, slot32 h 1, slot32 h 2, slot32 h 3, slot32 h 4, slot32 h 5, slot32 h 6, slot32 h 7⟩

/-- Writes the eight state words of the 64-bit SHA-2 shape. -/
def put8x64 (h : Slots) (r : Regs8 64) : Slots :=
  (((((((h.set 0 r.a).set 1 r.b).set 2 r.c).set 3 r.d).set 4 r.e).set 5 r.f).set 6 r.g).set 7 r.h

/-- Writes the eight state words of the 32-bit SHA-2 shape. -/
def put8x32 (h : Slots) (r : Regs8 32) : Slots :=
  put8x64 h ⟨widen r.a, widen r.b, widen r.c, widen r.d, widen r.e, widen r.f, widen r.g, widen r.h⟩

/-- The eight state words of the 64-bit SHA-2 shape. -/
def get8x64 (h : Slots) : Regs8 64 := ⟨h[0], h[1], h[2], h[3], h[4], h[5], h[6], h[7]⟩

/-- `H[0..N-1] <- Compress_ALG(H[0..N-1], Parse_ALG(blk))` (R240, R246, R212): the store with its first `N` slots
written, the others unchanged. -/
def compress (a : Alg) (h : Slots) (blk : List Byte) : Slots :=
  match a with
  | .md5 => put4 h 0 (compressMd5 (get4 h 0) (parseBlock a.order 32 blk))
  | .sha1 => put5 h 0 (compressSha1 (get5 h 0) (parseBlock a.order 32 blk))
  | .sha224 | .sha256 => put8x32 h (compressSha256 (get8x32 h) (parseBlock a.order 32 blk))
  | .sha384 | .sha512 | .sha512_224 | .sha512_256 =>
    put8x64 h (compressSha512 (get8x64 h) (parseBlock a.order 64 blk))
  | .rmd128 => put4 h 0 (compressRmd128 (get4 h 0) (parseBlock a.order 32 blk))
  | .rmd160 => put5 h 0 (compressRmd160 (get5 h 0) (parseBlock a.order 32 blk))
  | .rmd256 =>
    let r := compressRmd256 (get4 h 0, get4 h 4) (parseBlock a.order 32 blk)
    put4 (put4 h 0 r.1) 4 r.2
  | .rmd320 =>
    let r := compressRmd320 (get5 h 0, get5 h 5) (parseBlock a.order 32 blk)
    put5 (put5 h 0 r.1) 5 r.2

end Sys2Proof.Machine
end

