-- ==== Sys2Proof/Machine/Ops.lean ====
section
/-! DEFINITION. The shared operations over memory and registers: the window as plain data (20_memory.md R81, R82),
recording an error (60_exceptions.md R602, the engine's only exception), reset (70_reset_and_hazards.md R700), and the
block accumulator (41_accumulator.md R240, R241). -/

namespace Sys2Proof.Machine

/-- The canonical form of the window's content: strictly rising offsets. -/
abbrev Memory.wf (m : Memory) : Prop := m.Pairwise fun x y => x.1 < y.1

/-- The byte at an offset; `none` where no host write has set one (R82). -/
def Memory.read (m : Memory) (off : Nat) : Option Byte :=
  match m with
  | [] => none
  | (a, b) :: rest => if a = off then some b else Memory.read rest off

/-- Sets the byte at an offset, in canonical form. -/
def Memory.write (m : Memory) (off : Nat) (v : Byte) : Memory :=
  match m with
  | [] => [(off, v)]
  | (a, b) :: rest =>
    if off < a then (off, v) :: (a, b) :: rest
    else if off = a then (off, v) :: rest
    else (a, b) :: Memory.write rest off v

/-- `MemWrite(off, n, v)` (R13, R84): the bytes of the list at rising offsets from `off` on. -/
def Memory.writeBytes (m : Memory) (off : Nat) (bytes : List Byte) : Memory :=
  match bytes with
  | [] => m
  | b :: rest => Memory.writeBytes (m.write off b) (off + 1) rest

/-- The `n` bytes from `off` on; `none` if one of them has never been written. -/
def Memory.readBytes (m : Memory) (off n : Nat) : Option (List Byte) :=
  match n with
  | 0 => some []
  | k + 1 =>
    match m.read off with
    | none => none
    | some b =>
      match Memory.readBytes m (off + 1) k with
      | none => none
      | some rest => some (b :: rest)

/-- The second agent's overlapping writes reach the window (R97): each is in it once the command has completed.
DESIGN CHOICE (log entry 6): oldest first, so of several to one byte the newest stays. -/
def State.land (s : State) : State :=
  { s with iwin := s.racing.foldl (fun m w => m.write w.offset w.value) s.iwin, racing := [] }

/-- `raise Error(code)` (R602): the first error is recorded and sticks; no other state changes. The command that raises
it ends there. -/
def State.raise (s : State) (code : ECode) : State :=
  if s.err then s else { s with err := true, ecode := code }

/-- Reset (R55, R700): every register of the instance takes its reset value. The window is not changed, and neither are
the platform's parameters nor what the host still does. -/
def State.resetRegs (s : State) : State :=
  { State.resetWith s.params with iwin := s.iwin, racing := s.racing, host := s.host }

/-- Power-on (R82, R634, R700): reset, after which the window holds no known byte. -/
def State.powerOn (s : State) : State :=
  { State.resetWith s.params with host := s.host }

/-- The triple an absorption works on (R41(d)). -/
def State.acc (s : State) : Acc := ⟨s.count, s.buf, s.h⟩

/-- Writes `COUNT`, `BUF` and `H`. -/
def State.setAcc (s : State) (c : Acc) : State := { s with count := c.count, buf := c.buf, h := c.h }

/-- `SRC <- v` at 48 bits: `v = 2^48` stores 0, the only wrap of `SRC` (R264, R266). -/
def State.setSrc (s : State) (v : Nat) : State := { s with src := BitVec.ofNat 48 v }

/-- Whether absorbing one more byte completes a block: `(COUNT + 1) mod B = 0` (R240). -/
def completesBlock (a : Alg) (count : BitVec 128) : Bool := (count + 1).toNat % a.blockBytes == 0

/-- `Absorb(b)` (R240). -/
def absorb (a : Alg) (c : Acc) (b : Byte) : Acc :=
  let buf := c.buf.set (c.count.toNat % a.blockBytes) b (a.cursor_lt _)
  let h := if completesBlock a c.count then compress a c.h (buf.toList.take a.blockBytes) else c.h
  ⟨c.count + 1, buf, h⟩

/-- `AbsorbSeq(s)` (R241): the bytes in order. -/
def absorbSeq (a : Alg) (c : Acc) (bytes : List Byte) : Acc := bytes.foldl (absorb a) c

/-- How many compressions an absorption performs (R241, R720): one for each byte that completes a block. -/
def compressions (a : Alg) (c : Acc) (bytes : List Byte) : Nat :=
  match bytes with
  | [] => 0
  | b :: rest => (if completesBlock a c.count then 1 else 0) + compressions a (absorb a c b) rest

/-- The accumulator of a stream just begun by INIT (R250): nothing absorbed, and the IV in the state store. -/
def accInit (a : Alg) : Acc := ⟨0, Vector.replicate 128 0, ivSlots a⟩

/-- The check every update and DIGEST makes first: NOT_INIT when `READY = 0` (R601, R605). Otherwise the command runs
with the algorithm of the stream. -/
def State.withAlg (s : State) (k : Alg → Result) : Result :=
  if s.ready then
    match s.alg with
    | some a => k a
    | none => .fault .noAlgorithm
  else .next (s.raise .notInit)

end Sys2Proof.Machine
end

