-- ==== Sys2Proof/Machine/Operands.lean ====
section
/-! DEFINITION. The memory operands of the commands: the engine's single-byte window reads (20_memory.md R81, R87, R97),
the span of UPDS (41_accumulator.md R264) and the zero-terminated string of UPDZ (R266). The register fields of a command
word are the decoder's (30_encoding.md R122). -/

namespace Sys2Proof.Machine

/-- The two kinds of window read a command makes: UPDZ's search for its terminator, and the absorption of a byte. -/
inductive ReadPhase where
  | scan
  | absorb
deriving DecidableEq, Repr

/-- Whether a read of this kind sees an overlapping write (R97). -/
def raceSeen (p : ReadPhase) (w : RaceWrite) : Bool :=
  match p with
  | .scan => w.seenByScan
  | .absorb => w.seenByAbsorb

/-- `MemRead(off, 1)` (R13, R81): the window's byte, or the value of the last overlapping write to it that this read
sees (R97); `none` where the byte seen has never been written (R82). -/
def State.memRead (s : State) (p : ReadPhase) (off : Nat) : Option Byte :=
  s.racing.foldl (fun old w => if w.offset = off ∧ raceSeen p w = true then some w.value else old) (s.iwin.read off)

/-- The `n` bytes from `off` on, one at a time in ascending order (R87); `none` if one of them has never been written. -/
def State.spanBytes (s : State) (off n : Nat) : Option (List Byte) :=
  match n with
  | 0 => some []
  | k + 1 =>
    match s.memRead .absorb off with
    | none => none
    | some b =>
      match State.spanBytes s (off + 1) k with
      | none => none
      | some rest => some (b :: rest)

/-- What the search for a terminator finds. -/
inductive ScanResult where
  /-- The least offset that holds a zero byte. -/
  | found (z : Nat)
  /-- Every offset was read and none holds a zero byte. -/
  | noZero
  /-- A byte that no host write has set comes first, so whether it is the terminator is unknown (R82). -/
  | unwritten
deriving DecidableEq, Repr

/-- The search of R266 among the `n` offsets from `off` on, in ascending order. -/
def State.findZero (s : State) (off n : Nat) : ScanResult :=
  match n with
  | 0 => .noZero
  | k + 1 =>
    match s.memRead .scan off with
    | none => .unwritten
    | some b => if b = 0 then .found off else State.findZero s (off + 1) k

end Sys2Proof.Machine
end

