-- ==== Sys2Proof/Machine/Flags.lean ====
section
/-! DEFINITION. The flags (10_state.md R43) and the other fields the host reads through the register block (R44 to R53):
how each register's 64 bits are made of the state. No command computes a flag from a value. -/

namespace Sys2Proof.Machine

/-- The code of R600. -/
def ecodeBits : ECode → BitVec 4
  | .none => 0
  | .illegalOp => 1
  | .reservedNonzero => 2
  | .illegalAlg => 3
  | .notInit => 4
  | .srcRange => 5
  | .countOverflow => 6

/-- STATUS (R45): READY in bit 0, ERR in bit 1, ECODE in bits 7:4, and the reserved bits 0. -/
def State.status (s : State) : Word64 :=
  (0 : BitVec 56) ++ ecodeBits s.ecode ++ (0 : BitVec 2) ++ BitVec.ofBool s.err ++ BitVec.ofBool s.ready

/-- The 4-bit content of `ALG` (R31): 0x0 while no algorithm is selected. -/
def State.algCode (s : State) : BitVec 4 :=
  match s.alg with
  | none => 0
  | some a => a.code

/-- ALGREG (R46). -/
def State.algReg (s : State) : Word64 := (0 : BitVec 60) ++ s.algCode

/-- SRCREG (R47). -/
def State.srcReg (s : State) : Word64 := (0 : BitVec 16) ++ s.src

/-- COUNT_LO (R48). -/
def State.countLo (s : State) : Word64 := s.count.extractLsb' 0 64

/-- COUNT_HI (R48). -/
def State.countHi (s : State) : Word64 := s.count.extractLsb' 64 64

/-- DLENREG (R49). -/
def State.dlenReg (s : State) : Word64 := (0 : BitVec 57) ++ s.dlen

/-- DOUTk (R50): eight digest bytes composed little-endian. -/
def State.doutReg (s : State) (k : Nat) : Word64 := loadLE 64 (byteSlice s.dout.toList (8 * k) 8)

/-- HREGk (R51): two 32-bit state words, or one 64-bit state word; 0 while no algorithm is selected. -/
def State.hReg (s : State) (k : Nat) : Word64 :=
  match s.alg with
  | none => 0
  | some a =>
    if a.wordBits = 32 then
      (s.h.toList.getD (2 * k + 1) 0).setWidth 32 ++ (s.h.toList.getD (2 * k) 0).setWidth 32
    else s.h.toList.getD k 0

/-- A load of the register at an 8-byte-aligned offset of the block (R44): CMD and the reserved offsets read 0 (R52,
R53). -/
def State.readReg (s : State) (off : Nat) : Word64 :=
  if off = 0x08 then s.status
  else if off = 0x10 then s.algReg
  else if off = 0x18 then s.srcReg
  else if off = 0x20 then s.countLo
  else if off = 0x28 then s.countHi
  else if off = 0x30 then s.dlenReg
  else if 0x40 ≤ off ∧ off < 0x80 then s.doutReg ((off - 0x40) / 8)
  else if 0x80 ≤ off ∧ off < 0xC0 then s.hReg ((off - 0x80) / 8)
  else 0

end Sys2Proof.Machine
end

