-- ==== Sys2Proof/Machine/Accumulator.lean ====
section
/-! DEFINITION. The meanings of INIT (41_accumulator.md R250, one definition per row of the table), UPDR (R260), SETSRC
(R262), UPDS (R264) and UPDZ (R266). The decode checks have passed before a meaning runs (30_encoding.md R126). -/

namespace Sys2Proof.Machine

/-- `INIT(alg)` (R250): a new stream of the algorithm. `SRC` is not changed. -/
def State.initStream (s : State) (a : Alg) : State :=
  { s with
    alg := some a
    ready := true
    err := false
    ecode := .none
    count := 0
    buf := Vector.replicate 128 0
    h := ivSlots a
    dout := Vector.replicate 64 0
    dlen := 0 }

/-- INIT MD5 (R250, R330). -/
def execInitMd5 (s : State) : Result := .next (s.initStream .md5)

/-- INIT SHA1 (R250, R370). -/
def execInitSha1 (s : State) : Result := .next (s.initStream .sha1)

/-- INIT SHA224 (R250, R421). -/
def execInitSha224 (s : State) : Result := .next (s.initStream .sha224)

/-- INIT SHA256 (R250, R420). -/
def execInitSha256 (s : State) : Result := .next (s.initStream .sha256)

/-- INIT SHA384 (R250, R423). -/
def execInitSha384 (s : State) : Result := .next (s.initStream .sha384)

/-- INIT SHA512 (R250, R422). -/
def execInitSha512 (s : State) : Result := .next (s.initStream .sha512)

/-- INIT SHA512_224 (R250, R424). -/
def execInitSha512_224 (s : State) : Result := .next (s.initStream .sha512_224)

/-- INIT SHA512_256 (R250, R425). -/
def execInitSha512_256 (s : State) : Result := .next (s.initStream .sha512_256)

/-- INIT RMD128 (R250, R469). -/
def execInitRmd128 (s : State) : Result := .next (s.initStream .rmd128)

/-- INIT RMD160 (R250, R471). -/
def execInitRmd160 (s : State) : Result := .next (s.initStream .rmd160)

/-- INIT RMD256 (R250, R473). -/
def execInitRmd256 (s : State) : Result := .next (s.initStream .rmd256)

/-- INIT RMD320 (R250, R475). -/
def execInitRmd320 (s : State) : Result := .next (s.initStream .rmd320)

/-- The check every update makes last before it absorbs: COUNT_OVERFLOW when `COUNT + k > LIMIT(ALG)`, an exact sum
(R601, R603). The update is refused whole. -/
def State.guardCount (s : State) (a : Alg) (k : Nat) (run : Result) : Result :=
  if s.count.toNat + k > a.limit then .next (s.raise .countOverflow) else run

/-- UPDR (R260): absorbs `n` copies of the byte. -/
def execUpdr (byte : Byte) (count : BitVec 48) (s : State) : Result :=
  s.withAlg fun a =>
    s.guardCount a count.toNat (.next (s.setAcc (absorbSeq a s.acc (List.replicate count.toNat byte))))

/-- SETSRC (R262). It needs no INIT, and its offset is not checked against the window. -/
def execSetsrc (offset : BitVec 48) (s : State) : Result := .next { s with src := offset }

/-- Absorbs the `n` window bytes at `SRC`, then sets `SRC` to `next` (R264, R266). A byte that no host write has set
stops the run (R82). -/
def State.absorbSpan (s : State) (a : Alg) (n next : Nat) : Result :=
  match s.spanBytes s.src.toNat n with
  | none => .fault .unwrittenByte
  | some bytes => .next ((s.setAcc (absorbSeq a s.acc bytes)).setSrc next)

/-- UPDS (R264): absorbs `n` window bytes from `SRC` on. -/
def execUpds (length : BitVec 48) (s : State) : Result :=
  s.withAlg fun a =>
    if s.src.toNat + length.toNat > s.params.iwinSize then .next (s.raise .srcRange)
    else s.guardCount a length.toNat (s.absorbSpan a length.toNat (s.src.toNat + length.toNat))

/-- UPDZ (R266): absorbs the bytes from `SRC` up to the first zero byte, which it passes over. -/
def execUpdz (s : State) : Result :=
  s.withAlg fun a =>
    match s.findZero s.src.toNat (s.params.iwinSize - s.src.toNat) with
    | .unwritten => .fault .unwrittenByte
    | .noZero => .next (s.raise .srcRange)
    | .found z => s.guardCount a (z - s.src.toNat) (s.absorbSpan a (z - s.src.toNat) (z + 1))

end Sys2Proof.Machine
end

