-- ==== Sys2Proof/Machine/Finalizer.lean ====
section
/-! DEFINITION. The finalizer and the meaning of DIGEST (42_finalizer.md R290 to R294). -/

namespace Sys2Proof.Machine

/-- Step 2 of `Finalize` (R291): absorbs zero bytes until `COUNT' mod B = B - L`, at most `fuel` of them. A block's
worth is always enough. -/
def padZeros (a : Alg) (fuel : Nat) (c : Acc) : Acc :=
  match fuel with
  | 0 => c
  | k + 1 =>
    if c.count.toNat % a.blockBytes = a.blockBytes - a.lengthBytes then c else padZeros a k (absorb a c 0)

/-- The length field (R291): the original message's bit length in `8L` bits, in the algorithm's byte order. -/
def lengthField (a : Alg) (count : Nat) : List Byte :=
  store a.order (BitVec.ofNat (8 * a.lengthBytes) (8 * count))

/-- Steps 1 to 3 of `Finalize` (R291) on a private copy of the stream. -/
def padded (a : Alg) (c : Acc) : Acc :=
  absorbSeq a (padZeros a a.blockBytes (absorb a c 0x80)) (lengthField a c.count.toNat)

/-- `Serialize(alg, h)` (R293): the state words in index order, each in the algorithm's byte order. -/
def serialize (a : Alg) (h : Slots) : List Byte :=
  (h.toList.take a.stateWords).flatMap fun x => store a.order (x.setWidth a.wordBits)

/-- `Finalize` (R291), with the truncation of R294. -/
def finalize (a : Alg) (c : Acc) : List Byte := (serialize a (padded a c).h).take a.digestBytes

/-- `pad(c)` in closed form (R292). -/
def padding (a : Alg) (count : Nat) : List Byte :=
  let zeros := (a.blockBytes - a.lengthBytes - 1 + (a.blockBytes - count % a.blockBytes)) % a.blockBytes
  0x80 :: (List.replicate zeros 0 ++ lengthField a count)

/-- `DOUT` after DIGEST (R290): the digest, and 0x00 from `DLEN(ALG)` on. -/
def digestOut (a : Alg) (d : List Byte) : DigestBytes :=
  ⟨⟨(d.take a.digestBytes ++ List.replicate 64 0).take 64⟩, by simp⟩

/-- Writes `DOUT` and `DLEN` (R290). -/
def State.setDigest (s : State) (a : Alg) (d : List Byte) : State :=
  { s with dout := digestOut a d, dlen := BitVec.ofNat 7 a.digestBytes }

/-- DIGEST (R290): writes `DOUT` and `DLEN` and leaves the stream unchanged. -/
def execDigest (s : State) : Result := s.withAlg fun a => .next (s.setDigest a (finalize a s.acc))

end Sys2Proof.Machine
end

