-- ==== Sys2Proof/Machine/Dispatch.lean ====
section
/-! DEFINITION. The dispatch: one arm per command (30_encoding.md R123, R124). -/

namespace Sys2Proof.Machine

def exec (i : Instr) (s : State) : Host.Outcome State Fault Refusal :=
  match i with
  | .initMd5 => Sys2Proof.Machine.execInitMd5 s
  | .initSha1 => Sys2Proof.Machine.execInitSha1 s
  | .initSha224 => Sys2Proof.Machine.execInitSha224 s
  | .initSha256 => Sys2Proof.Machine.execInitSha256 s
  | .initSha384 => Sys2Proof.Machine.execInitSha384 s
  | .initSha512 => Sys2Proof.Machine.execInitSha512 s
  | .initSha512_224 => Sys2Proof.Machine.execInitSha512_224 s
  | .initSha512_256 => Sys2Proof.Machine.execInitSha512_256 s
  | .initRmd128 => Sys2Proof.Machine.execInitRmd128 s
  | .initRmd160 => Sys2Proof.Machine.execInitRmd160 s
  | .initRmd256 => Sys2Proof.Machine.execInitRmd256 s
  | .initRmd320 => Sys2Proof.Machine.execInitRmd320 s
  | .updr byte count => Sys2Proof.Machine.execUpdr byte count s
  | .setsrc offset => Sys2Proof.Machine.execSetsrc offset s
  | .upds length => Sys2Proof.Machine.execUpds length s
  | .updz => Sys2Proof.Machine.execUpdz s
  | .digest => Sys2Proof.Machine.execDigest s

end Sys2Proof.Machine
end

