-- ==== Sys2Proof/Machine/Bus.lean ====
section
/-! DEFINITION. What the host's accesses do (10_state.md R44, R52, R53; 20_memory.md R80 to R90, R95 to R97): the address
ranges, the issue of a command with the discard and the decode errors of 30_encoding.md R126, register and window
accesses, bus errors (60_exceptions.md R607), and reset and power-on. -/

namespace Sys2Proof.Machine

/-- Where a host address leads (R80). -/
inductive Target where
  /-- A byte of the register block, by its offset (R44). -/
  | register (off : Nat)
  /-- A byte of the input window, by its offset (R81). -/
  | window (off : Nat)
  /-- Neither range of this instance. -/
  | nowhere
deriving DecidableEq, Repr

/-- The range a host address falls in. The platform keeps the two disjoint (R89). -/
def addrTarget (p : Params) (addr : Nat) : Target :=
  if p.regBase ≤ addr ∧ addr < p.regBase + regBlockBytes then .register (addr - p.regBase)
  else if p.iwinBase ≤ addr ∧ addr < p.iwinBase + p.iwinSize then .window (addr - p.iwinBase)
  else .nowhere

/-- A command word arriving at CMD (R52, R126): while `ERR = 1` anything but a valid INIT is discarded (R604); a word that
does not decode is refused with its error code (R602); otherwise the command executes. -/
def issue (w : Word64) (s : State) : Result :=
  if s.err ∧ validInit w = false then .next s
  else
    match decode w with
    | .error code => .next (s.raise code)
    | .ok i => exec i s

/-- A command from the acceptance to the completion of its CMD write (R95): a second agent's overlapping writes are in the
window once it has completed (R97). -/
def runCommand (w : Word64) (s : State) : Result :=
  match issue w s with
  | .next t => .next t.land
  | .fault f => .fault f
  | .refused r => .refused r

/-- What is wrong with a window access of `width` bytes at an offset, if anything (R81, R84, R85). -/
def windowFault (p : Params) (off width : Nat) : Option Fault :=
  if ¬(width = 1 ∨ width = 2 ∨ width = 4 ∨ width = 8) then some .windowWidth
  else if off % width ≠ 0 then some .windowBusError
  else if p.iwinSize < off + width then some .windowEnd
  else none

/-- A register access is 8 bytes wide at a multiple of 8 (R90). -/
def registerAccessOk (off width : Nat) : Bool := width == 8 && off % 8 == 0

/-- A host store. A store to CMD issues a command; a store to any other register is ignored (R53); a store to the window
writes its bytes, least significant first (R84). DESIGN CHOICE (log entry 6): a second agent's pending overlapping write to
one of those bytes lands first, so the host's store is what stays. -/
def hostWrite (addr width : Nat) (value : Word64) (s : State) : Result :=
  match addrTarget s.params addr with
  | .register off =>
    if registerAccessOk off width then
      if off = 0 then runCommand value s else .next s.land
    else .fault .registerBusError
  | .window off =>
    match windowFault s.params off width with
    | some f => .fault f
    | none => .next { s.land with iwin := s.land.iwin.writeBytes off ((storeLE value).take width) }
  | .nowhere => .fault .noSuchAddress

/-- A host load. It has no side effect on the instance (R87); the value goes to the host. -/
def hostRead (addr width : Nat) (s : State) : Result :=
  match addrTarget s.params addr with
  | .register off =>
    if registerAccessOk off width then .next { s.land with reply := some (s.readReg off) }
    else .fault .registerBusError
  | .window off =>
    match windowFault s.params off width with
    | some f => .fault f
    | none =>
      match s.land.iwin.readBytes off width with
      | none => .fault .unwrittenByte
      | some bytes => .next { s.land with reply := some (loadLE 64 bytes) }
  | .nowhere => .fault .noSuchAddress

/-- A second agent's write begins, to a byte that exists (R81, R97). It lands when the next event completes. -/
def beginOverlap (w : RaceWrite) (s : State) : Result :=
  if w.offset < s.params.iwinSize then .next { s with racing := s.racing ++ [w] } else .fault .windowEnd

/-- One event from outside the instance. Reset, between commands or in one, leaves the reset state, and an abandoned
command has no effect (R700, R701). -/
def hostEvent (e : HostEvent) (s : State) : Result :=
  match e with
  | .write addr width value => hostWrite addr width value s
  | .read addr width => hostRead addr width s
  | .overlap w => beginOverlap w s
  | .reset => .next s.land.resetRegs
  | .resetDuring _ => .next s.land.resetRegs
  | .powerOn => .next s.powerOn

/-- The host's store of a command word to CMD (R52). -/
def cmdWrite (p : Params) (w : Word64) : HostEvent := .write p.regBase 8 w

end Sys2Proof.Machine
end

