-- ==== Sys2Proof/Machine/Step.lean ====
section
/-! DEFINITION. One step. The engine has no program counter and fetches nothing (10_state.md R40): a step takes the next
thing the host does, in order (20_memory.md R95), and with nothing to take the engine is idle and keeps its state
(60_exceptions.md R634). -/

namespace Sys2Proof.Machine

def step (s : State) : Host.Outcome State Fault Refusal :=
  match s.host with
  | [] => .next s.land
  | e :: rest => hostEvent e { s with host := rest, reply := none }

/-- The host's next action is the store to CMD of the command word that spec/opcode_table.json numbers as `w`: the only
place a command comes from (R52, log entry 5). -/
def State.withFetchWord (s : State) (nbits w : Nat) : State :=
  { s with host := cmdWrite s.params (tableWord nbits w) :: s.host }

end Sys2Proof.Machine
end

