-- ==== Sys2Proof/Machine/Assembler.lean ====
section
/-! DEFINITION. The assembler, the pseudo-instructions and the disassembler of 30_encoding.md R130 to R132. Source text is
a list of lines; an error in one is `none`. -/

namespace Sys2Proof.Machine

/-- The largest count one UPDR takes, `2^48 - 1` (R131). -/
def maxCount : Nat := 2 ^ 48 - 1

/-- The expansion of `UPDRL byte, count` (R131): full commands, then one with the remainder if it is not zero. -/
def expandUpdrl (byte : Byte) (count : Nat) : List Instr :=
  List.replicate (count / maxCount) (.updr byte (BitVec.ofNat 48 maxCount)) ++
    (if count % maxCount = 0 then [] else [.updr byte (BitVec.ofNat 48 (count % maxCount))])

/-- INIT with an algorithm code written as a number: none for a code that R130 does not allow. -/
def initOfCode (alg : Nat) : List Instr := ((Alg.ofCode (BitVec.ofNat 4 alg)).map Instr.init).toList

/-- The commands a source line stands for (R130, R131), for a line whose operands are in range. The directive `.iwin` is
no command. -/
def expand : Source → List Instr
  | .init alg => initOfCode alg
  | .updr byte count => [.updr (BitVec.ofNat 8 byte) (BitVec.ofNat 48 count)]
  | .setsrc offset => [.setsrc (BitVec.ofNat 48 offset)]
  | .upds length => [.upds (BitVec.ofNat 48 length)]
  | .updz => [.updz]
  | .digest => [.digest]
  | .updb byte => [.updr (BitVec.ofNat 8 byte) 1]
  | .updrl byte count => expandUpdrl (BitVec.ofNat 8 byte) count
  | .hashs alg offset length =>
    initOfCode alg ++ [.setsrc (BitVec.ofNat 48 offset), .upds (BitVec.ofNat 48 length), .digest]
  | .hashz alg offset => initOfCode alg ++ [.setsrc (BitVec.ofNat 48 offset), .updz, .digest]
  | .iwin _ _ => []

/-- The commands of a source line; `none` is an assembly error: an operand out of its field's range is never truncated
(R130). -/
def assembleSource (l : Source) : Option (List Instr) := if l.WellFormed then some (expand l) else none

/-- The host stores that put a list of bytes into the window (R130, `MemWrite`). -/
def windowStores (p : Params) (off : Nat) (bytes : List Nat) : List HostEvent :=
  bytes.zipIdx.map fun bk => .write (p.iwinBase + off + bk.2) 1 (BitVec.ofNat 64 bk.1)

/-- What the host does for a source line: its window stores or its CMD writes. -/
def sourceEvents (p : Params) (l : Source) : Option (List HostEvent) :=
  match l with
  | .iwin off bytes => if l.WellFormed then some (windowStores p off bytes) else none
  | _ => (assembleSource l).map fun is => is.map fun i => cmdWrite p (encode i)

/-! Numbers and names as text. -/

/-- A hexadecimal digit. -/
def hexChar (d : Nat) : Char := if d < 10 then Char.ofNat (48 + d) else Char.ofNat (55 + d)

/-- The low `k` hexadecimal digits of a number, most significant first. -/
def hexDigits : Nat → Nat → List Char
  | 0, _ => []
  | k + 1, n => hexDigits k (n / 16) ++ [hexChar (n % 16)]

/-- A number below 2^64 in hexadecimal, without leading zeros. -/
def hexText (n : Nat) : List Char :=
  let ds := (hexDigits 16 n).dropWhile (· = '0')
  ['0', 'x'] ++ (if ds.isEmpty then ['0'] else ds)

/-- The value of a digit character in the given base. -/
def digitValue (base : Nat) (c : Char) : Option Nat :=
  let v :=
    if '0'.toNat ≤ c.toNat ∧ c.toNat ≤ '9'.toNat then c.toNat - 48
    else if 'A'.toNat ≤ c.toNat ∧ c.toNat ≤ 'F'.toNat then c.toNat - 55
    else if 'a'.toNat ≤ c.toNat ∧ c.toNat ≤ 'f'.toNat then c.toNat - 87
    else base
  if v < base then some v else none

/-- The digits of a number, read from the left with `acc` the value so far. -/
def readDigits (base acc : Nat) : List Char → Option Nat
  | [] => some acc
  | c :: cs =>
    match digitValue base c with
    | none => none
    | some d => readDigits base (acc * base + d) cs

/-- A number is decimal or `0x` hexadecimal (R130). -/
def readNumber (cs : List Char) : Option Nat :=
  match cs with
  | [] => none
  | '0' :: 'x' :: d :: ds => readDigits 16 0 (d :: ds)
  | d :: ds => readDigits 10 0 (d :: ds)

/-- The ASCII code of a character (R130). DESIGN CHOICE (log entry 13): a character outside ASCII has none, and is an
assembly error wherever a literal holds it. -/
def asciiCode (c : Char) : Option Nat := if c.toNat < 128 then some c.toNat else none

/-- The names of the algorithms in a command line (R130). -/
def algText : Alg → String
  | .md5 => "MD5"
  | .sha1 => "SHA1"
  | .sha224 => "SHA224"
  | .sha256 => "SHA256"
  | .sha384 => "SHA384"
  | .sha512 => "SHA512"
  | .sha512_224 => "SHA512_224"
  | .sha512_256 => "SHA512_256"
  | .rmd128 => "RMD128"
  | .rmd160 => "RMD160"
  | .rmd256 => "RMD256"
  | .rmd320 => "RMD320"

/-- The twelve algorithms, in the order of their codes. -/
def allAlgs : List Alg :=
  [.md5, .sha1, .sha224, .sha256, .sha384, .sha512, .sha512_224, .sha512_256, .rmd128, .rmd160, .rmd256, .rmd320]

/-- A letter in upper case. -/
def upperChar (c : Char) : Char :=
  if 'a'.toNat ≤ c.toNat ∧ c.toNat ≤ 'z'.toNat then Char.ofNat (c.toNat - 32) else c

/-! Lines of source. -/

/-- A part of a source line: a character that stands for itself, a character literal or a string literal (R130). -/
inductive Piece where
  | plain (c : Char)
  | charLit (c : Char)
  | strLit (cs : List Char)
deriving DecidableEq, Repr

/-- The parts of a source line up to its comment, which runs from `;` to the end of the line (R130). `str` is what has been
read, reversed, of a string literal still open; one that is never closed is an error. DESIGN CHOICE (log entry 13): R130
gives no escapes, so a character literal is any one character between two apostrophes, `'''` among them, and a string
literal ends at the next double quote; an apostrophe that begins no such literal stands for itself. -/
def lexLine : Option (List Char) → List Char → Option (List Piece)
  | none, [] => some []
  | none, '\'' :: c :: '\'' :: cs => (lexLine none cs).map (.charLit c :: ·)
  | none, '"' :: cs => lexLine (some []) cs
  | none, c :: cs => if c = ';' then some [] else (lexLine none cs).map (.plain c :: ·)
  | some _, [] => none
  | some str, c :: cs => if c = '"' then (lexLine none cs).map (.strLit str.reverse :: ·) else lexLine (some (c :: str)) cs
termination_by structural _ cs => cs

/-- The text of parts that hold no literal. -/
def plainText (ps : List Piece) : Option (List Char) :=
  ps.mapM fun p =>
    match p with
    | .plain c => some c
    | .charLit _ | .strLit _ => none

/-- Blanks between words. -/
def isBlank (p : Piece) : Bool := p = .plain ' ' || p = .plain '\t'

/-- Parts without blanks at their ends. -/
def trim (ps : List Piece) : List Piece := ((ps.dropWhile isBlank).reverse.dropWhile isBlank).reverse

/-- The operands between commas, each trimmed; `cur` is the operand read so far, reversed. -/
def splitCommas (cur : List Piece) : List Piece → List (List Piece)
  | [] => [trim cur.reverse]
  | p :: ps => if p = .plain ',' then trim cur.reverse :: splitCommas [] ps else splitCommas (p :: cur) ps

/-- The operands after a mnemonic: none if there is no text. -/
def readOperands (ps : List Piece) : List (List Piece) := if (trim ps).isEmpty then [] else splitCommas [] ps

/-- A `<count>`, `<offset>` or `<length>` operand is a number (R130). -/
def readNat (ps : List Piece) : Option Nat := (plainText ps).bind readNumber

/-- A `<byte>` operand is a number or a character literal, which means its ASCII code (R130). -/
def readByte (ps : List Piece) : Option Nat :=
  match ps with
  | [.charLit c] => asciiCode c
  | _ => readNat ps

/-- An `<alg>` operand: a name, matched without regard to case, or a number (R130). -/
def readAlg (ps : List Piece) : Option Nat :=
  (plainText ps).bind fun cs =>
    match allAlgs.find? fun a => (algText a).toList = cs.map upperChar with
    | some a => some a.code.toNat
    | none => readNumber cs

/-- The bytes of a directive: a string literal in double quotes, or byte values separated by commas (R130). DESIGN CHOICE
(log entry 13): nothing at all is neither, and is an assembly error. -/
def readBytes (ps : List Piece) : Option (List Nat) :=
  match trim ps with
  | [] => none
  | [.strLit cs] => cs.mapM asciiCode
  | _ => (splitCommas [] ps).mapM readByte

/-- The directive `.iwin offset: bytes` (R130), without its name. -/
def readIwin (ps : List Piece) : Option Source :=
  match readNat (trim (ps.takeWhile (· ≠ .plain ':'))), ps.dropWhile (· ≠ .plain ':') with
  | some off, _ :: rest => (readBytes rest).map (.iwin off)
  | _, _ => none

/-- The operands of each mnemonic (R130, R131). -/
def readCommand (mnemonic : String) (ops : List (List Piece)) : Option Source :=
  match mnemonic, ops with
  | "INIT", [a] => (readAlg a).map .init
  | "UPDR", [b, n] => (readByte b).bind fun b => (readNat n).map (.updr b)
  | "SETSRC", [n] => (readNat n).map .setsrc
  | "UPDS", [n] => (readNat n).map .upds
  | "UPDZ", [] => some .updz
  | "DIGEST", [] => some .digest
  | "UPDB", [b] => (readByte b).map .updb
  | "UPDRL", [b, n] => (readByte b).bind fun b => (readNat n).map (.updrl b)
  | "HASHS", [a, o, n] => (readAlg a).bind fun a => (readNat o).bind fun o => (readNat n).map (.hashs a o)
  | "HASHZ", [a, o] => (readAlg a).bind fun a => (readNat o).map (.hashz a)
  | _, _ => none

/-- A line of source: no command if it is blank or a comment, `none` if it is not in the syntax of R130. -/
def readLine (line : String) : Option (List Source) :=
  (lexLine none line.toList).bind fun pieces =>
    let ps := trim pieces
    if ps.isEmpty then some []
    else
      (plainText (ps.takeWhile fun p => !isBlank p)).bind fun name =>
        let rest := ps.dropWhile fun p => !isBlank p
        if name = ".iwin".toList then (readIwin rest).map fun l => [l]
        else (readCommand (String.ofList name) (readOperands rest)).map fun l => [l]

/-- What the host does for a program, line by line (R130, 95_test_vectors.md section 3). -/
def assemble (p : Params) : List String → Option (List HostEvent)
  | [] => some []
  | line :: rest =>
    match readLine line with
    | none => none
    | some ls =>
      match ls.mapM (sourceEvents p), assemble p rest with
      | some evs, some more => some (evs.flatten ++ more)
      | _, _ => none

/-! The disassembler. -/

/-- The fixed text of a command line: the mnemonic, and for INIT its algorithm by name (R132). -/
def commandText : Instr → String
  | .initMd5 => "INIT MD5"
  | .initSha1 => "INIT SHA1"
  | .initSha224 => "INIT SHA224"
  | .initSha256 => "INIT SHA256"
  | .initSha384 => "INIT SHA384"
  | .initSha512 => "INIT SHA512"
  | .initSha512_224 => "INIT SHA512_224"
  | .initSha512_256 => "INIT SHA512_256"
  | .initRmd128 => "INIT RMD128"
  | .initRmd160 => "INIT RMD160"
  | .initRmd256 => "INIT RMD256"
  | .initRmd320 => "INIT RMD320"
  | .updr _ _ => "UPDR "
  | .setsrc _ => "SETSRC "
  | .upds _ => "UPDS "
  | .updz => "UPDZ"
  | .digest => "DIGEST"

/-- The operands of a command line that are numbers, in hexadecimal (R132). -/
def operandText : Instr → List Char
  | .updr byte count => hexText byte.toNat ++ ", ".toList ++ hexText count.toNat
  | .setsrc offset => hexText offset.toNat
  | .upds length => hexText length.toNat
  | .initMd5 | .initSha1 | .initSha224 | .initSha256 | .initSha384 | .initSha512
  | .initSha512_224 | .initSha512_256 | .initRmd128 | .initRmd160 | .initRmd256 | .initRmd320
  | .updz | .digest => []

/-- A command in the syntax of R130 (R132). -/
def printInstr (i : Instr) : List Char := (commandText i).toList ++ operandText i

/-- The disassembly of a word (R132): `.illegal` and sixteen hexadecimal digits for a word that matches no row. -/
def disassemble (w : Word64) : List Char :=
  match decode w with
  | .ok i => printInstr i
  | .error _ => ".illegal 0x".toList ++ hexDigits 16 w.toNat

end Sys2Proof.Machine
end

