-- ==== Sys2Proof/Machine/Platform.lean ====
section
/-! DEFINITION. A platform of several instances (00_scope.md R6, 20_memory.md R89 and R102, 60_exceptions.md R632): each
has its own registers and window, and they share nothing. -/

namespace Sys2Proof.Machine

/-- The instances of a platform; `NUM_INSTANCES` is how many there are (R6). -/
structure Platform where
  engines : List State
deriving DecidableEq, Repr

/-- The host address ranges of one instance: its register block and its window. -/
def addrRanges (p : Params) : List (Nat × Nat) :=
  [(p.regBase, p.regBase + regBlockBytes), (p.iwinBase, p.iwinBase + p.iwinSize)]

/-- Two address ranges, each a first address and the address after the last, have no address in common. -/
abbrev rangesApart (x y : Nat × Nat) : Prop := x.2 ≤ y.1 ∨ y.2 ≤ x.1

/-- The parameters a platform may have: at least one instance (R6), each well formed, and no range overlapping another
instance's (R89). -/
abbrev platformWellFormed (ps : List Params) : Prop :=
  1 ≤ ps.length ∧ (∀ p ∈ ps, p.WellFormed) ∧ (ps.flatMap addrRanges).Pairwise rangesApart

/-- The platform after power-on: every instance is UNCONFIGURED (R57, R632). -/
def Platform.reset (ps : List Params) : Platform := ⟨ps.map State.resetWith⟩

/-- Whether a host address belongs to the instance. -/
def ownsAddress (addr : Nat) (s : State) : Bool := addrTarget s.params addr != .nowhere

/-- The instance a host address belongs to, by its number; `none` for an address of no instance. -/
def Platform.owner (p : Platform) (addr : Nat) : Option Nat := p.engines.findIdx? (ownsAddress addr)

/-- The host's next access goes to the instance that owns the address, after the ones already waiting there (R95). An
address of no instance is a fault of the access. -/
def Platform.access (p : Platform) (addr : Nat) (e : HostEvent) : Host.Outcome Platform Fault Refusal :=
  match p.owner addr with
  | none => .fault .noSuchAddress
  | some k => .next ⟨p.engines.modify k fun s => { s with host := s.host ++ [e] }⟩

/-- One step of instance `k`; the order in which instances step is the caller's (R632). -/
def Platform.step (p : Platform) (k : Nat) : Host.Outcome Platform Fault Refusal :=
  match p.engines[k]? with
  | none => .fault .noSuchInstance
  | some s =>
    match Machine.step s with
    | .next t => .next ⟨p.engines.set k t⟩
    | .fault f => .fault f
    | .refused r => .refused r

end Sys2Proof.Machine
end

