-- ==== Sys2Proof/Safety.lean ====
section
/-! DEFINITION. What the claims about the machine say, in the spec's own terms: the engine's three states (10_state.md R57),
the invariants of every run (R31 to R36, R38, R39, R45 to R49), the hash of a message in closed form (42_finalizer.md R296),
and sequences of commands. -/

namespace Sys2Proof.Machine

/-- The three states of R57. -/
inductive EngineMode where
  | unconfigured
  | opened
  | failed
deriving DecidableEq, Repr

/-- The engine's state by R57. -/
def State.mode (s : State) : EngineMode :=
  if s.err then .failed else if s.ready then .opened else .unconfigured

/-! The hash of a message. -/

/-- `msg[jB..(j+1)B)`: block `j` of a message (R36, R296). -/
def blockAt (a : Alg) (msg : List Byte) (j : Nat) : List Byte := byteSlice msg (j * a.blockBytes) a.blockBytes

/-- `Hk` of R36 and R296: the chaining value after the first `k` blocks of a message. -/
def chain (a : Alg) (msg : List Byte) : Nat → Slots
  | 0 => ivSlots a
  | k + 1 => compress a (chain a msg k) (blockAt a msg k)

/-- The digest of a message in closed form (R296). -/
def hash (a : Alg) (msg : List Byte) : List Byte :=
  let m := msg ++ padding a msg.length
  (serialize a (chain a m (m.length / a.blockBytes))).take a.digestBytes

/-- The accumulator invariant of R36 for a message `msg`. -/
structure Accumulates (a : Alg) (msg : List Byte) (c : Acc) : Prop where
  count_eq : c.count.toNat = msg.length
  staged_eq : c.buf.toList.take (msg.length % a.blockBytes) = msg.drop (msg.length / a.blockBytes * a.blockBytes)
  chained : c.h = chain a msg (msg.length / a.blockBytes)

/-! The invariants of a run. -/

/-- How the state store holds the words of an algorithm (R35): nothing in the slots it does not use, and nothing in the
upper half of a slot at `W = 32`. -/
def SlotsFit (a : Alg) (h : Slots) : Prop :=
  ∀ i : Fin 10, (a.stateWords ≤ i.val → h[i] = 0) ∧ (a.wordBits = 32 → h[i].toNat < 2 ^ 32)

/-- The registers of an instance as every run keeps them. -/
structure State.Inv (s : State) : Prop where
  /-- The platform's parameters are ones R6 and R89 allow. -/
  params_ok : s.params.WellFormed
  /-- `READY = 1` exactly when an algorithm is selected (R31, R32). -/
  ready_iff : s.ready = s.alg.isSome
  /-- `ECODE` is 0 exactly when `ERR` is 0 (R45). -/
  err_iff : s.err = true ↔ s.ecode ≠ .none
  /-- `COUNT` never exceeds the limit of the algorithm (R33). -/
  count_le : ∀ a, s.alg = some a → s.count.toNat ≤ a.limit
  /-- Before the first INIT, nothing is absorbed and the state store is zero (R55). -/
  fresh : s.alg = none → s.count = 0 ∧ s.h = Vector.replicate 10 0 ∧ s.dlen = 0
  /-- The state store is laid out as R35 says. -/
  slots_fit : ∀ a, s.alg = some a → SlotsFit a s.h
  /-- `DLEN` is 0 or the digest length of the algorithm (R49). -/
  dlen_legal : ∀ a, s.alg = some a → s.dlen.toNat = 0 ∨ s.dlen.toNat = a.digestBytes
  /-- `DOUT` is zero from `DLEN` on (R38). -/
  dout_tail : ∀ j : Fin 64, s.dlen.toNat ≤ j.val → s.dout[j] = 0
  /-- The window's content is in canonical form. -/
  iwin_wf : s.iwin.wf
  /-- Only bytes of the window hold a value (R81). -/
  iwin_bound : ∀ c ∈ s.iwin, c.1 < s.params.iwinSize
  /-- Only bytes of the window are being written (R81, R97). -/
  racing_bound : ∀ w ∈ s.racing, w.offset < s.params.iwinSize

/-- `DOUT` and `DLEN` hold zeros, or the digest of a prefix `pre` of the message (R38, R704, R711). -/
def DigestOf (a : Alg) (msg : List Byte) (s : State) : Prop :=
  (s.dlen = 0 ∧ s.dout = Vector.replicate 64 0) ∨
    ∃ pre, pre <+: msg ∧ s.dlen.toNat = a.digestBytes ∧ s.dout = digestOut a (hash a pre)

/-- The stream of an instance is that of some message no longer than the limit (R36). -/
def State.StreamInv (s : State) : Prop :=
  ∀ a, s.alg = some a → ∃ msg : List Byte, msg.length ≤ a.limit ∧ Accumulates a msg s.acc ∧ DigestOf a msg s

/-! Sequences of commands. -/

/-- Commands one after the other, stopping at a fault. -/
def execAll : List Instr → State → Result
  | [], s => .next s
  | i :: rest, s =>
    match exec i s with
    | .next t => execAll rest t
    | .fault f => .fault f
    | .refused r => .refused r

/-- UPDR, UPDS and UPDZ. -/
def isUpdate : Instr → Bool
  | .updr _ _ => true
  | .upds _ => true
  | .updz => true
  | .initMd5 | .initSha1 | .initSha224 | .initSha256 | .initSha384 | .initSha512
  | .initSha512_224 | .initSha512_256 | .initRmd128 | .initRmd160 | .initRmd256 | .initRmd320
  | .setsrc _ | .digest => false

/-- The bytes an update absorbs where it completes (R260, R264, R266); nothing for the other commands. -/
def updateBytes (i : Instr) (s : State) : List Byte :=
  match i with
  | .updr byte count => List.replicate count.toNat byte
  | .upds length => (s.spanBytes s.src.toNat length.toNat).getD []
  | .updz =>
    match s.findZero s.src.toNat (s.params.iwinSize - s.src.toNat) with
    | .found z => (s.spanBytes s.src.toNat (z - s.src.toNat)).getD []
    | .noZero | .unwritten => []
  | .initMd5 | .initSha1 | .initSha224 | .initSha256 | .initSha384 | .initSha512
  | .initSha512_224 | .initSha512_256 | .initRmd128 | .initRmd160 | .initRmd256 | .initRmd320
  | .setsrc _ | .digest => []

/-- The bytes a sequence of updates absorbs, in order. -/
def absorbedBy : List Instr → State → List Byte
  | [], _ => []
  | i :: rest, s =>
    updateBytes i s ++
      match exec i s with
      | .next t => absorbedBy rest t
      | .fault _ | .refused _ => []

end Sys2Proof.Machine
end

