-- ==== Sys2Proof/Certificates/Slice0/Obligations.lean ====
section
/-! DEFINITION. The statements for the provers. Each docstring names the rule of spec/ it formalises. -/

open Sys2Proof Sys2Proof.Machine

/-! ## Encoding -/

/-- 30_encoding.md R133: the words given there encode the commands given there and decode to them, and the three words it
refuses are refused with the codes it names. -/
def Obligations.ExampleWordsDecode : Prop :=
  (encode .initMd5 = 0x1100000000000000 ∧ decode 0x1100000000000000 = .ok .initMd5) ∧
  (encode .initRmd320 = 0x1C00000000000000 ∧ decode 0x1C00000000000000 = .ok .initRmd320) ∧
  (encode (.updr 0x61 1000000) = 0x20610000000F4240 ∧ decode 0x20610000000F4240 = .ok (.updr 0x61 1000000)) ∧
  (encode (.setsrc 0x100) = 0x3000000000000100 ∧ decode 0x3000000000000100 = .ok (.setsrc 0x100)) ∧
  (encode (.upds 3) = 0x4000000000000003 ∧ decode 0x4000000000000003 = .ok (.upds 3)) ∧
  (encode .updz = 0x5000000000000000 ∧ decode 0x5000000000000000 = .ok .updz) ∧
  (encode .digest = 0x6000000000000000 ∧ decode 0x6000000000000000 = .ok .digest) ∧
  decode 0x1D00000000000000 = .error .illegalAlg ∧
  decode 0x6000000000000001 = .error .reservedNonzero ∧
  decode 0x0000000000000000 = .error .illegalOp

/-- R120 to R125: decoding the word of any instruction gives the instruction back, with every operand at every value. -/
def Obligations.DecodeOfEncodeIsTheInstruction : Prop := ∀ i : Instr, decode (encode i) = .ok i

/-- R120, R125: a word that decodes has one instruction, and that instruction's word is it: no bit is dropped. -/
def Obligations.EncodeOfDecodeIsTheWord : Prop := ∀ (w : Word64) (i : Instr), decode w = .ok i → encode i = w

/-- R125: the words that decode are exactly the words that match a row of spec/opcode_table.json, by its mask and match. -/
def Obligations.DecodableWordsMatchARow : Prop :=
  ∀ w : Word64, (∃ i, decode w = .ok i) ↔ ∃ r ∈ opcodeRows, r.matches w = true

/-- R127, with the precedence of R605 among the decode errors: which words are refused with which code, and that a refused
word changes only `ERR` and `ECODE`. -/
def Obligations.IllegalWordsAreRefusedByCode : Prop :=
  (∀ w : Word64, decode w = .error .illegalOp ↔ (cmdOp w).toNat = 0 ∨ 7 ≤ (cmdOp w).toNat) ∧
  (∀ w : Word64, decode w = .error .reservedNonzero ↔
    (1 ≤ (cmdOp w).toNat ∧ (cmdOp w).toNat ≤ 6) ∧
      (((cmdOp w).toNat ≠ 1 ∧ cmdAlg w ≠ 0) ∨ ((cmdOp w).toNat ≠ 2 ∧ cmdByte w ≠ 0) ∨
        (((cmdOp w).toNat = 1 ∨ (cmdOp w).toNat = 5 ∨ (cmdOp w).toNat = 6) ∧ cmdN w ≠ 0))) ∧
  (∀ w : Word64, decode w = .error .illegalAlg ↔
    (cmdOp w).toNat = 1 ∧ cmdByte w = 0 ∧ cmdN w = 0 ∧ ((cmdAlg w).toNat = 0 ∨ 13 ≤ (cmdAlg w).toNat)) ∧
  (∀ (w : Word64) (code : ECode) (s : State), s.err = false → decode w = .error code →
    issue w s = .next { s with err := true, ecode := code })

/-! ## Steps -/

/-- R52, R95, R126: when the host's next action stores a decodable word to CMD and it is not discarded, the step is that
command's execution, with the store taken off the host's list and a second agent's overlapping writes in the window once
it has completed (log entries 4 and 6). -/
def Obligations.StepRunsTheDecodedCommand : Prop :=
  ∀ (s : State) (w : Word64) (rest : List HostEvent) (i : Instr),
    s.host = cmdWrite s.params w :: rest → decode w = .ok i → (s.err = false ∨ validInit w = true) →
    step s =
      match exec i { s with host := rest, reply := none } with
      | .next t => .next t.land
      | .fault f => .fault f
      | .refused r => .refused r

/-- R602, R126: a word that does not decode is refused: the step records its code and changes nothing else of the instance;
a second agent's overlapping writes are then in the window (log entry 6). -/
def Obligations.StepRefusesAnUndecodableWord : Prop :=
  ∀ (s : State) (w : Word64) (rest : List HostEvent) (code : ECode),
    s.host = cmdWrite s.params w :: rest → s.err = false → decode w = .error code →
    step s = .next ({ s with host := rest, reply := none, err := true, ecode := code } : State).land

/-- R604: while `ERR = 1` a word that is not a valid INIT is discarded and changes nothing of the instance, SETSRC among them;
a valid INIT is accepted, clears the error and starts a new stream; nothing else clears it but reset; register reads work
as before. That a second agent's overlapping writes reach the window with a discarded word or a load (`land`) is the model's
choice (log entry 6) and no part of R604. -/
def Obligations.StickyErrorDiscardsAllButInit : Prop :=
  (∀ (s : State) (w : Word64) (rest : List HostEvent),
    s.host = cmdWrite s.params w :: rest → s.err = true → validInit w = false →
    step s = .next ({ s with host := rest, reply := none } : State).land) ∧
  (∀ off : BitVec 48, validInit (encode (.setsrc off)) = false) ∧
  (∀ w : Word64, validInit w = true ↔ ∃ a, decode w = .ok (Instr.init a)) ∧
  (∀ (s : State) (a : Alg) (rest : List HostEvent),
    s.host = cmdWrite s.params (encode (Instr.init a)) :: rest → s.err = true →
    ∃ t, step s = .next t ∧ t.err = false ∧ t.ecode = .none ∧ t.alg = some a ∧ t.ready = true ∧ t.acc = accInit a) ∧
  (∀ s t : State, s.err = true → step s = .next t → t.err = false →
    (∃ w rest, s.host = cmdWrite s.params w :: rest ∧ validInit w = true) ∨
    ∃ rest, s.host = .reset :: rest ∨ s.host = .powerOn :: rest ∨ ∃ cmd, s.host = .resetDuring cmd :: rest) ∧
  (∀ (s : State) (off : Nat) (rest : List HostEvent),
    s.host = .read (s.params.regBase + off) 8 :: rest → off < 256 → off % 8 = 0 → s.err = true →
    step s = .next ({ s with host := rest, reply := some (s.readReg off) } : State).land)

/-! ## Reset -/

/-- R55: the value reset gives every register. The window is not changed by reset, and no byte of it has a known value after
power-on. -/
def Obligations.ResetSetsEveryRegister : Prop :=
  ∀ s : State,
    s.resetRegs.alg = none ∧ s.resetRegs.ready = false ∧ s.resetRegs.err = false ∧ s.resetRegs.ecode = .none ∧
    s.resetRegs.count = 0 ∧ (∀ i : Fin 128, s.resetRegs.buf[i] = 0) ∧ (∀ i : Fin 10, s.resetRegs.h[i] = 0) ∧
    s.resetRegs.src = 0 ∧ (∀ i : Fin 64, s.resetRegs.dout[i] = 0) ∧ s.resetRegs.dlen = 0 ∧
    s.resetRegs.iwin = s.iwin ∧ (∀ off, s.powerOn.iwin.read off = none) ∧ State.reset.resetRegs = State.reset

/-- R634, R700, R701: reset, between commands or while one is executing, and power-on leave state UNCONFIGURED with every
register at its reset value. No part of an abandoned command is visible, and its CMD write is done. Reset keeps the window,
but for a second agent's overlapping writes (log entry 6); after power-on no byte of it has a known value (log entry 10). -/
def Obligations.ResetEventLeavesUnconfigured : Prop :=
  (∀ (s : State) (e : HostEvent) (rest : List HostEvent),
    s.host = e :: rest → (e = .reset ∨ ∃ cmd, e = .resetDuring cmd) →
    ∃ t, step s = .next t ∧ t.mode = .unconfigured ∧
      t = { State.resetWith s.params with iwin := s.land.iwin, host := rest } ∧ (s.racing = [] → s.land.iwin = s.iwin)) ∧
  ∀ (s : State) (rest : List HostEvent), s.host = .powerOn :: rest →
    ∃ t, step s = .next t ∧ t.mode = .unconfigured ∧ t = { State.resetWith s.params with host := rest } ∧
      ∀ off, t.iwin.read off = none

/-- R82, R86, R100: no step changes a byte of the window but a host store to it, a second agent's overlapping write to it,
or power-on. In particular no command and no reset does. -/
def Obligations.OnlyHostWritesChangeTheWindow : Prop :=
  ∀ (s t : State) (off : Nat), step s = .next t → t.iwin.read off ≠ s.iwin.read off →
    (∃ w ∈ s.racing, w.offset = off) ∨
    (∃ rest, s.host = .powerOn :: rest) ∨
    (∃ width v start rest, s.host = .write (s.params.iwinBase + start) width v :: rest ∧ start ≤ off ∧ off < start + width)

/-! ## INIT -/

/-- 41_accumulator.md R250: every INIT completes in every state and starts a new stream: what it leaves in each register,
and that it changes nothing else. -/
def Obligations.InitStartsANewStream : Prop :=
  ∀ (a : Alg) (s : State),
    ∃ t, exec (Instr.init a) s = .next t ∧
      t.alg = some a ∧ t.ready = true ∧ t.err = false ∧ t.ecode = .none ∧ t.count = 0 ∧
      (∀ i : Fin 128, t.buf[i] = 0) ∧
      (∀ i : Fin 10, t.h[i] = if i.val < a.stateWords then (iv a).getD i.val 0 else 0) ∧ (iv a).length = a.stateWords ∧
      (∀ i : Fin 64, t.dout[i] = 0) ∧ t.dlen = 0 ∧
      t.src = s.src ∧ t.params = s.params ∧ t.host = s.host ∧ t.racing = s.racing ∧ t.reply = s.reply ∧
      ∀ off, t.iwin.read off = s.iwin.read off

/-- 70_reset_and_hazards.md R702: the registers after INIT depend on nothing before it but `SRC`; and how INIT differs from
reset. -/
def Obligations.InitForgetsTheHistory : Prop :=
  (∀ (a : Alg) (s s' : State), s.src = s'.src →
    ∃ t t', exec (Instr.init a) s = .next t ∧ exec (Instr.init a) s' = .next t' ∧
      t' = { t with params := s'.params, iwin := s'.iwin, racing := s'.racing, host := s'.host, reply := s'.reply }) ∧
  (∀ (a : Alg) (s : State),
    exec (Instr.init a) s =
      .next { s.resetRegs with alg := some a, ready := true, h := ivSlots a, src := s.src, reply := s.reply })

/-- 45_sha2.md R426: the SHA-512/224 and SHA-512/256 initial values are the untruncated state that the SHA-512 compression
and padding give for the algorithm's name, from the SHA-512 initial value with every word XORed with
0xA5A5A5A5A5A5A5A5; INIT loads the constants. -/
def Obligations.Sha512TruncatedInitialValues : Prop :=
  (∀ (a : Alg) (name : List Byte),
    (a = .sha512_224 ∧ name = [0x53, 0x48, 0x41, 0x2D, 0x35, 0x31, 0x32, 0x2F, 0x32, 0x32, 0x34]) ∨
    (a = .sha512_256 ∧ name = [0x53, 0x48, 0x41, 0x2D, 0x35, 0x31, 0x32, 0x2F, 0x32, 0x35, 0x36]) →
    (padded .sha512
      (absorbSeq .sha512
        { accInit .sha512 with h := Vector.ofFn fun i => if i.val < 8 then (ivSlots .sha512)[i] ^^^ 0xA5A5A5A5A5A5A5A5 else 0 }
        name)).h = ivSlots a) ∧
  (∀ s : State, ∃ t, exec .initSha512_224 s = .next t ∧ t.h = ivSlots .sha512_224) ∧
  (∀ s : State, ∃ t, exec .initSha512_256 s = .next t ∧ t.h = ivSlots .sha512_256)

/-! ## The updates and SETSRC -/

/-- R260: UPDR with a stream open and room in the counter completes: it absorbs the byte `count` times and changes nothing
but `COUNT`, `BUF` and `H`. -/
def Obligations.UpdrAbsorbsTheRepeatedByte : Prop :=
  ∀ (s : State) (a : Alg) (byte : Byte) (count : BitVec 48),
    s.ready = true → s.alg = some a → s.count.toNat + count.toNat ≤ a.limit →
    ∃ c, c = absorbSeq a s.acc (List.replicate count.toNat byte) ∧
      exec (.updr byte count) s = .next { s with count := c.count, buf := c.buf, h := c.h }

/-- R244: `UPDR b, n` leaves the state that `n` commands `UPDR b, 1` leave, and the same stream as UPDS over `n` window
bytes that are all `b` (log entry 8 says why the count must be within the limit). -/
def Obligations.UpdrEqualsSingleBytes : Prop :=
  (∀ (s : State) (a : Alg) (byte : Byte) (count : BitVec 48),
    s.ready = true → s.alg = some a → s.count.toNat + count.toNat ≤ a.limit →
    execAll (List.replicate count.toNat (.updr byte 1)) s = exec (.updr byte count) s) ∧
  (∀ (s : State) (a : Alg) (byte : Byte) (count : BitVec 48),
    s.ready = true → s.alg = some a → s.count.toNat + count.toNat ≤ a.limit →
    s.src.toNat + count.toNat ≤ s.params.iwinSize →
    (∀ k < count.toNat, s.memRead .absorb (s.src.toNat + k) = some byte) →
    ∃ t u, exec (.updr byte count) s = .next t ∧ exec (.upds count) s = .next u ∧ u.acc = t.acc)

/-- R243: however a message is cut into UPDR, UPDS and UPDZ commands, the stream after commands that complete without an
error is that of absorbing all their bytes in one sequence; so two ways of giving the same bytes end in the same
`COUNT`, `BUF` and `H`, and DIGEST then writes the same bytes. -/
def Obligations.UpdatesAreChunkIndependent : Prop :=
  (∀ (cmds : List Instr) (s t : State) (a : Alg),
    (∀ i ∈ cmds, isUpdate i = true) → s.ready = true → s.alg = some a → s.err = false →
    execAll cmds s = .next t → t.err = false →
    t.acc = absorbSeq a s.acc (absorbedBy cmds s)) ∧
  (∀ (cmds cmds' : List Instr) (s s' t t' u u' : State) (a : Alg),
    (∀ i ∈ cmds ++ cmds', isUpdate i = true) → s.ready = true → s'.ready = true → s.alg = some a → s'.alg = some a →
    s.err = false → s'.err = false → s.acc = s'.acc →
    execAll cmds s = .next t → execAll cmds' s' = .next t' → t.err = false → t'.err = false →
    absorbedBy cmds s = absorbedBy cmds' s' → exec .digest t = .next u → exec .digest t' = .next u' →
    t.acc = t'.acc ∧ u.dout = u'.dout ∧ u.dlen = u'.dlen)

/-- R262: SETSRC completes in every state, loads the offset, checks nothing and changes nothing else. -/
def Obligations.SetsrcLoadsTheOffset : Prop :=
  ∀ (s : State) (off : BitVec 48), exec (.setsrc off) s = .next { s with src := off }

/-- R264: UPDS over a span inside the window whose bytes are `bytes`, with a stream open and room in the counter, completes:
it absorbs them, advances `SRC` past them (to 0 if that is 2^48) and changes nothing else. -/
def Obligations.UpdsAbsorbsTheSpan : Prop :=
  ∀ (s : State) (a : Alg) (length : BitVec 48) (bytes : List Byte),
    s.ready = true → s.alg = some a → s.src.toNat + length.toNat ≤ s.params.iwinSize →
    s.count.toNat + length.toNat ≤ a.limit → bytes.length = length.toNat →
    (∀ k (h : k < bytes.length), s.memRead .absorb (s.src.toNat + k) = some bytes[k]) →
    ∃ c, c = absorbSeq a s.acc bytes ∧
      exec (.upds length) s =
        .next { s with count := c.count, buf := c.buf, h := c.h, src := BitVec.ofNat 48 (s.src.toNat + length.toNat) }

/-- R266: UPDZ where the first zero byte at or after `SRC` is at `z`, with a stream open and room in the counter, completes:
it absorbs the bytes before it, sets `SRC` just past it and changes nothing else. -/
def Obligations.UpdzAbsorbsTheString : Prop :=
  ∀ (s : State) (a : Alg) (bytes : List Byte),
    s.ready = true → s.alg = some a → s.src.toNat + bytes.length < s.params.iwinSize →
    s.count.toNat + bytes.length ≤ a.limit →
    (∀ k < bytes.length, ∃ b, s.memRead .scan (s.src.toNat + k) = some b ∧ b ≠ 0) →
    s.memRead .scan (s.src.toNat + bytes.length) = some 0 →
    (∀ k (h : k < bytes.length), s.memRead .absorb (s.src.toNat + k) = some bytes[k]) →
    ∃ c, c = absorbSeq a s.acc bytes ∧
      exec .updz s =
        .next { s with
          count := c.count, buf := c.buf, h := c.h, src := BitVec.ofNat 48 (s.src.toNat + bytes.length + 1) }

/-- R266, R600: UPDZ with no zero byte in the window at or after `SRC` is refused with SRC_RANGE; this includes
`SRC >= IWIN_SIZE`. -/
def Obligations.UpdzWithoutTerminatorIsRefused : Prop :=
  ∀ s : State, s.ready = true → s.alg ≠ none → s.err = false →
    (∀ z, s.src.toNat ≤ z → z < s.params.iwinSize → ∃ b, s.memRead .scan z = some b ∧ b ≠ 0) →
    exec .updz s = .next { s with err := true, ecode := .srcRange }

/-- R82, R607: a command that would read a window byte no host write has set is a fault of the run, and not an engine
error: UPDS over a span that passes its checks, and UPDZ when such a byte stands before the first zero byte. -/
def Obligations.UnwrittenBytesStopTheRun : Prop :=
  (∀ (s : State) (a : Alg) (length : BitVec 48) (k : Nat),
    s.ready = true → s.alg = some a → s.src.toNat + length.toNat ≤ s.params.iwinSize →
    s.count.toNat + length.toNat ≤ a.limit → k < length.toNat → s.memRead .absorb (s.src.toNat + k) = none →
    exec (.upds length) s = .fault .unwrittenByte) ∧
  (∀ (s : State) (k : Nat),
    s.ready = true → s.alg ≠ none → s.src.toNat + k < s.params.iwinSize →
    (∀ j < k, ∃ b, s.memRead .scan (s.src.toNat + j) = some b ∧ b ≠ 0) → s.memRead .scan (s.src.toNat + k) = none →
    exec .updz s = .fault .unwrittenByte)

/-! ## Errors -/

/-- R601, R605: the order of the checks that depend on the state: NOT_INIT, then SRC_RANGE, then COUNT_OVERFLOW, each
recorded with its code and nothing else changed. -/
def Obligations.StateChecksInPriorityOrder : Prop :=
  (∀ (s : State) (i : Instr), s.ready = false → s.err = false → (isUpdate i = true ∨ i = .digest) →
    exec i s = .next { s with err := true, ecode := .notInit }) ∧
  (∀ (s : State) (a : Alg) (length : BitVec 48), s.ready = true → s.alg = some a → s.err = false →
    s.params.iwinSize < s.src.toNat + length.toNat →
    exec (.upds length) s = .next { s with err := true, ecode := .srcRange }) ∧
  (∀ (s : State) (a : Alg) (length : BitVec 48), s.ready = true → s.alg = some a → s.err = false →
    s.src.toNat + length.toNat ≤ s.params.iwinSize → a.limit < s.count.toNat + length.toNat →
    exec (.upds length) s = .next { s with err := true, ecode := .countOverflow }) ∧
  (∀ (s : State) (a : Alg) (byte : Byte) (count : BitVec 48), s.ready = true → s.alg = some a → s.err = false →
    a.limit < s.count.toNat + count.toNat →
    exec (.updr byte count) s = .next { s with err := true, ecode := .countOverflow }) ∧
  (∀ (s : State) (a : Alg) (k : Nat), s.ready = true → s.alg = some a → s.err = false →
    s.src.toNat + k < s.params.iwinSize →
    (∀ j < k, ∃ b, s.memRead .scan (s.src.toNat + j) = some b ∧ b ≠ 0) → s.memRead .scan (s.src.toNat + k) = some 0 →
    a.limit < s.count.toNat + k →
    exec .updz s = .next { s with err := true, ecode := .countOverflow })

/-- R602: a command word that is refused, by its decoding or by its execution, changes only `ERR` and `ECODE`; the code it
records is an error's; and an error raised while `ERR = 1` would change nothing. -/
def Obligations.RefusalChangesOnlyTheErrorRecord : Prop :=
  (∀ (i : Instr) (s t : State), s.err = false → exec i s = .next t → t.err = true →
    t = { s with err := true, ecode := t.ecode } ∧ t.ecode ≠ .none) ∧
  (∀ (w : Word64) (s t : State), s.err = false → issue w s = .next t → t.err = true →
    t = { s with err := true, ecode := t.ecode } ∧ t.ecode ≠ .none) ∧
  (∀ (s : State) (code : ECode), s.raise code = if s.err then s else { s with err := true, ecode := code })

/-- R56: the registers each command may write; no register outside its row changes, nor does a byte of the window. `H`
changes only where a block completes, a refused command writes only `ERR` and `ECODE`, and a discarded one nothing. -/
def Obligations.CommandsWriteOnlyTheirRegisters : Prop :=
  (∀ (i : Instr) (s t : State), exec i s = .next t →
    (∀ off, t.iwin.read off = s.iwin.read off) ∧
    t.params = s.params ∧ t.racing = s.racing ∧ t.host = s.host ∧ t.reply = s.reply) ∧
  (∀ (a : Alg) (s t : State), exec (Instr.init a) s = .next t → t.src = s.src) ∧
  (∀ (byte : Byte) (count : BitVec 48) (s t : State), exec (.updr byte count) s = .next t → t.src = s.src) ∧
  (∀ (i : Instr) (s t : State), isUpdate i = true → exec i s = .next t →
    t.alg = s.alg ∧ t.ready = s.ready ∧ t.dout = s.dout ∧ t.dlen = s.dlen ∧
    (t.err = s.err → t.ecode = s.ecode) ∧
    (∀ a, s.alg = some a → compressions a s.acc (updateBytes i s) = 0 → t.h = s.h)) ∧
  (∀ (off : BitVec 48) (s t : State), exec (.setsrc off) s = .next t → t = { s with src := t.src }) ∧
  (∀ (s t : State), exec .digest s = .next t →
    t = { s with dout := t.dout, dlen := t.dlen } ∨ (t = s.raise .notInit ∧ s.ready = false)) ∧
  (∀ (i : Instr) (s t : State), s.err = false → exec i s = .next t → t.err = true →
    t = { s with err := true, ecode := t.ecode }) ∧
  (∀ (w : Word64) (s : State), s.err = true → validInit w = false → issue w s = .next s)

/-- R606, R245: in every state a run reaches, no command is refused by the model and none faults, but for UPDS and UPDZ
reading a byte no host write has set. -/
def Obligations.CommandsNeverFailOnData : Prop :=
  ∀ (i : Instr) (s : State), s.Inv →
    (∃ t, exec i s = .next t) ∨
      (exec i s = .fault .unwrittenByte ∧ (i = .updz ∨ ∃ n, i = .upds n) ∧
        ∃ off p, off < s.params.iwinSize ∧ s.src.toNat ≤ off ∧ s.memRead p off = none)

/-- R57: what the three states are; reset enters UNCONFIGURED, a successful INIT enters OPEN from any state, a refused command enters FAILED, and only
a valid INIT, or reset, leaves FAILED. -/
def Obligations.OnlyInitOrResetLeavesFailed : Prop :=
  (∀ s : State, (s.mode = .unconfigured ↔ s.ready = false ∧ s.err = false) ∧
    (s.mode = .opened ↔ s.ready = true ∧ s.err = false) ∧ (s.mode = .failed ↔ s.err = true)) ∧
  (∀ s : State, s.resetRegs.mode = .unconfigured) ∧
  (∀ (a : Alg) (s : State), ∃ t, exec (Instr.init a) s = .next t ∧ t.mode = .opened) ∧
  (∀ (s : State) (code : ECode), (s.raise code).mode = .failed) ∧
  (∀ s t : State, s.mode = .failed → step s = .next t → t.mode ≠ .failed →
    (∃ w rest, s.host = cmdWrite s.params w :: rest ∧ validInit w = true ∧ t.mode = .opened) ∨
    (∃ rest, (s.host = .reset :: rest ∨ s.host = .powerOn :: rest ∨ ∃ cmd, s.host = .resetDuring cmd :: rest) ∧
      t.mode = .unconfigured))

/-! ## Absorption, padding and DIGEST -/

/-- R241: a sequence is absorbed byte by byte in order; absorbing `n` bytes from `COUNT = c` performs `floor((c + n) / B) - floor(c / B)` compressions and leaves
`(c + n) mod B` bytes staged. -/
def Obligations.AbsorptionCountsItsCompressions : Prop :=
  (∀ (a : Alg) (c : Acc), absorbSeq a c [] = c ∧
    ∀ (b : Byte) (bytes : List Byte), absorbSeq a c (b :: bytes) = absorbSeq a (absorb a c b) bytes) ∧
  ∀ (a : Alg) (c : Acc) (bytes : List Byte), c.count.toNat + bytes.length < 2 ^ 128 →
    compressions a c bytes = (c.count.toNat + bytes.length) / a.blockBytes - c.count.toNat / a.blockBytes ∧
    (absorbSeq a c bytes).count.toNat % a.blockBytes = (c.count.toNat + bytes.length) % a.blockBytes

/-- R36: after INIT and any commands but INIT, none of them refused, the accumulator is that of the message they absorbed:
its length in `COUNT`, its last bytes staged in `BUF`, and the chaining value of its completed blocks in `H`; and a refused
command leaves the accumulator as it was. -/
def Obligations.TheMessageSinceInitIsAccumulated : Prop :=
  (∀ (a : Alg) (cmds : List Instr) (s t : State), (∀ i ∈ cmds, i.initAlg = none) →
    execAll (Instr.init a :: cmds) s = .next t → t.err = false →
    t.alg = some a ∧ t.ready = true ∧ ∃ msg, msg = absorbedBy cmds (s.initStream a) ∧
      t.count.toNat = msg.length ∧
      t.buf.toList.take (t.count.toNat % a.blockBytes) = msg.drop (t.count.toNat / a.blockBytes * a.blockBytes) ∧
      t.h = chain a msg (t.count.toNat / a.blockBytes)) ∧
  ∀ (i : Instr) (s t : State), s.err = false → exec i s = .next t → t.err = true → t.acc = s.acc ∧ t.alg = s.alg

/-- R292: the finalizer absorbs `pad(c)`, which is 0x80, `(B - L - 1 - (c mod B)) mod B` zeros and the length field; its length
lies between `L + 1` and `B + L` and completes a block; it performs one compression when `c mod B <= B - L - 1` and two
otherwise; and the byte 0x80 completes a block when `c mod B = B - 1`. -/
def Obligations.PaddingHasItsClosedForm : Prop :=
  ∀ (a : Alg) (c : Acc), c.count.toNat ≤ a.limit →
    padded a c = absorbSeq a c (padding a c.count.toNat) ∧
    (∃ z : Nat, (z : Int) = ((a.blockBytes : Int) - a.lengthBytes - 1 - (c.count.toNat % a.blockBytes : Nat)) % a.blockBytes ∧
      padding a c.count.toNat =
        0x80 :: (List.replicate z 0 ++ store a.order (BitVec.ofNat (8 * a.lengthBytes) (8 * c.count.toNat)))) ∧
    a.lengthBytes + 1 ≤ (padding a c.count.toNat).length ∧
    (padding a c.count.toNat).length ≤ a.blockBytes + a.lengthBytes ∧
    (c.count.toNat + (padding a c.count.toNat).length) % a.blockBytes = 0 ∧
    compressions a c (padding a c.count.toNat) =
      (if c.count.toNat % a.blockBytes ≤ a.blockBytes - a.lengthBytes - 1 then 1 else 2) ∧
    (completesBlock a c.count = true ↔ c.count.toNat % a.blockBytes = a.blockBytes - 1)

/-- R296: the digest of a stream whose message is `msg` is the Merkle–Damgård hash of `msg` in closed form, and DIGEST
writes its bytes to `DOUT`. -/
def Obligations.DigestIsTheHashOfTheMessage : Prop :=
  (∀ (a : Alg) (msg m : List Byte) (c : Acc), msg.length ≤ a.limit → Accumulates a msg c →
    m = msg ++ padding a msg.length →
    finalize a c = (serialize a (chain a m (m.length / a.blockBytes))).take a.digestBytes) ∧
  ∀ (s : State) (a : Alg) (msg : List Byte), s.ready = true → s.alg = some a → msg.length ≤ a.limit →
    Accumulates a msg s.acc →
    ∃ t, exec .digest s = .next t ∧ ∀ j : Fin 64, j.val < a.digestBytes → t.dout[j] = (hash a msg).getD j.val 0

/-- R290: DIGEST with a stream open completes: it writes the digest to `DOUT`, zeros after it, its length to `DLEN`, and
changes nothing else. -/
def Obligations.DigestWritesTheDigest : Prop :=
  ∀ (s : State) (a : Alg), s.ready = true → s.alg = some a →
    ∃ d n, exec .digest s = .next { s with dout := d, dlen := n } ∧ n.toNat = a.digestBytes ∧
      (finalize a s.acc).length = a.digestBytes ∧
      ∀ j : Fin 64, d[j] = if j.val < a.digestBytes then (finalize a s.acc).getD j.val 0 else 0

/-- R295: updates end in the same way with a DIGEST before them as without it: in the same state but for `DOUT` and `DLEN`,
or stopped for the same reason; a second DIGEST with no update in between writes the same bytes; and DIGEST writes only
`DOUT` and `DLEN`. -/
def Obligations.DigestLeavesTheStream : Prop :=
  (∀ (cmds : List Instr) (s : State), (∀ i ∈ cmds, isUpdate i = true) → s.ready = true → s.alg ≠ none →
    ∃ d n, execAll (.digest :: cmds) s =
      match execAll cmds s with
      | .next t => .next { t with dout := d, dlen := n }
      | .fault f => .fault f
      | .refused x => .refused x) ∧
  (∀ s t : State, s.ready = true → s.alg ≠ none → exec .digest s = .next t →
    exec .digest t = .next t ∧ t = { s with dout := t.dout, dlen := t.dlen })

/-- R293: the serialization has `N * W / 8` bytes, the state words in index order, each in the algorithm's byte order, which
is little-endian for MD5 and RIPEMD; and R294: which algorithms truncate. -/
def Obligations.SerializationAndTruncation : Prop :=
  (∀ (a : Alg) (h : Slots), (serialize a h).length = a.stateWords * a.wordBits / 8) ∧
  (∀ a : Alg, a.order = .little ↔ a = .md5 ∨ a = .rmd128 ∨ a = .rmd160 ∨ a = .rmd256 ∨ a = .rmd320) ∧
  (∀ a : Alg, a.digestBytes < a.stateWords * a.wordBits / 8 ↔
    a = .sha224 ∨ a = .sha384 ∨ a = .sha512_224 ∨ a = .sha512_256) ∧
  (∀ (a : Alg) (h : Slots) (i : Fin 10) (j : Nat), i.val < a.stateWords → j < a.wordBits / 8 →
    (serialize a h).getD (i.val * (a.wordBits / 8) + j) 0 =
      (h[i]).extractLsb' (8 * (match a.order with | .little => j | .big => a.wordBits / 8 - 1 - j)) 8)

/-- R297 and the source's two vectors: `INIT; DIGEST` from reset gives the MD5 and SHA-1 digests of the empty message. -/
def Obligations.EmptyMessageDigests : Prop :=
  (∃ t, execAll [.initMd5, .digest] State.reset = .next t ∧
    t.dout.toList.take 16 =
      [0xd4, 0x1d, 0x8c, 0xd9, 0x8f, 0x00, 0xb2, 0x04, 0xe9, 0x80, 0x09, 0x98, 0xec, 0xf8, 0x42, 0x7e]) ∧
  (∃ t, execAll [.initSha1, .digest] State.reset = .next t ∧
    t.dout.toList.take 20 =
      [0xda, 0x39, 0xa3, 0xee, 0x5e, 0x6b, 0x4b, 0x0d, 0x32, 0x55, 0xbf, 0xef, 0x95, 0x60, 0x18, 0x90, 0xaf, 0xd8,
        0x07, 0x09])

/-! ## Invariants -/

/-- R55, R57: a well-formed instance satisfies the invariant at power-on reset, and has no stream. -/
def Obligations.RunInvariantHoldsAtReset : Prop :=
  State.reset.Inv ∧ ∀ p : Params, p.WellFormed → (State.resetWith p).Inv ∧ (State.resetWith p).StreamInv

/-- R31 to R35, R38, R39, R45, R49: every step, whatever the host does, keeps the invariant of the registers. -/
def Obligations.StepKeepsTheRunInvariant : Prop :=
  ∀ s t : State, s.Inv → step s = .next t → t.Inv

/-- R36: after every command, with `READY = 1`, `COUNT`, `BUF` and `H` are those of the message absorbed since the last
INIT, and (R704, R711) `DOUT` is zero or the digest of a prefix of that message. -/
def Obligations.StepKeepsTheStream : Prop :=
  ∀ s t : State, s.Inv → s.StreamInv → step s = .next t → t.StreamInv

/-- R35, R240: a compression writes only the slots of its algorithm, and at `W = 32` leaves their upper halves 0. -/
def Obligations.CompressionWritesOnlyItsWords : Prop :=
  ∀ (a : Alg) (h : Slots) (blk : List Byte) (i : Fin 10),
    (a.stateWords ≤ i.val → (compress a h blk)[i] = h[i]) ∧
    (i.val < a.stateWords → a.wordBits = 32 → (compress a h blk)[i].toNat < 2 ^ 32)

/-! ## The host's accesses -/

/-- R45, R600: the fields of STATUS, with the numbers of the error codes and ECODE 0 when `ERR = 0`; a load of it has no side
effect, and a store to it is ignored. That a second agent's overlapping writes reach the window with either access (`land`)
is the model's choice (log entry 6). -/
def Obligations.StatusRegisterShowsTheFlags : Prop :=
  (∀ s : State,
    (s.readReg 0x08).getLsbD 0 = s.ready ∧ (s.readReg 0x08).getLsbD 1 = s.err ∧
    (s.readReg 0x08).extractLsb' 2 2 = 0 ∧ (s.readReg 0x08).extractLsb' 4 4 = ecodeBits s.ecode ∧
    (s.readReg 0x08).extractLsb' 8 56 = 0) ∧
  (∀ s : State, hostRead (s.params.regBase + 0x08) 8 s = .next { s.land with reply := some (s.readReg 0x08) }) ∧
  (∀ (s : State) (v : Word64), hostWrite (s.params.regBase + 0x08) 8 v s = .next s.land) ∧
  (∀ s : State, s.Inv → s.err = false → (s.readReg 0x08).extractLsb' 4 4 = 0) ∧
  State.reset.readReg 0x08 = 0 ∧
  (ecodeBits .none = 0 ∧ ecodeBits .illegalOp = 1 ∧ ecodeBits .reservedNonzero = 2 ∧ ecodeBits .illegalAlg = 3 ∧
    ecodeBits .notInit = 4 ∧ ecodeBits .srcRange = 5 ∧ ecodeBits .countOverflow = 6)

/-- R46 to R49, R124: ALGREG shows 0 with no algorithm selected and the algorithm's code with one; SRCREG, COUNT_LO, COUNT_HI
and DLENREG show their registers with the other bits 0; and COUNT_HI is 0 for an algorithm with a 64-bit length field. -/
def Obligations.ScalarRegistersShowTheState : Prop :=
  (∀ s : State, s.alg = none → s.readReg 0x10 = 0) ∧
  (∀ (s : State) (a : Alg), s.alg = some a → s.readReg 0x10 = a.code.setWidth 64) ∧
  (allAlgs.map fun a => a.code.toNat) = [0x1, 0x2, 0x3, 0x4, 0x5, 0x6, 0x7, 0x8, 0x9, 0xA, 0xB, 0xC] ∧
  (∀ a : Alg, a ∈ allAlgs ∧ Alg.ofCode a.code = some a) ∧
  (∀ s : State, (s.readReg 0x18).toNat = s.src.toNat) ∧
  (∀ s : State, (s.readReg 0x20).toNat + 2 ^ 64 * (s.readReg 0x28).toNat = s.count.toNat) ∧
  (∀ (s : State) (a : Alg), s.Inv → s.alg = some a → a.lengthBytes = 8 → s.readReg 0x28 = 0) ∧
  (∀ s : State, (s.readReg 0x30).toNat = s.dlen.toNat) ∧
  (∀ s : State, s.Inv → s.dlen.toNat ∈ [0, 16, 20, 28, 32, 40, 48, 64])

/-- R50: byte `j` of the digest is bits `8*(j mod 8)+7 : 8*(j mod 8)` of register `DOUT(floor(j/8))`. -/
def Obligations.DoutPacksTheDigestBytes : Prop :=
  (∀ (s : State) (j : Fin 64), (s.readReg (0x40 + 8 * (j.val / 8))).extractLsb' (8 * (j.val % 8)) 8 = s.dout[j]) ∧
  (∀ k < 8, State.reset.readReg (0x40 + 8 * k) = 0)

/-- R51: what HREGk shows at each word width, and that it reads 0 while no algorithm is selected. -/
def Obligations.HregShowsTheStateWords : Prop :=
  (∀ (s : State) (a : Alg) (k : Fin 8), s.alg = some a → a.wordBits = 32 →
    (∀ (h : k.val < 5),
      (s.readReg (0x80 + 8 * k.val)).extractLsb' 0 32 = (s.h[2 * k.val]).extractLsb' 0 32 ∧
      (s.readReg (0x80 + 8 * k.val)).extractLsb' 32 32 = (s.h[2 * k.val + 1]).extractLsb' 0 32) ∧
    (5 ≤ k.val → s.readReg (0x80 + 8 * k.val) = 0)) ∧
  (∀ (s : State) (a : Alg) (k : Fin 8), s.alg = some a → a.wordBits = 64 →
    s.readReg (0x80 + 8 * k.val) = s.h[k.val]) ∧
  (∀ (s : State) (k : Fin 8), s.alg = none → s.readReg (0x80 + 8 * k.val) = 0)

/-- R53: a store to a reserved or read-only register is ignored, and a reserved register reads 0. That a second agent's
overlapping writes reach the window with an ignored store (`land`) is the model's choice (log entry 6). -/
def Obligations.StoresToOtherRegistersAreIgnored : Prop :=
  (∀ (s : State) (off : Nat) (v : Word64), 0 < off → off < 256 → off % 8 = 0 →
    hostWrite (s.params.regBase + off) 8 v s = .next s.land) ∧
  (∀ (s : State) (off : Nat), off = 0x38 ∨ 0xC0 ≤ off → s.readReg off = 0)

/-- R52, R87, R88: a load of a register changes nothing of the instance and returns the register; CMD reads 0. That a second
agent's overlapping writes reach the window with it (`land`) is the model's choice (log entry 6). -/
def Obligations.RegisterLoadsHaveNoSideEffect : Prop :=
  ∀ (s : State) (off : Nat) (rest : List HostEvent),
    s.host = .read (s.params.regBase + off) 8 :: rest → off < 256 → off % 8 = 0 →
    step s = .next { s.land with host := rest, reply := some (s.readReg off) } ∧ (off = 0 → s.readReg off = 0)

/-- R90: a register access that is not 8 bytes wide, or not at a multiple of 8, is a bus error: a store issues no command
and a load returns no value. -/
def Obligations.BadRegisterAccessIsABusError : Prop :=
  ∀ (s : State) (off width : Nat), off < 256 → (width ≠ 8 ∨ off % 8 ≠ 0) →
    (∀ v, hostWrite (s.params.regBase + off) width v s = .fault .registerBusError) ∧
    hostRead (s.params.regBase + off) width s = .fault .registerBusError

/-- R85: a misaligned window access is a bus error. -/
def Obligations.MisalignedWindowAccessIsABusError : Prop :=
  ∀ (s : State) (off width : Nat), s.params.WellFormed → off < s.params.iwinSize →
    (width = 2 ∨ width = 4 ∨ width = 8) → off % width ≠ 0 →
    (∀ v, hostWrite (s.params.iwinBase + off) width v s = .fault .windowBusError) ∧
    hostRead (s.params.iwinBase + off) width s = .fault .windowBusError

/-- R84: an aligned window store of `width` bytes puts byte `k` of the value at offset `off + k` and changes no other byte
and no register; a load returns the bytes composed least significant first; so a load after the store returns those bytes
of the value. With no overlapping write in flight. -/
def Obligations.WindowStoreThenLoad : Prop :=
  ∀ (s : State) (off width : Nat), s.params.WellFormed → s.racing = [] →
    (width = 1 ∨ width = 2 ∨ width = 4 ∨ width = 8) → off % width = 0 → off + width ≤ s.params.iwinSize →
    (∀ v : Word64, ∃ t, hostWrite (s.params.iwinBase + off) width v s = .next t ∧ t = { s with iwin := t.iwin } ∧
      (∀ k < width, t.iwin.read (off + k) = some (v.extractLsb' (8 * k) 8)) ∧
      (∀ x, x < off ∨ off + width ≤ x → t.iwin.read x = s.iwin.read x) ∧
      hostRead (s.params.iwinBase + off) width t =
        .next { t with reply := some (BitVec.ofNat 64 (v.toNat % 2 ^ (8 * width))) }) ∧
    ∀ bytes : List Byte, bytes.length = width → (∀ k (h : k < bytes.length), s.iwin.read (off + k) = some bytes[k]) →
      ∃ v : Word64, hostRead (s.params.iwinBase + off) width s = .next { s with reply := some v } ∧
        v.toNat < 2 ^ (8 * width) ∧ ∀ k (h : k < bytes.length), v.extractLsb' (8 * k) 8 = bytes[k]

/-- R97: with one overlapping write to a byte, each read of it by the command gives the value before that write or the
value after it, by the choice made for that read; every other byte reads as the window holds it; and the new value is in
the window once the command has completed. The choices, and when the write lands, are held as log entry 6 says. -/
def Obligations.OverlappedByteReadsOldOrNew : Prop :=
  ∀ (s : State) (w : RaceWrite), s.racing = [w] →
    (∀ p, s.memRead p w.offset = if raceSeen p w = true then some w.value else s.iwin.read w.offset) ∧
    (∀ p x, x ≠ w.offset → s.memRead p x = s.iwin.read x) ∧
    (∀ cmd t, runCommand cmd s = .next t →
      t.racing = [] ∧ t.iwin.read w.offset = some w.value ∧ ∀ x, x ≠ w.offset → t.iwin.read x = s.iwin.read x)

/-! ## Primitives -/

/-- R201 to R203: rotation and shift as numbers, with the rules' examples; and a right rotation undoes a left one. -/
def Obligations.RotationsAsNumbers : Prop :=
  (∀ (w : Nat) (x : BitVec w) (n : Nat), 0 < n → n < w →
    (rotl x n).toNat = x.toNat * 2 ^ n % 2 ^ w ||| x.toNat / 2 ^ (w - n)) ∧
  (∀ (w : Nat) (x : BitVec w), rotl x 0 = x) ∧
  (∀ (w : Nat) (x : BitVec w) (n : Nat), n < w → rotr x n = rotl x ((w - n) % w)) ∧
  (∀ (w : Nat) (x : BitVec w), 0 < w → rotr x 0 = x) ∧
  (∀ (w : Nat) (x : BitVec w) (n : Nat), n < w → rotr (rotl x n) n = x) ∧
  (∀ (w : Nat) (x : BitVec w) (n : Nat), (shr x n).toNat = x.toNat / 2 ^ n) ∧
  rotl (0x80000001 : Word32) 1 = 0x00000003 ∧ rotl (0x0123456789ABCDEF : Word64) 8 = 0x23456789ABCDEF01 ∧
  rotr (0x0000000000000001 : Word64) 1 = 0x8000000000000000 ∧ shr (0xFFFFFFFF : Word32) 3 = 0x1FFFFFFF

/-- R209, R210: the bytes each serializer returns, at every whole number of bytes; that its load undoes it; and the rules'
examples. -/
def Obligations.SerializersAreUndoneByTheirLoads : Prop :=
  (∀ (k : Nat) (x : BitVec (8 * k)),
    (storeLE x).length = k ∧ (storeBE x).length = k ∧
    ∀ j < k, (storeLE x)[j]? = some (x.extractLsb' (8 * j) 8) ∧ (storeBE x)[j]? = some (x.extractLsb' (8 * (k - 1 - j)) 8)) ∧
  (∀ (k : Nat) (x : BitVec (8 * k)), loadLE (8 * k) (storeLE x) = x) ∧
  (∀ (k : Nat) (x : BitVec (8 * k)), loadBE (8 * k) (storeBE x) = x) ∧
  storeLE (0xD98C1DD4 : Word32) = [0xD4, 0x1D, 0x8C, 0xD9] ∧ storeLE (0x18 : Word64) = [0x18, 0, 0, 0, 0, 0, 0, 0] ∧
  storeBE (0x67452301 : Word32) = [0x67, 0x45, 0x23, 0x01] ∧
  storeBE (0x18 : BitVec 128) = List.replicate 15 0x00 ++ [0x18]

/-- R206: `bswap` puts byte `j` at the place of byte `k - 1 - j`, is its own inverse, and relates the two byte orders. -/
def Obligations.BswapRelatesTheByteOrders : Prop :=
  (∀ (k : Nat) (x : BitVec (8 * k)) (j : Nat), j < k →
    (bswap x).extractLsb' (8 * (k - 1 - j)) 8 = x.extractLsb' (8 * j) 8) ∧
  (∀ (k : Nat) (x : BitVec (8 * k)), bswap (bswap x) = x) ∧
  (∀ (k : Nat) (s : List Byte), s.length = k → loadBE (8 * k) s = bswap (loadLE (8 * k) s)) ∧
  bswap (0x01234567 : Word32) = 0x67452301

/-- R332: the word indices and rotations of the MD5 step table follow their closed forms at every step. -/
def Obligations.Md5TableFollowsItsClosedForms : Prop :=
  md5Table.length = 64 ∧
  ∀ (t : Nat) (row : Md5Row), md5Table[t]? = some row →
    (row.word.val =
      if t < 16 then t else if t < 32 then (5 * t + 1) % 16 else if t < 48 then (3 * t + 5) % 16 else 7 * t % 16) ∧
    some row.rot =
      (if t < 16 then [7, 12, 17, 22] else if t < 32 then [5, 9, 14, 20] else if t < 48 then [4, 11, 16, 23]
        else [6, 10, 15, 21])[t % 4]?

/-- R373: the SHA-1 schedule has 80 words, begins with the parsed block and follows its recurrence; and the words of the
rule's example, the block of "abc". -/
def Obligations.Sha1ScheduleFollowsItsRecurrence : Prop :=
  (∀ x : Vector Word32 16,
    (sha1Schedule x).length = 80 ∧
    (∀ t : Fin 16, (sha1Schedule x)[t.val]? = some x[t]) ∧
    ∀ t, 16 ≤ t → t < 80 → ∀ w3 w8 w14 w16,
      (sha1Schedule x)[t - 3]? = some w3 → (sha1Schedule x)[t - 8]? = some w8 → (sha1Schedule x)[t - 14]? = some w14 →
      (sha1Schedule x)[t - 16]? = some w16 → (sha1Schedule x)[t]? = some (rotl (w3 ^^^ w8 ^^^ w14 ^^^ w16) 1)) ∧
  ∀ x, x = parseBlock Alg.sha1.order 32 ([0x61, 0x62, 0x63] ++ padding .sha1 3) →
    x = #v[0x61626380, 0, 0, 0, 0, 0, 0, 0, 0, 0, 0, 0, 0, 0, 0, 0x18] ∧
    ((sha1Schedule x).drop 16).take 4 = [0xC2C4C700, 0, 0x00000030, 0x85898E01] ∧ (sha1Schedule x)[79]? = some 0x822E0879

/-- R402, R412: the two SHA-2 schedules have 64 and 80 words, begin with the parsed block and follow their recurrence; and
the words of the rules' examples, the blocks of "abc". -/
def Obligations.Sha2SchedulesFollowTheirRecurrences : Prop :=
  (∀ x : Vector Word32 16,
    (sha256Schedule x).length = 64 ∧
    (∀ t : Fin 16, (sha256Schedule x)[t.val]? = some x[t]) ∧
    ∀ t, 16 ≤ t → t < 64 → ∀ w2 w7 w15 w16,
      (sha256Schedule x)[t - 2]? = some w2 → (sha256Schedule x)[t - 7]? = some w7 → (sha256Schedule x)[t - 15]? = some w15 →
      (sha256Schedule x)[t - 16]? = some w16 →
      (sha256Schedule x)[t]? = some (smallSigma1_256 w2 + w7 + smallSigma0_256 w15 + w16)) ∧
  (∀ x : Vector Word64 16,
    (sha512Schedule x).length = 80 ∧
    (∀ t : Fin 16, (sha512Schedule x)[t.val]? = some x[t]) ∧
    ∀ t, 16 ≤ t → t < 80 → ∀ w2 w7 w15 w16,
      (sha512Schedule x)[t - 2]? = some w2 → (sha512Schedule x)[t - 7]? = some w7 → (sha512Schedule x)[t - 15]? = some w15 →
      (sha512Schedule x)[t - 16]? = some w16 →
      (sha512Schedule x)[t]? = some (smallSigma1_512 w2 + w7 + smallSigma0_512 w15 + w16)) ∧
  (∀ x, x = parseBlock Alg.sha256.order 32 ([0x61, 0x62, 0x63] ++ padding .sha256 3) →
    x = #v[0x61626380, 0, 0, 0, 0, 0, 0, 0, 0, 0, 0, 0, 0, 0, 0, 0x18] ∧
    ((sha256Schedule x).drop 16).take 2 = [0x61626380, 0x000F0000] ∧ (sha256Schedule x)[63]? = some 0x12B1EDEB) ∧
  parseBlock Alg.sha512.order 64 ([0x61, 0x62, 0x63] ++ padding .sha512 3) =
    #v[0x6162638000000000, 0, 0, 0, 0, 0, 0, 0, 0, 0, 0, 0, 0, 0, 0, 0x18]

/-- R462, R463, R460: `f1` is Parity and `f2` is Ch; the left line uses the functions in order and the right line in
reverse order, in both numbers of rounds; and each round of each line has sixteen steps that use every message word
once. -/
def Obligations.RipemdLinesUseTheirFunctionsInOrder : Prop :=
  (∀ x y z : Word32, rmdFn .f1 x y z = parity x y z ∧ rmdFn .f2 x y z = ch x y z) ∧
  rmdRounds5.map (·.fnLeft) = [.f1, .f2, .f3, .f4, .f5] ∧ rmdRounds4.map (·.fnLeft) = [.f1, .f2, .f3, .f4] ∧
  (∀ rs, rs = rmdRounds5 ∨ rs = rmdRounds4 → rs.map (·.fnRight) = (rs.map (·.fnLeft)).reverse) ∧
  ∀ q ∈ rmdRounds5 ++ rmdRounds4, q.rows.length = 16 ∧
    ∀ i : Fin 16, (∃ row ∈ q.rows, row.wordLeft = i) ∧ ∃ row ∈ q.rows, row.wordRight = i

/-- The worked examples of R345, R378, R409, R418, R470, R472, R474 and R476, each from the IV: the all-zero block for MD5,
the "abc" block for SHA-1, SHA-256 and SHA-512, the padded empty block for the RIPEMD family; and the all-zero block from
the IVs of SHA-224 (R421) and SHA-384 (R423), V-ZB-3 and V-ZB-5 of 95_test_vectors.md. -/
def Obligations.CompressionExamples : Prop :=
  (compress .md5 (ivSlots .md5) (List.replicate 64 0)).toList.take 4 =
    [0x031F1DAC, 0x6EA58ED0, 0x1FAB67B7, 0x74317791] ∧
  (compress .sha224 (ivSlots .sha224) (List.replicate 64 0)).toList.take 8 =
    [0xDB04D220, 0xF639AB8E, 0x8E6B506D, 0xC54481DA, 0x63A5820F, 0x1294A139, 0x8EDCEF0E, 0x17A572BC] ∧
  (compress .sha384 (ivSlots .sha384) (List.replicate 128 0)).toList.take 8 =
    [0x443D3F698FB0CF23, 0x80A591795CD757AE, 0x4A9600972C395335, 0x98E763D795C489F7, 0xF765EA4B8193F748,
      0x450E49EC00BC838C, 0x871CC1D60F1E68C5, 0x943BBF4C8EA94259] ∧
  (compress .sha1 (ivSlots .sha1) ([0x61, 0x62, 0x63] ++ padding .sha1 3)).toList.take 5 =
    [0xA9993E36, 0x4706816A, 0xBA3E2571, 0x7850C26C, 0x9CD0D89D] ∧
  (compress .sha256 (ivSlots .sha256) ([0x61, 0x62, 0x63] ++ padding .sha256 3)).toList.take 8 =
    [0xBA7816BF, 0x8F01CFEA, 0x414140DE, 0x5DAE2223, 0xB00361A3, 0x96177A9C, 0xB410FF61, 0xF20015AD] ∧
  (compress .sha512 (ivSlots .sha512) ([0x61, 0x62, 0x63] ++ padding .sha512 3)).toList.take 8 =
    [0xDDAF35A193617ABA, 0xCC417349AE204131, 0x12E6FA4E89A97EA2, 0x0A9EEEE64B55D39A, 0x2192992A274FC1A8,
      0x36BA3C23A3FEEBBD, 0x454D4423643CE80E, 0x2A9AC94FA54CA49F] ∧
  (compress .rmd128 (ivSlots .rmd128) (padding .rmd128 0)).toList.take 4 =
    [0x1362F2CD, 0x3EDC50A1, 0x180F61CB, 0x468BB3F6] ∧
  (compress .rmd160 (ivSlots .rmd160) (padding .rmd160 0)).toList.take 5 =
    [0xA585119C, 0x54FCE9C5, 0x97082861, 0x48F5E87E, 0x318D25B2] ∧
  (compress .rmd256 (ivSlots .rmd256) (padding .rmd256 0)).toList.take 8 =
    [0x4E4CBA02, 0x18CD8E5F, 0xD652FC77, 0x7AE3304D, 0xFB74972D, 0x63025D1E, 0x6801AE80, 0x2D52C5E3] ∧
  (compress .rmd320 (ivSlots .rmd320) (padding .rmd320 0)).toList =
    [0x565DD622, 0xDC6C5361, 0xF5FDC175, 0x417BDEC6, 0x2573F2B9, 0x851EC6EB, 0x707D1757, 0x80C80E5A, 0x323A1C15,
      0xB89908A0]

/-- R9: `LIMIT(ALG)` is the largest byte count whose bit length fits in the length field: 2^61 - 1 or 2^125 - 1. -/
def Obligations.LimitIsTheLargestCount : Prop :=
  ∀ a : Alg, 8 * a.limit < 2 ^ (8 * a.lengthBytes) ∧ 2 ^ (8 * a.lengthBytes) ≤ 8 * (a.limit + 1) ∧
    (a.lengthBytes = 8 → a.limit = 2 ^ 61 - 1) ∧ (a.lengthBytes = 16 → a.limit = 2 ^ 125 - 1)

/-! ## Assembler and platform -/

/-- R131: the expansion of UPDRL gives the state one absorption of the full count would give. -/
def Obligations.UpdrlAbsorbsTheWholeCount : Prop :=
  ∀ (s : State) (a : Alg) (byte : Byte) (count : Nat), s.ready = true → s.alg = some a →
    s.count.toNat + count ≤ a.limit →
    execAll (expandUpdrl byte count) s = .next (s.setAcc (absorbSeq a s.acc (List.replicate count byte)))

/-- R102, R632: a step of one instance changes no other instance, and what it does depends on its own state alone. -/
def Obligations.InstancesShareNothing : Prop :=
  (∀ (p q : Platform) (k j : Nat), Platform.step p k = .next q → j ≠ k → q.engines[j]? = p.engines[j]?) ∧
  (∀ (p : Platform) (k : Nat) (s t : State), p.engines[k]? = some s → step s = .next t →
    ∃ q, Platform.step p k = .next q ∧ q.engines[k]? = some t) ∧
  (∀ (p p' : Platform) (k : Nat) (q : Platform), p.engines[k]? = p'.engines[k]? → Platform.step p k = .next q →
    ∃ q', Platform.step p' k = .next q' ∧ q'.engines[k]? = q.engines[k]?)
end

