-- ==== Sys2Proof/Laws/State.lean ====
section
/-! SUPPORT. What each operation on the state does to each field, one lemma per field per update, so that no later proof
unfolds a record update. -/

namespace Sys2Proof.Machine

/-! Writing `COUNT`, `BUF` and `H`. -/

@[simp] theorem State.setAcc_params (s : State) (c : Acc) : (s.setAcc c).params = s.params := rfl
@[simp] theorem State.setAcc_alg (s : State) (c : Acc) : (s.setAcc c).alg = s.alg := rfl
@[simp] theorem State.setAcc_ready (s : State) (c : Acc) : (s.setAcc c).ready = s.ready := rfl
@[simp] theorem State.setAcc_err (s : State) (c : Acc) : (s.setAcc c).err = s.err := rfl
@[simp] theorem State.setAcc_ecode (s : State) (c : Acc) : (s.setAcc c).ecode = s.ecode := rfl
@[simp] theorem State.setAcc_count (s : State) (c : Acc) : (s.setAcc c).count = c.count := rfl
@[simp] theorem State.setAcc_buf (s : State) (c : Acc) : (s.setAcc c).buf = c.buf := rfl
@[simp] theorem State.setAcc_h (s : State) (c : Acc) : (s.setAcc c).h = c.h := rfl
@[simp] theorem State.setAcc_src (s : State) (c : Acc) : (s.setAcc c).src = s.src := rfl
@[simp] theorem State.setAcc_dout (s : State) (c : Acc) : (s.setAcc c).dout = s.dout := rfl
@[simp] theorem State.setAcc_dlen (s : State) (c : Acc) : (s.setAcc c).dlen = s.dlen := rfl
@[simp] theorem State.setAcc_iwin (s : State) (c : Acc) : (s.setAcc c).iwin = s.iwin := rfl
@[simp] theorem State.setAcc_racing (s : State) (c : Acc) : (s.setAcc c).racing = s.racing := rfl
@[simp] theorem State.setAcc_host (s : State) (c : Acc) : (s.setAcc c).host = s.host := rfl
@[simp] theorem State.setAcc_reply (s : State) (c : Acc) : (s.setAcc c).reply = s.reply := rfl

/-! Writing `SRC`. -/

@[simp] theorem State.setSrc_params (s : State) (v : Nat) : (s.setSrc v).params = s.params := rfl
@[simp] theorem State.setSrc_alg (s : State) (v : Nat) : (s.setSrc v).alg = s.alg := rfl
@[simp] theorem State.setSrc_ready (s : State) (v : Nat) : (s.setSrc v).ready = s.ready := rfl
@[simp] theorem State.setSrc_err (s : State) (v : Nat) : (s.setSrc v).err = s.err := rfl
@[simp] theorem State.setSrc_ecode (s : State) (v : Nat) : (s.setSrc v).ecode = s.ecode := rfl
@[simp] theorem State.setSrc_count (s : State) (v : Nat) : (s.setSrc v).count = s.count := rfl
@[simp] theorem State.setSrc_buf (s : State) (v : Nat) : (s.setSrc v).buf = s.buf := rfl
@[simp] theorem State.setSrc_h (s : State) (v : Nat) : (s.setSrc v).h = s.h := rfl
@[simp] theorem State.setSrc_src (s : State) (v : Nat) : (s.setSrc v).src = BitVec.ofNat 48 v := rfl
@[simp] theorem State.setSrc_dout (s : State) (v : Nat) : (s.setSrc v).dout = s.dout := rfl
@[simp] theorem State.setSrc_dlen (s : State) (v : Nat) : (s.setSrc v).dlen = s.dlen := rfl
@[simp] theorem State.setSrc_iwin (s : State) (v : Nat) : (s.setSrc v).iwin = s.iwin := rfl
@[simp] theorem State.setSrc_racing (s : State) (v : Nat) : (s.setSrc v).racing = s.racing := rfl
@[simp] theorem State.setSrc_host (s : State) (v : Nat) : (s.setSrc v).host = s.host := rfl
@[simp] theorem State.setSrc_reply (s : State) (v : Nat) : (s.setSrc v).reply = s.reply := rfl

/-! Writing `DOUT` and `DLEN`. -/

@[simp] theorem State.setDigest_params (s : State) (a : Alg) (d : List Byte) : (s.setDigest a d).params = s.params := rfl
@[simp] theorem State.setDigest_alg (s : State) (a : Alg) (d : List Byte) : (s.setDigest a d).alg = s.alg := rfl
@[simp] theorem State.setDigest_ready (s : State) (a : Alg) (d : List Byte) : (s.setDigest a d).ready = s.ready := rfl
@[simp] theorem State.setDigest_err (s : State) (a : Alg) (d : List Byte) : (s.setDigest a d).err = s.err := rfl
@[simp] theorem State.setDigest_ecode (s : State) (a : Alg) (d : List Byte) : (s.setDigest a d).ecode = s.ecode := rfl
@[simp] theorem State.setDigest_count (s : State) (a : Alg) (d : List Byte) : (s.setDigest a d).count = s.count := rfl
@[simp] theorem State.setDigest_buf (s : State) (a : Alg) (d : List Byte) : (s.setDigest a d).buf = s.buf := rfl
@[simp] theorem State.setDigest_h (s : State) (a : Alg) (d : List Byte) : (s.setDigest a d).h = s.h := rfl
@[simp] theorem State.setDigest_src (s : State) (a : Alg) (d : List Byte) : (s.setDigest a d).src = s.src := rfl
@[simp] theorem State.setDigest_iwin (s : State) (a : Alg) (d : List Byte) : (s.setDigest a d).iwin = s.iwin := rfl
@[simp] theorem State.setDigest_racing (s : State) (a : Alg) (d : List Byte) : (s.setDigest a d).racing = s.racing := rfl
@[simp] theorem State.setDigest_host (s : State) (a : Alg) (d : List Byte) : (s.setDigest a d).host = s.host := rfl
@[simp] theorem State.setDigest_reply (s : State) (a : Alg) (d : List Byte) : (s.setDigest a d).reply = s.reply := rfl
@[simp] theorem State.setDigest_dout (s : State) (a : Alg) (d : List Byte) : (s.setDigest a d).dout = digestOut a d := rfl
@[simp] theorem State.setDigest_dlen (s : State) (a : Alg) (d : List Byte) :
    (s.setDigest a d).dlen.toNat = a.digestBytes := by cases a <;> rfl

/-! Recording an error (R602). -/

@[simp] theorem State.raise_params (s : State) (e : ECode) : (s.raise e).params = s.params := by
  unfold State.raise; split <;> simp_all
@[simp] theorem State.raise_alg (s : State) (e : ECode) : (s.raise e).alg = s.alg := by
  unfold State.raise; split <;> simp_all
@[simp] theorem State.raise_ready (s : State) (e : ECode) : (s.raise e).ready = s.ready := by
  unfold State.raise; split <;> simp_all
@[simp] theorem State.raise_err (s : State) (e : ECode) : (s.raise e).err = true := by
  unfold State.raise; split <;> simp_all
@[simp] theorem State.raise_ecode (s : State) (e : ECode) : (s.raise e).ecode = if s.err then s.ecode else e := by
  unfold State.raise; split <;> simp_all
@[simp] theorem State.raise_count (s : State) (e : ECode) : (s.raise e).count = s.count := by
  unfold State.raise; split <;> simp_all
@[simp] theorem State.raise_buf (s : State) (e : ECode) : (s.raise e).buf = s.buf := by
  unfold State.raise; split <;> simp_all
@[simp] theorem State.raise_h (s : State) (e : ECode) : (s.raise e).h = s.h := by
  unfold State.raise; split <;> simp_all
@[simp] theorem State.raise_src (s : State) (e : ECode) : (s.raise e).src = s.src := by
  unfold State.raise; split <;> simp_all
@[simp] theorem State.raise_dout (s : State) (e : ECode) : (s.raise e).dout = s.dout := by
  unfold State.raise; split <;> simp_all
@[simp] theorem State.raise_dlen (s : State) (e : ECode) : (s.raise e).dlen = s.dlen := by
  unfold State.raise; split <;> simp_all
@[simp] theorem State.raise_iwin (s : State) (e : ECode) : (s.raise e).iwin = s.iwin := by
  unfold State.raise; split <;> simp_all
@[simp] theorem State.raise_racing (s : State) (e : ECode) : (s.raise e).racing = s.racing := by
  unfold State.raise; split <;> simp_all
@[simp] theorem State.raise_host (s : State) (e : ECode) : (s.raise e).host = s.host := by
  unfold State.raise; split <;> simp_all
@[simp] theorem State.raise_reply (s : State) (e : ECode) : (s.raise e).reply = s.reply := by
  unfold State.raise; split <;> simp_all

/-! The overlapping writes landing (R97). -/

@[simp] theorem State.land_params (s : State) : (s.land).params = s.params := rfl
@[simp] theorem State.land_alg (s : State) : (s.land).alg = s.alg := rfl
@[simp] theorem State.land_ready (s : State) : (s.land).ready = s.ready := rfl
@[simp] theorem State.land_err (s : State) : (s.land).err = s.err := rfl
@[simp] theorem State.land_ecode (s : State) : (s.land).ecode = s.ecode := rfl
@[simp] theorem State.land_count (s : State) : (s.land).count = s.count := rfl
@[simp] theorem State.land_buf (s : State) : (s.land).buf = s.buf := rfl
@[simp] theorem State.land_h (s : State) : (s.land).h = s.h := rfl
@[simp] theorem State.land_src (s : State) : (s.land).src = s.src := rfl
@[simp] theorem State.land_dout (s : State) : (s.land).dout = s.dout := rfl
@[simp] theorem State.land_dlen (s : State) : (s.land).dlen = s.dlen := rfl
@[simp] theorem State.land_iwin (s : State) : (s.land).iwin = s.racing.foldl (fun m w => m.write w.offset w.value) s.iwin := rfl
@[simp] theorem State.land_racing (s : State) : (s.land).racing = [] := rfl
@[simp] theorem State.land_host (s : State) : (s.land).host = s.host := rfl
@[simp] theorem State.land_reply (s : State) : (s.land).reply = s.reply := rfl

/-! INIT (R250). -/

@[simp] theorem State.initStream_params (s : State) (a : Alg) : (s.initStream a).params = s.params := rfl
@[simp] theorem State.initStream_alg (s : State) (a : Alg) : (s.initStream a).alg = some a := rfl
@[simp] theorem State.initStream_ready (s : State) (a : Alg) : (s.initStream a).ready = true := rfl
@[simp] theorem State.initStream_err (s : State) (a : Alg) : (s.initStream a).err = false := rfl
@[simp] theorem State.initStream_ecode (s : State) (a : Alg) : (s.initStream a).ecode = .none := rfl
@[simp] theorem State.initStream_count (s : State) (a : Alg) : (s.initStream a).count = 0 := rfl
@[simp] theorem State.initStream_buf (s : State) (a : Alg) : (s.initStream a).buf = Vector.replicate 128 0 := rfl
@[simp] theorem State.initStream_h (s : State) (a : Alg) : (s.initStream a).h = ivSlots a := rfl
@[simp] theorem State.initStream_src (s : State) (a : Alg) : (s.initStream a).src = s.src := rfl
@[simp] theorem State.initStream_dout (s : State) (a : Alg) : (s.initStream a).dout = Vector.replicate 64 0 := rfl
@[simp] theorem State.initStream_dlen (s : State) (a : Alg) : (s.initStream a).dlen = 0 := rfl
@[simp] theorem State.initStream_iwin (s : State) (a : Alg) : (s.initStream a).iwin = s.iwin := rfl
@[simp] theorem State.initStream_racing (s : State) (a : Alg) : (s.initStream a).racing = s.racing := rfl
@[simp] theorem State.initStream_host (s : State) (a : Alg) : (s.initStream a).host = s.host := rfl
@[simp] theorem State.initStream_reply (s : State) (a : Alg) : (s.initStream a).reply = s.reply := rfl

/-! Reset (R55, R700). -/

@[simp] theorem State.resetRegs_params (s : State) : (s.resetRegs).params = s.params := rfl
@[simp] theorem State.resetRegs_alg (s : State) : (s.resetRegs).alg = none := rfl
@[simp] theorem State.resetRegs_ready (s : State) : (s.resetRegs).ready = false := rfl
@[simp] theorem State.resetRegs_err (s : State) : (s.resetRegs).err = false := rfl
@[simp] theorem State.resetRegs_ecode (s : State) : (s.resetRegs).ecode = .none := rfl
@[simp] theorem State.resetRegs_count (s : State) : (s.resetRegs).count = 0 := rfl
@[simp] theorem State.resetRegs_buf (s : State) : (s.resetRegs).buf = Vector.replicate 128 0 := rfl
@[simp] theorem State.resetRegs_h (s : State) : (s.resetRegs).h = Vector.replicate 10 0 := rfl
@[simp] theorem State.resetRegs_src (s : State) : (s.resetRegs).src = 0 := rfl
@[simp] theorem State.resetRegs_dout (s : State) : (s.resetRegs).dout = Vector.replicate 64 0 := rfl
@[simp] theorem State.resetRegs_dlen (s : State) : (s.resetRegs).dlen = 0 := rfl
@[simp] theorem State.resetRegs_iwin (s : State) : (s.resetRegs).iwin = s.iwin := rfl
@[simp] theorem State.resetRegs_racing (s : State) : (s.resetRegs).racing = s.racing := rfl
@[simp] theorem State.resetRegs_host (s : State) : (s.resetRegs).host = s.host := rfl
@[simp] theorem State.resetRegs_reply (s : State) : (s.resetRegs).reply = none := rfl

/-! Power-on (R82). -/

@[simp] theorem State.powerOn_params (s : State) : (s.powerOn).params = s.params := rfl
@[simp] theorem State.powerOn_alg (s : State) : (s.powerOn).alg = none := rfl
@[simp] theorem State.powerOn_ready (s : State) : (s.powerOn).ready = false := rfl
@[simp] theorem State.powerOn_err (s : State) : (s.powerOn).err = false := rfl
@[simp] theorem State.powerOn_ecode (s : State) : (s.powerOn).ecode = .none := rfl
@[simp] theorem State.powerOn_count (s : State) : (s.powerOn).count = 0 := rfl
@[simp] theorem State.powerOn_buf (s : State) : (s.powerOn).buf = Vector.replicate 128 0 := rfl
@[simp] theorem State.powerOn_h (s : State) : (s.powerOn).h = Vector.replicate 10 0 := rfl
@[simp] theorem State.powerOn_src (s : State) : (s.powerOn).src = 0 := rfl
@[simp] theorem State.powerOn_dout (s : State) : (s.powerOn).dout = Vector.replicate 64 0 := rfl
@[simp] theorem State.powerOn_dlen (s : State) : (s.powerOn).dlen = 0 := rfl
@[simp] theorem State.powerOn_iwin (s : State) : (s.powerOn).iwin = [] := rfl
@[simp] theorem State.powerOn_racing (s : State) : (s.powerOn).racing = [] := rfl
@[simp] theorem State.powerOn_host (s : State) : (s.powerOn).host = s.host := rfl
@[simp] theorem State.powerOn_reply (s : State) : (s.powerOn).reply = none := rfl

/-! The accumulator of a state. -/

@[simp] theorem State.acc_count (s : State) : s.acc.count = s.count := rfl
@[simp] theorem State.acc_buf (s : State) : s.acc.buf = s.buf := rfl
@[simp] theorem State.acc_h (s : State) : s.acc.h = s.h := rfl
@[simp] theorem State.acc_setAcc (s : State) (c : Acc) : (s.setAcc c).acc = c := rfl
@[simp] theorem State.setAcc_acc (s : State) : s.setAcc s.acc = s := rfl
@[simp] theorem State.acc_setSrc (s : State) (v : Nat) : (s.setSrc v).acc = s.acc := rfl
@[simp] theorem State.acc_initStream (s : State) (a : Alg) : (s.initStream a).acc = accInit a := rfl
@[simp] theorem State.acc_land (s : State) : s.land.acc = s.acc := rfl
@[simp] theorem State.acc_setDigest (s : State) (a : Alg) (d : List Byte) : (s.setDigest a d).acc = s.acc := rfl
@[simp] theorem State.acc_raise (s : State) (e : ECode) : (s.raise e).acc = s.acc := by
  unfold State.raise; split <;> rfl

/-- The first error is recorded (R602). -/
theorem State.raise_of_err_false (s : State) (e : ECode) (h : s.err = false) :
    s.raise e = { s with err := true, ecode := e } := by simp [State.raise, h]

/-- A later error changes nothing (R602, R604). -/
theorem State.raise_of_err_true (s : State) (e : ECode) (h : s.err = true) : s.raise e = s := by
  simp [State.raise, h]

/-- With no overlapping write in flight, nothing lands. -/
@[simp] theorem State.land_of_racing_nil (s : State) (h : s.racing = []) : s.land = s := by
  cases s; simp_all [State.land]

end Sys2Proof.Machine
end

