-- ==== Sys2Proof/Laws/Absorb.lean ====
section
/-! SUPPORT. What the accumulator's operations do (41_accumulator.md R240, R241). -/

namespace Sys2Proof.Machine

@[simp] theorem absorbSeq_nil (a : Alg) (c : Acc) : absorbSeq a c [] = c := rfl

@[simp] theorem absorbSeq_cons (a : Alg) (c : Acc) (b : Byte) (s : List Byte) :
    absorbSeq a c (b :: s) = absorbSeq a (absorb a c b) s := rfl

/-- Absorbing two sequences one after the other is absorbing their concatenation. -/
theorem absorbSeq_append (a : Alg) (c : Acc) (s t : List Byte) :
    absorbSeq a c (s ++ t) = absorbSeq a (absorbSeq a c s) t := List.foldl_append ..

@[simp] theorem absorb_count (a : Alg) (c : Acc) (b : Byte) : (absorb a c b).count = c.count + 1 := rfl

/-- Below 2^128, an absorbed byte adds one to the counter. -/
theorem absorb_count_toNat (a : Alg) (c : Acc) (b : Byte) (h : c.count.toNat + 1 < 2 ^ 128) :
    (absorb a c b).count.toNat = c.count.toNat + 1 := by
  simp only [absorb_count, BitVec.toNat_add]
  exact Nat.mod_eq_of_lt h

/-- Below 2^128, each absorbed byte adds one to the counter. -/
theorem absorbSeq_count_toNat (a : Alg) (c : Acc) (s : List Byte) (h : c.count.toNat + s.length < 2 ^ 128) :
    (absorbSeq a c s).count.toNat = c.count.toNat + s.length := by
  induction s generalizing c with
  | nil => simp
  | cons b rest ih =>
    simp only [List.length_cons] at h
    have h1 := absorb_count_toNat a c b (by omega)
    rw [absorbSeq_cons, ih _ (by omega), h1, List.length_cons]
    omega

/-- A byte that completes no block leaves the state store alone. -/
theorem absorb_h_of_not_completes (a : Alg) (c : Acc) (b : Byte) (h : completesBlock a c.count = false) :
    (absorb a c b).h = c.h := by simp [absorb, h]

/-- A sequence that completes no block leaves the state store alone (R56). -/
theorem absorbSeq_h_of_no_compression (a : Alg) (c : Acc) (s : List Byte) (h : compressions a c s = 0) :
    (absorbSeq a c s).h = c.h := by
  induction s generalizing c with
  | nil => rfl
  | cons b rest ih =>
    unfold compressions at h
    have hc : completesBlock a c.count = false := by
      by_contra hc
      simp_all
    rw [absorbSeq_cons, ih _ (by omega), absorb_h_of_not_completes a c b hc]

/-- Byte `j` of a list cut to `k` bytes and filled up with zeros. -/
theorem getElem?_zeroFilled (d : List Byte) (k n j : Nat) (hj : j < n) :
    ((d.take k ++ List.replicate n 0).take n)[j]? = some (if j < k then d.getD j 0 else 0) := by
  rw [List.getElem?_take_of_lt hj]
  by_cases h : j < (d.take k).length
  · rw [List.getElem?_append_left h]
    rw [List.length_take] at h
    rw [List.getElem?_take_of_lt (by omega), if_pos (by omega), List.getD_eq_getElem _ _ (by omega),
      List.getElem?_eq_getElem]
  · rw [List.getElem?_append_right (by omega), List.getElem?_replicate, if_pos (by omega)]
    rw [List.length_take] at h
    split
    · rw [List.getD_eq_default _ _ (by omega)]
    · rfl

/-- `DOUT` after DIGEST, byte by byte (R290). -/
theorem digestOut_getElem (a : Alg) (d : List Byte) (j : Fin 64) :
    (digestOut a d)[j] = if j.val < a.digestBytes then d.getD j.val 0 else 0 := by
  have h := getElem?_zeroFilled d a.digestBytes 64 j.val j.isLt
  have e : (digestOut a d)[j] = ((d.take a.digestBytes ++ List.replicate 64 0).take 64)[j.val]'(by
      rw [List.length_take, List.length_append, List.length_replicate]; omega) := rfl
  rw [e]
  exact (List.getElem_eq_iff _).mpr h

end Sys2Proof.Machine

namespace Sys2Proof

/-- The limits leave the counter far below 2^128 (R9, R11). -/
theorem Alg.limit_lt (a : Alg) : a.limit < 2 ^ 125 := by cases a <;> decide

/-- A whole number of words fills a block, and the length field is shorter than a block. -/
theorem Alg.lengthBytes_lt (a : Alg) : a.lengthBytes + 1 ≤ a.blockBytes := by cases a <;> decide

end Sys2Proof
end

