-- ==== Sys2Proof/Laws/Compress.lean ====
section
/-! SUPPORT. Which slots of the state store the compressions write (10_state.md R35, 46_ripemd.md R467), and the schedules
word by word (44_sha1.md R373, 45_sha2.md R402, R412). -/

namespace Sys2Proof.Machine

/-- A 32-bit word leaves the upper half of its slot 0 (R35). -/
theorem widen_lt (x : Word32) : (widen x).toNat < 2 ^ 32 := by
  simp only [widen, BitVec.toNat_setWidth]
  have := x.isLt
  omega

/-- Writing four words: the other slots stay, and these have zero upper halves. -/
theorem put4_getElem (h : Slots) (i : Fin 7) (r : Regs4) (j : Fin 10) :
    (j.val < i.val ∨ i.val + 4 ≤ j.val → (put4 h i r)[j] = h[j]) ∧
    (i.val ≤ j.val ∧ j.val < i.val + 4 → ((put4 h i r)[j]).toNat < 2 ^ 32) := by
  constructor
  · intro hh
    simp (disch := omega) only [put4, Fin.getElem_fin, Vector.getElem_set_ne]
  · intro hh
    simp only [put4, Fin.getElem_fin, Vector.getElem_set]
    repeat' split
    all_goals first | exact widen_lt _ | omega

/-- Writing five words: the other slots stay, and these have zero upper halves. -/
theorem put5_getElem (h : Slots) (i : Fin 6) (r : Regs5) (j : Fin 10) :
    (j.val < i.val ∨ i.val + 5 ≤ j.val → (put5 h i r)[j] = h[j]) ∧
    (i.val ≤ j.val ∧ j.val < i.val + 5 → ((put5 h i r)[j]).toNat < 2 ^ 32) := by
  constructor
  · intro hh
    simp (disch := omega) only [put5, Fin.getElem_fin, Vector.getElem_set_ne]
  · intro hh
    simp only [put5, Fin.getElem_fin, Vector.getElem_set]
    repeat' split
    all_goals first | exact widen_lt _ | omega

/-- Writing eight words leaves slots 8 and 9. -/
theorem put8x64_getElem (h : Slots) (r : Regs8 64) (j : Fin 10) (hj : 8 ≤ j.val) : (put8x64 h r)[j] = h[j] := by
  simp (disch := omega) only [put8x64, Fin.getElem_fin, Vector.getElem_set_ne]

/-- Eight 32-bit words have zero upper halves. -/
theorem put8x32_lt (h : Slots) (r : Regs8 32) (j : Fin 10) (hj : j.val < 8) : ((put8x32 h r)[j]).toNat < 2 ^ 32 := by
  simp only [put8x32, put8x64, Fin.getElem_fin, Vector.getElem_set]
  repeat' split
  all_goals first | exact widen_lt _ | omega

/-- The IV of an algorithm has its number of words (R250). -/
theorem iv_length (a : Alg) : (iv a).length = a.stateWords := by cases a <;> rfl

/-- Expanding the SHA-1 schedule keeps the words there are. -/
theorem sha1Expand_keeps (n : Nat) : ∀ ws : List Word32, (sha1Expand n ws).length = ws.length + n ∧
    ∀ t, t < ws.length → (sha1Expand n ws)[t]? = ws[t]? := by
  induction n with
  | zero =>
    intro ws
    exact ⟨rfl, fun _ _ => rfl⟩
  | succ n ih =>
    intro ws
    obtain ⟨h1, h2⟩ := ih (ws ++ [sha1Next ws])
    rw [List.length_append, List.length_singleton] at h1 h2
    refine ⟨by rw [sha1Expand, h1]; omega, fun t ht => ?_⟩
    rw [sha1Expand, h2 t (by omega), List.getElem?_append_left ht]

/-- Each word the expansion adds is the next one of the words before it. -/
theorem sha1Expand_next (n : Nat) : ∀ (ws : List Word32) (t : Nat), ws.length ≤ t → t < ws.length + n →
    ∃ pre : List Word32, pre.length = t ∧ (∀ j, j < t → (sha1Expand n ws)[j]? = pre[j]?) ∧
      (sha1Expand n ws)[t]? = some (sha1Next pre) := by
  induction n with
  | zero =>
    intro ws t h1 h2
    omega
  | succ n ih =>
    intro ws t h1 h2
    rw [sha1Expand]
    by_cases h : t = ws.length
    · subst h
      obtain ⟨-, hp⟩ := sha1Expand_keeps n (ws ++ [sha1Next ws])
      refine ⟨ws, rfl, fun j hj => ?_, ?_⟩
      · rw [hp j (by simp; omega), List.getElem?_append_left hj]
      · rw [hp _ (by simp)]
        simp
    · exact ih _ t (by simp; omega) (by simp; omega)

/-- Expanding a SHA-2 schedule keeps the words there are. -/
theorem sha2Expand_keeps {w : Nat} (s0 s1 : BitVec w → BitVec w) (n : Nat) : ∀ ws : List (BitVec w),
    (sha2Expand s0 s1 n ws).length = ws.length + n ∧ ∀ t, t < ws.length → (sha2Expand s0 s1 n ws)[t]? = ws[t]? := by
  induction n with
  | zero =>
    intro ws
    exact ⟨rfl, fun _ _ => rfl⟩
  | succ n ih =>
    intro ws
    obtain ⟨h1, h2⟩ := ih (ws ++ [sha2Next s0 s1 ws])
    rw [List.length_append, List.length_singleton] at h1 h2
    refine ⟨by rw [sha2Expand, h1]; omega, fun t ht => ?_⟩
    rw [sha2Expand, h2 t (by omega), List.getElem?_append_left ht]

/-- Each word the expansion adds is the next one of the words before it. -/
theorem sha2Expand_next {w : Nat} (s0 s1 : BitVec w → BitVec w) (n : Nat) : ∀ (ws : List (BitVec w)) (t : Nat),
    ws.length ≤ t → t < ws.length + n →
    ∃ pre : List (BitVec w), pre.length = t ∧ (∀ j, j < t → (sha2Expand s0 s1 n ws)[j]? = pre[j]?) ∧
      (sha2Expand s0 s1 n ws)[t]? = some (sha2Next s0 s1 pre) := by
  induction n with
  | zero =>
    intro ws t h1 h2
    omega
  | succ n ih =>
    intro ws t h1 h2
    rw [sha2Expand]
    by_cases h : t = ws.length
    · subst h
      obtain ⟨-, hp⟩ := sha2Expand_keeps s0 s1 n (ws ++ [sha2Next s0 s1 ws])
      refine ⟨ws, rfl, fun j hj => ?_, ?_⟩
      · rw [hp j (by simp; omega), List.getElem?_append_left hj]
      · rw [hp _ (by simp)]
        simp
    · exact ih _ t (by simp; omega) (by simp; omega)

end Sys2Proof.Machine
end

