-- ==== Sys2Proof/Laws/Encoding.lean ====
section
/-! SUPPORT. The fields of a packed command word (30_encoding.md R120, R122). -/

namespace Sys2Proof

/-- A command word as a number: its four fields at their places (R120). -/
theorem toNat_packCmd (o a : BitVec 4) (b : Byte) (n : BitVec 48) :
    (packCmd o a b n).toNat = o.toNat * 2 ^ 60 + a.toNat * 2 ^ 56 + b.toNat * 2 ^ 48 + n.toNat := by
  have h : (packCmd o a b n).toNat = (o ++ a ++ b ++ n : BitVec (4 + 4 + 8 + 48)).toNat := rfl
  have ho := o.isLt; have ha := a.isLt; have hb := b.isLt; have hn := n.isLt
  rw [h, BitVec.toNat_append, ← Nat.shiftLeft_add_eq_or_of_lt n.isLt, BitVec.toNat_append,
    ← Nat.shiftLeft_add_eq_or_of_lt b.isLt, BitVec.toNat_append, ← Nat.shiftLeft_add_eq_or_of_lt a.isLt]
  simp only [Nat.shiftLeft_eq]
  omega

/-- The `OP` field of a packed word. -/
@[simp] theorem cmdOp_packCmd (o a : BitVec 4) (b : Byte) (n : BitVec 48) : cmdOp (packCmd o a b n) = o := by
  apply BitVec.eq_of_toNat_eq
  have ho := o.isLt; have ha := a.isLt; have hb := b.isLt; have hn := n.isLt
  simp only [cmdOp, BitVec.extractLsb'_toNat, toNat_packCmd, Nat.shiftRight_eq_div_pow]
  omega

/-- The `ALG` field of a packed word. -/
@[simp] theorem cmdAlg_packCmd (o a : BitVec 4) (b : Byte) (n : BitVec 48) : cmdAlg (packCmd o a b n) = a := by
  apply BitVec.eq_of_toNat_eq
  have ho := o.isLt; have ha := a.isLt; have hb := b.isLt; have hn := n.isLt
  simp only [cmdAlg, BitVec.extractLsb'_toNat, toNat_packCmd, Nat.shiftRight_eq_div_pow]
  omega

/-- The `BYTE` field of a packed word. -/
@[simp] theorem cmdByte_packCmd (o a : BitVec 4) (b : Byte) (n : BitVec 48) : cmdByte (packCmd o a b n) = b := by
  apply BitVec.eq_of_toNat_eq
  have ho := o.isLt; have ha := a.isLt; have hb := b.isLt; have hn := n.isLt
  simp only [cmdByte, BitVec.extractLsb'_toNat, toNat_packCmd, Nat.shiftRight_eq_div_pow]
  omega

/-- The `N` field of a packed word. -/
@[simp] theorem cmdN_packCmd (o a : BitVec 4) (b : Byte) (n : BitVec 48) : cmdN (packCmd o a b n) = n := by
  apply BitVec.eq_of_toNat_eq
  have ho := o.isLt; have ha := a.isLt; have hb := b.isLt; have hn := n.isLt
  simp only [cmdN, BitVec.extractLsb'_toNat, toNat_packCmd, Nat.shiftRight_eq_div_pow]
  omega

/-- A word is its four fields. -/
theorem packCmd_fields (w : Word64) : packCmd (cmdOp w) (cmdAlg w) (cmdByte w) (cmdN w) = w := by
  apply BitVec.eq_of_toNat_eq
  have hw := w.isLt
  simp only [toNat_packCmd, cmdOp, cmdAlg, cmdByte, cmdN, BitVec.extractLsb'_toNat, Nat.shiftRight_eq_div_pow]
  omega

/-- A mask acts on each field by itself. -/
theorem packCmd_and (o a o' a' : BitVec 4) (b b' : Byte) (n n' : BitVec 48) :
    packCmd o a b n &&& packCmd o' a' b' n' = packCmd (o &&& o') (a &&& a') (b &&& b') (n &&& n') := by
  have h : packCmd o a b n &&& packCmd o' a' b' n' = (o ++ a ++ b ++ n : BitVec (4 + 4 + 8 + 48)) &&& (o' ++ a' ++ b' ++ n' : BitVec (4 + 4 + 8 + 48)) := rfl
  have h2 : packCmd (o &&& o') (a &&& a') (b &&& b') (n &&& n') = ((o &&& o') ++ (a &&& a') ++ (b &&& b') ++ (n &&& n') : BitVec (4+4+8+48)) := rfl
  rw [h, h2]; simp only [BitVec.and_append]

/-- Every word of a row with the given fields matches it. -/
theorem matches_packCmd (o a o' a' : BitVec 4) (b b' : Byte) (n n' : BitVec 48) (r : OpcodeRow)
    (hm : r.mask = packCmd o' a' b' n') (hb : r.bits = packCmd (o &&& o') (a &&& a') (b &&& b') (n &&& n')) :
    r.matches (packCmd o a b n) = true := by
  simp only [OpcodeRow.matches, hm, hb, packCmd_and, beq_self_eq_true]

/-- The code of an algorithm stands for it and for no other (R124). -/
@[simp] theorem Alg.ofCode_code (a : Alg) : Alg.ofCode a.code = some a := by cases a <;> rfl

/-- The twelve INIT instructions are the algorithms' (R250). -/
@[simp] theorem Instr.initAlg_init (a : Alg) : (Instr.init a).initAlg = some a := by cases a <;> rfl

/-- An instruction that selects an algorithm is its INIT. -/
theorem Instr.eq_init_of_initAlg (i : Instr) (a : Alg) (h : i.initAlg = some a) : i = Instr.init a := by
  cases i <;> simp_all [Instr.initAlg] <;> subst h <;> rfl

end Sys2Proof
end

