-- ==== Sys2Proof/Laws/Memory.lean ====
section
/-! SUPPORT. The window as plain data: a read after a write, and that every memory operation keeps the canonical form and
stays inside the window. -/

namespace Sys2Proof.Machine

/-- A read after a write: the byte written, or what was there before. -/
theorem Memory.read_write (m : Memory) (off x : Nat) (v : Byte) :
    (m.write off v).read x = if x = off then some v else m.read x := by
  induction m with
  | nil => simp [Memory.write, Memory.read, eq_comm]
  | cons c rest ih =>
    obtain ⟨a, b⟩ := c
    by_cases h1 : off < a
    · by_cases h : x = off
      · simp [Memory.write, h1, Memory.read, h]
      · simp [Memory.write, h1, Memory.read, h, Ne.symm h]
    · by_cases h2 : off = a
      · subst h2
        by_cases h : x = off
        · simp [Memory.write, Memory.read, h]
        · simp [Memory.write, Memory.read, h, Ne.symm h]
      · by_cases h3 : a = x
        · subst h3
          simp [Memory.write, h1, h2, Memory.read, Ne.symm h2]
        · simp [Memory.write, h1, h2, Memory.read, h3, ih]

/-- The byte just written reads back. -/
@[simp] theorem Memory.read_write_self (m : Memory) (off : Nat) (v : Byte) : (m.write off v).read off = some v := by
  simp [Memory.read_write]

/-- A write leaves every other byte alone. -/
theorem Memory.read_write_of_ne (m : Memory) (off x : Nat) (v : Byte) (h : x ≠ off) :
    (m.write off v).read x = m.read x := by simp [Memory.read_write, h]

/-- The cells after a write are the one written and cells from before. -/
theorem Memory.mem_write (m : Memory) (off : Nat) (v : Byte) (c : Host.Cell) (h : c ∈ m.write off v) :
    c = (off, v) ∨ c ∈ m := by
  induction m with
  | nil => simp_all [Memory.write]
  | cons d rest ih =>
    obtain ⟨a, b⟩ := d
    unfold Memory.write at h
    split at h
    · simp_all
    · split at h
      · simp only [List.mem_cons] at h ⊢
        tauto
      · simp only [List.mem_cons] at h ⊢
        rcases h with h | h
        · exact Or.inr (Or.inl h)
        · rcases ih h with h | h
          · exact Or.inl h
          · exact Or.inr (Or.inr h)

/-- A write keeps the canonical form. -/
theorem Memory.wf_write (m : Memory) (off : Nat) (v : Byte) (h : m.wf) : (m.write off v).wf := by
  induction m with
  | nil => simp [Memory.write, Memory.wf]
  | cons d rest ih =>
    obtain ⟨a, b⟩ := d
    have hr : Memory.wf rest := (List.pairwise_cons.mp h).2
    have ha := (List.pairwise_cons.mp h).1
    unfold Memory.write
    split
    · rename_i hlt
      refine List.pairwise_cons.mpr ⟨?_, h⟩
      intro c hc
      rcases List.mem_cons.mp hc with hc | hc
      · subst hc; exact hlt
      · exact Nat.lt_trans hlt (ha c hc)
    · split
      · rename_i heq
        subst heq
        exact List.pairwise_cons.mpr ⟨ha, hr⟩
      · refine List.pairwise_cons.mpr ⟨?_, ih hr⟩
        intro c hc
        rcases Memory.mem_write rest off v c hc with hc | hc
        · subst hc; show a < off; omega
        · exact ha c hc

/-- A write inside a bound keeps every cell inside it. -/
theorem Memory.bound_write (m : Memory) (off n : Nat) (v : Byte) (h : ∀ c ∈ m, c.1 < n) (ho : off < n) :
    ∀ c ∈ m.write off v, c.1 < n := by
  intro c hc
  rcases Memory.mem_write m off v c hc with hc | hc
  · subst hc; exact ho
  · exact h c hc

/-- A list of bytes written: the bytes at their offsets, and every other byte as before. -/
theorem Memory.read_writeBytes (m : Memory) (off x : Nat) (bytes : List Byte) :
    (m.writeBytes off bytes).read x =
      if off ≤ x ∧ x < off + bytes.length then bytes[x - off]? else m.read x := by
  induction bytes generalizing m off with
  | nil => simp only [Memory.writeBytes, List.length_nil]; rw [if_neg (by omega)]
  | cons b rest ih =>
    simp only [Memory.writeBytes, ih, List.length_cons, Memory.read_write]
    by_cases h1 : off + 1 ≤ x ∧ x < off + 1 + rest.length
    · have e : x - off = (x - (off + 1)) + 1 := by omega
      rw [if_pos h1, if_pos (by omega), e, List.getElem?_cons_succ]
    · rw [if_neg h1]
      by_cases h2 : x = off
      · subst h2; simp
      · rw [if_neg h2, if_neg (by omega)]

/-- A list of bytes written keeps the canonical form. -/
theorem Memory.wf_writeBytes (m : Memory) (off : Nat) (bytes : List Byte) (h : m.wf) :
    (m.writeBytes off bytes).wf := by
  induction bytes generalizing m off with
  | nil => exact h
  | cons b rest ih => exact ih _ _ (Memory.wf_write m off b h)

/-- A list of bytes written inside a bound keeps every cell inside it. -/
theorem Memory.bound_writeBytes (m : Memory) (off n : Nat) (bytes : List Byte) (h : ∀ c ∈ m, c.1 < n)
    (ho : off + bytes.length ≤ n) : ∀ c ∈ m.writeBytes off bytes, c.1 < n := by
  induction bytes generalizing m off with
  | nil => exact h
  | cons b rest ih =>
    simp only [List.length_cons] at ho
    exact ih _ _ (Memory.bound_write m off n b h (by omega)) (by omega)

/-- Reading bytes succeeds exactly with the bytes that are there. -/
theorem Memory.readBytes_eq_some (m : Memory) (off : Nat) (bytes : List Byte)
    (h : ∀ k (hk : k < bytes.length), m.read (off + k) = some bytes[k]) :
    m.readBytes off bytes.length = some bytes := by
  induction bytes generalizing off with
  | nil => rfl
  | cons b rest ih =>
    have h0 := h 0 (by simp)
    have hr := ih (off + 1) (fun k hk => by
      have := h (k + 1) (by simpa using hk)
      rw [List.getElem_cons_succ] at this
      rw [← this]
      congr 1
      omega)
    simp only [Nat.add_zero, List.getElem_cons_zero] at h0
    simp [Memory.readBytes, h0, hr]

/-- The landing of overlapping writes keeps the canonical form. -/
theorem Memory.wf_foldl_write (ws : List RaceWrite) (m : Memory) (h : m.wf) :
    (ws.foldl (fun (m : Memory) w => m.write w.offset w.value) m).wf := by
  induction ws generalizing m with
  | nil => exact h
  | cons w rest ih => exact ih _ (Memory.wf_write m w.offset w.value h)

/-- The landing of overlapping writes inside a bound keeps every cell inside it. -/
theorem Memory.bound_foldl_write (ws : List RaceWrite) (m : Memory) (n : Nat) (h : ∀ c ∈ m, c.1 < n)
    (hw : ∀ w ∈ ws, w.offset < n) : ∀ c ∈ ws.foldl (fun (m : Memory) w => m.write w.offset w.value) m, c.1 < n := by
  induction ws generalizing m with
  | nil => exact h
  | cons w rest ih =>
    exact ih _ (Memory.bound_write m _ n _ h (hw w (by simp))) (fun x hx => hw x (by simp [hx]))

/-- The landing of overlapping writes changes no byte but theirs. -/
theorem Memory.read_foldl_write (ws : List RaceWrite) (m : Memory) (x : Nat) (hw : ∀ w ∈ ws, w.offset ≠ x) :
    (ws.foldl (fun (m : Memory) w => m.write w.offset w.value) m).read x = m.read x := by
  induction ws generalizing m with
  | nil => rfl
  | cons w rest ih =>
    rw [List.foldl_cons, ih _ (fun y hy => hw y (by simp [hy])),
      Memory.read_write_of_ne _ _ _ _ (Ne.symm (hw w (by simp)))]

end Sys2Proof.Machine
end

