-- ==== Sys2Proof/Laws/Exec.lean ====
section
/-! SUPPORT. Once for each shared operation and each command: everything it can do. Later proofs cite these and do not
unfold the meanings. -/

namespace Sys2Proof.Machine

/-- An update or DIGEST runs with the stream's algorithm, or records NOT_INIT. -/
theorem State.withAlg_of_ready (s : State) (a : Alg) (k : Alg → Result) (hr : s.ready = true) (ha : s.alg = some a) :
    s.withAlg k = k a := by simp [State.withAlg, hr, ha]

theorem State.withAlg_of_not_ready (s : State) (k : Alg → Result) (hr : s.ready = false) :
    s.withAlg k = .next (s.raise .notInit) := by simp [State.withAlg, hr]

theorem State.withAlg_next (s t : State) (k : Alg → Result) (h : s.withAlg k = .next t) :
    (s.ready = false ∧ t = s.raise .notInit) ∨ (s.ready = true ∧ ∃ a, s.alg = some a ∧ k a = .next t) := by
  unfold State.withAlg at h
  split at h
  · rename_i hr
    split at h
    · rename_i a ha
      exact Or.inr ⟨hr, a, ha, h⟩
    · cases h
  · rename_i hr
    cases h
    exact Or.inl ⟨by simpa using hr, rfl⟩

theorem State.guardCount_of_le (s : State) (a : Alg) (k : Nat) (run : Result) (h : s.count.toNat + k ≤ a.limit) :
    s.guardCount a k run = run := by simp [State.guardCount, Nat.not_lt.mpr h]

theorem State.guardCount_of_lt (s : State) (a : Alg) (k : Nat) (run : Result) (h : a.limit < s.count.toNat + k) :
    s.guardCount a k run = .next (s.raise .countOverflow) := by simp [State.guardCount, h]

/-- A span of known bytes. -/
theorem State.spanBytes_eq_some (s : State) (off : Nat) (bytes : List Byte)
    (h : ∀ k (hk : k < bytes.length), s.memRead .absorb (off + k) = some bytes[k]) :
    s.spanBytes off bytes.length = some bytes := by
  induction bytes generalizing off with
  | nil => rfl
  | cons b rest ih =>
    have h0 := h 0 (by simp)
    have hr := ih (off + 1) (fun k hk => by
      have := h (k + 1) (by simpa using hk)
      rw [List.getElem_cons_succ] at this
      rw [← this]
      congr 1
      omega)
    simp only [Nat.add_zero, List.getElem_cons_zero] at h0
    simp [State.spanBytes, h0, hr]

/-- A span that is read has its length and its bytes. -/
theorem State.spanBytes_some (s : State) (off n : Nat) (bytes : List Byte) (h : s.spanBytes off n = some bytes) :
    bytes.length = n ∧ ∀ k (hk : k < bytes.length), s.memRead .absorb (off + k) = some bytes[k] := by
  induction n generalizing off bytes with
  | zero => cases h; simp
  | succ n ih =>
    unfold State.spanBytes at h
    split at h
    · cases h
    · rename_i b hb
      split at h
      · cases h
      · rename_i rest hrest
        cases h
        obtain ⟨hl, hk⟩ := ih _ _ hrest
        refine ⟨by simp [hl], fun k hk' => ?_⟩
        cases k with
        | zero => simpa using hb
        | succ k =>
          have := hk k (by simpa using hk')
          rw [List.getElem_cons_succ, ← this]
          congr 1
          omega

/-- A span is not read exactly when one of its bytes has no value. -/
theorem State.spanBytes_none (s : State) (off n : Nat) :
    s.spanBytes off n = none ↔ ∃ k < n, s.memRead .absorb (off + k) = none := by
  induction n generalizing off with
  | zero => simp [State.spanBytes]
  | succ n ih =>
    unfold State.spanBytes
    constructor
    · intro h
      split at h
      · rename_i hb
        exact ⟨0, by omega, hb⟩
      · split at h
        · rename_i hrest
          obtain ⟨k, hk, hn⟩ := (ih (off + 1)).mp hrest
          exact ⟨k + 1, by omega, by rw [← hn]; congr 1; omega⟩
        · cases h
    · rintro ⟨k, hk, hn⟩
      cases hb : s.memRead .absorb off with
      | none => rfl
      | some b =>
        cases k with
        | zero => simp [hb] at hn
        | succ k =>
          have : s.spanBytes (off + 1) n = none :=
            (ih (off + 1)).mpr ⟨k, by omega, by rw [← hn]; congr 1; omega⟩
          simp [this]

/-- The search for a terminator finds the first zero byte. -/
theorem State.findZero_found (s : State) (off n z : Nat) :
    s.findZero off n = .found z ↔
      ∃ k < n, z = off + k ∧ s.memRead .scan (off + k) = some 0 ∧
        ∀ j < k, ∃ b, s.memRead .scan (off + j) = some b ∧ b ≠ 0 := by
  induction n generalizing off with
  | zero => simp [State.findZero]
  | succ n ih =>
    unfold State.findZero
    cases hb : s.memRead .scan off with
    | none =>
      simp only [reduceCtorEq, false_iff, not_exists, not_and]
      intro k _ _ hk hj
      cases k with
      | zero => simp [hb] at hk
      | succ k => obtain ⟨b, h, -⟩ := hj 0 (by omega); simp [hb] at h
    | some b =>
      by_cases hz : b = 0
      · simp only [hz, if_true]
        constructor
        · intro h
          cases h
          exact ⟨0, by omega, by omega, by simpa [hz] using hb, by omega⟩
        · rintro ⟨k, _, rfl, hk, hj⟩
          cases k with
          | zero => rfl
          | succ k =>
            obtain ⟨b', h, hne⟩ := hj 0 (by omega)
            simp only [Nat.add_zero, hb, Option.some.injEq] at h
            exact absurd (h ▸ hz) hne
      · simp only [hz, if_false, ih]
        constructor
        · rintro ⟨k, hk, rfl, h0, hj⟩
          refine ⟨k + 1, by omega, by omega, by rw [← h0]; congr 1; omega, fun j hj' => ?_⟩
          cases j with
          | zero => exact ⟨b, by simpa using hb, hz⟩
          | succ j =>
            obtain ⟨b', h, hne⟩ := hj j (by omega)
            exact ⟨b', by rw [← h]; congr 1; omega, hne⟩
        · rintro ⟨k, hk, rfl, h0, hj⟩
          cases k with
          | zero =>
            simp only [Nat.add_zero, hb, Option.some.injEq] at h0
            exact absurd h0 hz
          | succ k =>
            refine ⟨k, by omega, by omega, by rw [← h0]; congr 1; omega, fun j hj' => ?_⟩
            obtain ⟨b', h, hne⟩ := hj (j + 1) (by omega)
            exact ⟨b', by rw [← h]; congr 1; omega, hne⟩

/-- The search stops where a byte without a value comes before any zero byte. -/
theorem State.findZero_unwritten (s : State) (off n : Nat) :
    s.findZero off n = .unwritten ↔
      ∃ k < n, s.memRead .scan (off + k) = none ∧ ∀ j < k, ∃ b, s.memRead .scan (off + j) = some b ∧ b ≠ 0 := by
  induction n generalizing off with
  | zero => simp [State.findZero]
  | succ n ih =>
    unfold State.findZero
    cases hb : s.memRead .scan off with
    | none => simp only [true_iff]; exact ⟨0, by omega, by simpa using hb, by omega⟩
    | some b =>
      by_cases hz : b = 0
      · simp only [hz, if_true, reduceCtorEq, false_iff, not_exists, not_and]
        intro k _ hk hj
        cases k with
        | zero => simp [hb] at hk
        | succ k =>
          obtain ⟨b', h, hne⟩ := hj 0 (by omega)
          simp only [Nat.add_zero, hb, Option.some.injEq] at h
          exact hne (h ▸ hz)
      · simp only [hz, if_false, ih]
        constructor
        · rintro ⟨k, hk, h0, hj⟩
          refine ⟨k + 1, by omega, by rw [← h0]; congr 1; omega, fun j hj' => ?_⟩
          cases j with
          | zero => exact ⟨b, by simpa using hb, hz⟩
          | succ j =>
            obtain ⟨b', h, hne⟩ := hj j (by omega)
            exact ⟨b', by rw [← h]; congr 1; omega, hne⟩
        · rintro ⟨k, hk, h0, hj⟩
          cases k with
          | zero => simp [hb] at h0
          | succ k =>
            refine ⟨k, by omega, by rw [← h0]; congr 1; omega, fun j hj' => ?_⟩
            obtain ⟨b', h, hne⟩ := hj (j + 1) (by omega)
            exact ⟨b', by rw [← h]; congr 1; omega, hne⟩

/-- The search finds nothing exactly where every byte is known and none is zero. -/
theorem State.findZero_noZero (s : State) (off n : Nat) :
    s.findZero off n = .noZero ↔ ∀ k < n, ∃ b, s.memRead .scan (off + k) = some b ∧ b ≠ 0 := by
  induction n generalizing off with
  | zero => simp [State.findZero]
  | succ n ih =>
    unfold State.findZero
    cases hb : s.memRead .scan off with
    | none =>
      simp only [reduceCtorEq, false_iff, not_forall]
      exact ⟨0, by omega, by simp [hb]⟩
    | some b =>
      by_cases hz : b = 0
      · simp only [hz, if_true, reduceCtorEq, false_iff, not_forall]
        exact ⟨0, by omega, by simp [hb, hz]⟩
      · simp only [hz, if_false, ih]
        constructor
        · intro h k hk
          cases k with
          | zero => exact ⟨b, by simpa using hb, hz⟩
          | succ k =>
            obtain ⟨b', h', hne⟩ := h k (by omega)
            exact ⟨b', by rw [← h']; congr 1; omega, hne⟩
        · intro h k hk
          obtain ⟨b', h', hne⟩ := h (k + 1) (by omega)
          exact ⟨b', by rw [← h']; congr 1; omega, hne⟩

/-- Every next state of every command: a new stream, a new `SRC`, a digest, a refusal, or an update that reads its bytes
and may move `SRC`. -/
inductive ExecCase (s t : State) (i : Instr) : Prop where
  /-- INIT (R250). -/
  | init (a : Alg) (hi : i.initAlg = some a) (h : t = s.initStream a)
  /-- SETSRC (R262). -/
  | setsrc (off : BitVec 48) (hi : i = .setsrc off) (h : t = { s with src := off })
  /-- DIGEST (R290). -/
  | digest (a : Alg) (hi : i = .digest) (hr : s.ready = true) (ha : s.alg = some a)
      (h : t = s.setDigest a (finalize a s.acc))
  /-- An update or DIGEST refused (R601, R602). -/
  | refused (code : ECode) (hi : isUpdate i = true ∨ i = .digest) (hc : code ≠ .none)
      (hn : i = .digest → code = .notInit ∧ s.ready = false) (h : t = s.raise code)
  /-- An update that completes (R260, R264, R266); UPDR leaves `SRC` as it is. -/
  | update (a : Alg) (src : BitVec 48) (hi : isUpdate i = true) (hr : s.ready = true)
      (ha : s.alg = some a) (hl : s.count.toNat + (updateBytes i s).length ≤ a.limit)
      (hs : ∀ b n, i = .updr b n → src = s.src)
      (h : t = { s.setAcc (absorbSeq a s.acc (updateBytes i s)) with src := src })

/-- The next states of UPDR (R260). -/
theorem execUpdr_cases (byte : Byte) (count : BitVec 48) (s t : State) (h : execUpdr byte count s = .next t) :
    ExecCase s t (.updr byte count) := by
  rcases State.withAlg_next s t _ h with ⟨_, ht⟩ | ⟨hr, a, ha, hk⟩
  · exact .refused _ (Or.inl rfl) (by decide) (by simp) ht
  · unfold State.guardCount at hk
    split at hk
    · cases hk
      exact .refused _ (Or.inl rfl) (by decide) (by simp) rfl
    · rename_i hle
      cases hk
      have hl : (updateBytes (.updr byte count) s).length = count.toNat := List.length_replicate
      exact .update a s.src rfl hr ha (hl ▸ Nat.le_of_not_lt hle) (fun _ _ _ => rfl) rfl

/-- The next states of UPDS (R264). -/
theorem execUpds_cases (length : BitVec 48) (s t : State) (h : execUpds length s = .next t) :
    ExecCase s t (.upds length) := by
  rcases State.withAlg_next s t _ h with ⟨_, ht⟩ | ⟨hr, a, ha, hk⟩
  · exact .refused _ (Or.inl rfl) (by decide) (by simp) ht
  · split at hk
    · cases hk
      exact .refused _ (Or.inl rfl) (by decide) (by simp) rfl
    · unfold State.guardCount State.absorbSpan at hk
      split at hk
      · cases hk
        exact .refused _ (Or.inl rfl) (by decide) (by simp) rfl
      · rename_i hle
        split at hk
        · cases hk
        · rename_i bytes hb
          cases hk
          have hl := (State.spanBytes_some s _ _ bytes hb).1
          have he : updateBytes (.upds length) s = bytes := by unfold updateBytes; dsimp only; rw [hb]; rfl
          have hc := Nat.le_of_not_lt hle
          rw [← hl, ← he] at hc
          exact .update a _ rfl hr ha hc (by intro _ _ h; cases h) (by rw [he]; rfl)

/-- The next states of UPDZ (R266). -/
theorem execUpdz_cases (s t : State) (h : execUpdz s = .next t) : ExecCase s t .updz := by
  rcases State.withAlg_next s t _ h with ⟨_, ht⟩ | ⟨hr, a, ha, hk⟩
  · exact .refused _ (Or.inl rfl) (by decide) (by simp) ht
  · split at hk
    · cases hk
    · cases hk
      exact .refused _ (Or.inl rfl) (by decide) (by simp) rfl
    · rename_i z hz
      unfold State.guardCount State.absorbSpan at hk
      split at hk
      · cases hk
        exact .refused _ (Or.inl rfl) (by decide) (by simp) rfl
      · rename_i hle
        split at hk
        · cases hk
        · rename_i bytes hb
          cases hk
          have hl := (State.spanBytes_some s _ _ bytes hb).1
          have he : updateBytes .updz s = bytes := by unfold updateBytes; rw [hz]; dsimp only; rw [hb]; rfl
          have hc := Nat.le_of_not_lt hle
          rw [← hl, ← he] at hc
          exact .update a _ rfl hr ha hc (by intro _ _ h; cases h) (by rw [he]; rfl)

/-- The next states of DIGEST (R290). -/
theorem execDigest_cases (s t : State) (h : execDigest s = .next t) : ExecCase s t .digest := by
  rcases State.withAlg_next s t _ h with ⟨hr, ht⟩ | ⟨hr, a, ha, hk⟩
  · exact .refused _ (Or.inr rfl) (by decide) (fun _ => ⟨rfl, hr⟩) ht
  · cases hk
    exact .digest a rfl hr ha rfl

/-- Every next state of every command. -/
theorem exec_cases (i : Instr) (s t : State) (h : exec i s = .next t) : ExecCase s t i := by
  cases i with
  | updr byte count => exact execUpdr_cases byte count s t h
  | setsrc off => cases h; exact .setsrc off rfl rfl
  | upds length => exact execUpds_cases length s t h
  | updz => exact execUpdz_cases s t h
  | digest => exact execDigest_cases s t h
  | initMd5 => cases h; exact .init .md5 rfl rfl
  | initSha1 => cases h; exact .init .sha1 rfl rfl
  | initSha224 => cases h; exact .init .sha224 rfl rfl
  | initSha256 => cases h; exact .init .sha256 rfl rfl
  | initSha384 => cases h; exact .init .sha384 rfl rfl
  | initSha512 => cases h; exact .init .sha512 rfl rfl
  | initSha512_224 => cases h; exact .init .sha512_224 rfl rfl
  | initSha512_256 => cases h; exact .init .sha512_256 rfl rfl
  | initRmd128 => cases h; exact .init .rmd128 rfl rfl
  | initRmd160 => cases h; exact .init .rmd160 rfl rfl
  | initRmd256 => cases h; exact .init .rmd256 rfl rfl
  | initRmd320 => cases h; exact .init .rmd320 rfl rfl

/-- An update selects no algorithm. -/
theorem initAlg_of_isUpdate (i : Instr) (h : isUpdate i = true) : i.initAlg = none := by cases i <;> first | rfl | cases h

/-- Every next state of an update: a refusal, or its bytes absorbed. -/
theorem update_cases (i : Instr) (s t : State) (hu : isUpdate i = true) (h : exec i s = .next t) :
    (∃ code, code ≠ .none ∧ t = s.raise code) ∨
    (∃ a src, s.ready = true ∧ s.alg = some a ∧ s.count.toNat + (updateBytes i s).length ≤ a.limit ∧
      t = { s.setAcc (absorbSeq a s.acc (updateBytes i s)) with src := src }) := by
  cases exec_cases i s t h with
  | init a hi => rw [initAlg_of_isUpdate i hu] at hi; cases hi
  | setsrc off hi => subst hi; cases hu
  | digest a hi => subst hi; cases hu
  | refused code _ hc _ h => exact Or.inl ⟨code, hc, h⟩
  | update a src _ hr ha hl _ h => exact Or.inr ⟨a, src, hr, ha, hl, h⟩

end Sys2Proof.Machine
end

