-- ==== Sys2Proof/Laws/Words.lean ====
section
/-! SUPPORT. The word serializers and loads as numbers and as byte lists (40_primitives.md R207 to R211). -/

namespace Sys2Proof.Machine

/-- The number of bytes a serializer returns (R209). -/
@[simp] theorem storeLE_length {m : Nat} (x : BitVec m) : (storeLE x).length = m / 8 := by simp [storeLE]

/-- The number of bytes a serializer returns, in either order (R211). -/
@[simp] theorem store_length (e : Endian) {m : Nat} (x : BitVec m) : (store e x).length = m / 8 := by
  cases e <;> simp [store, storeBE]

/-- A byte list is a number below the power of its length (R207). -/
theorem leValue_lt (s : List Byte) : leValue s < 2 ^ (8 * s.length) := by
  induction s with
  | nil => simp [leValue]
  | cons b s ih =>
    simp only [leValue, List.length_cons]
    have := b.isLt
    rw [show 8 * (s.length + 1) = 8 * s.length + 8 by omega, Nat.pow_add]
    omega

/-- Digit `j` in base 256 of the number is byte `j` of the list (R207). -/
theorem leValue_digit (s : List Byte) : ∀ j, j < s.length → leValue s / 2 ^ (8 * j) % 256 = (s.getD j 0).toNat := by
  induction s with
  | nil =>
    intro j h
    simp at h
  | cons b s ih =>
    intro j h
    have hb := b.isLt
    cases j with
    | zero =>
      simp [leValue]
      omega
    | succ j =>
      have := ih j (by simpa using h)
      rw [leValue, show 8 * (j + 1) = 8 + 8 * j by omega, Nat.pow_add, ← Nat.div_div_eq_div_mul,
        show (b.toNat + 256 * leValue s) / 2 ^ 8 = leValue s by omega, this]
      rfl

/-- Byte `j` of a loaded word is byte `j` of the list (R207). -/
theorem loadLE_byte (n : Nat) (s : List Byte) (j : Nat) (h : j < s.length) (hn : 8 * s.length ≤ n) :
    (loadLE n s).extractLsb' (8 * j) 8 = s.getD j 0 := by
  apply BitVec.eq_of_toNat_eq
  have h1 := leValue_lt s
  have h2 : leValue s < 2 ^ n := Nat.lt_of_lt_of_le h1 (Nat.pow_le_pow_right (by omega) hn)
  rw [BitVec.extractLsb'_toNat, loadLE, BitVec.toNat_ofNat, Nat.mod_eq_of_lt h2, Nat.shiftRight_eq_div_pow,
    leValue_digit s j h]

/-- The number of `n` successive bytes of a word, from byte `off` on (R209). -/
theorem leValue_bytes {w : Nat} (x : BitVec w) (n : Nat) : ∀ off : Nat,
    leValue ((List.range' off n).map fun j => x.extractLsb' (8 * j) 8) = x.toNat / 2 ^ (8 * off) % 2 ^ (8 * n) := by
  induction n with
  | zero =>
    intro off
    simp [leValue, Nat.mod_one]
  | succ n ih =>
    intro off
    rw [List.range'_succ, List.map_cons, leValue, ih, BitVec.extractLsb'_toNat, Nat.shiftRight_eq_div_pow,
      show 8 * (off + 1) = 8 * off + 8 by omega, show 8 * (n + 1) = 8 + 8 * n by omega, Nat.pow_add,
      ← Nat.div_div_eq_div_mul, Nat.pow_add, Nat.mod_mul]

/-- Byte `j` of a serialized word (R209 to R211). -/
theorem store_getD (e : Endian) {m : Nat} (x : BitVec m) (j : Nat) (hj : j < m / 8) :
    (store e x).getD j 0 = x.extractLsb' (8 * (match e with | .little => j | .big => m / 8 - 1 - j)) 8 := by
  cases e
  · simp [store, storeLE, List.getD_eq_getElem?_getD, hj]
  · simp only [store, storeBE, List.getD_eq_getElem?_getD]
    rw [List.getElem?_reverse (by rw [storeLE_length]; exact hj), storeLE_length]
    have : m / 8 - 1 - j < m / 8 := by omega
    simp [storeLE, this]

end Sys2Proof.Machine
end

