-- ==== Sys2Proof/Laws/Message.lean ====
section
/-! SUPPORT. The accumulator against the message it has absorbed (10_state.md R36, 41_accumulator.md R240), and the steps of
the finalizer (42_finalizer.md R291, R292). -/

namespace Sys2Proof.Machine

/-- A whole block of a message is that of every longer message. -/
theorem blockAt_append (a : Alg) (msg x : List Byte) (j : Nat) (h : (j + 1) * a.blockBytes ≤ msg.length) :
    blockAt a (msg ++ x) j = blockAt a msg j := by
  rw [Nat.succ_mul] at h
  unfold blockAt byteSlice
  rw [List.drop_append_of_le_length (by omega), List.take_append_of_le_length (by simp; omega)]

/-- The chaining value of whole blocks is that of every longer message. -/
theorem chain_append (a : Alg) (msg x : List Byte) (k : Nat) (h : k * a.blockBytes ≤ msg.length) :
    chain a (msg ++ x) k = chain a msg k := by
  induction k with
  | zero => rfl
  | succ k ih =>
    have hk : k * a.blockBytes ≤ msg.length := by
      rw [Nat.succ_mul] at h
      omega
    rw [chain, chain, ih hk, blockAt_append a msg x k h]

/-- The buffer up to and with a byte just written. -/
theorem take_set_succ {n : Nat} (v : Vector Byte n) (r : Nat) (b : Byte) (h : r < n) :
    ((v.set r b h).toList).take (r + 1) = v.toList.take r ++ [b] := by
  rw [Vector.toList_set, List.take_succ_eq_append_getElem (by simpa using h), List.getElem_set_self,
    List.take_set_of_le (Nat.le_refl r)]

/-- One byte more: either the block is not full, or it is and the cursor returns to 0. -/
theorem div_mod_step (n B : Nat) (hB : 0 < B) :
    (n % B + 1 < B ∧ (n + 1) / B = n / B ∧ (n + 1) % B = n % B + 1) ∨
    (n % B + 1 = B ∧ (n + 1) / B = n / B + 1 ∧ (n + 1) % B = 0) := by
  have hm := Nat.mod_lt n hB
  have hd := Nat.div_add_mod n B
  rcases Nat.lt_or_ge (n % B + 1) B with h | h
  · left
    refine ⟨h, ?_, ?_⟩
    · rw [show n + 1 = (n % B + 1) + B * (n / B) by omega, Nat.add_mul_div_left _ _ hB, Nat.div_eq_of_lt h]
      omega
    · rw [show n + 1 = (n % B + 1) + B * (n / B) by omega, Nat.add_mul_mod_self_left, Nat.mod_eq_of_lt h]
  · right
    have e : n % B + 1 = B := by omega
    refine ⟨e, ?_, ?_⟩
    · rw [show n + 1 = B + B * (n / B) by omega, Nat.add_mul_div_left _ _ hB, Nat.div_self hB]
      omega
    · rw [show n + 1 = B + B * (n / B) by omega, Nat.add_mul_mod_self_left, Nat.mod_self]

/-- Right after INIT the accumulator is that of the empty message (R250). -/
theorem accumulates_init (a : Alg) : Accumulates a [] (accInit a) := by
  refine ⟨rfl, ?_, ?_⟩ <;> simp [accInit, chain]

/-- Absorbing a byte extends the message by it (R240). -/
theorem accumulates_absorb (a : Alg) (msg : List Byte) (c : Acc) (b : Byte) (h : Accumulates a msg c)
    (hl : msg.length + 1 < 2 ^ 128) : Accumulates a (msg ++ [b]) (absorb a c b) := by
  have hB := a.blockBytes_pos
  have hd := Nat.div_add_mod msg.length a.blockBytes
  rw [Nat.mul_comm] at hd
  have hm := Nat.mod_lt msg.length hB
  have hc1 : (c.count + 1).toNat = msg.length + 1 := by
    have := absorb_count_toNat a c b (by rw [h.count_eq]; exact hl)
    rw [absorb_count] at this
    rw [this, h.count_eq]
  have hst : ((c.buf.set (c.count.toNat % a.blockBytes) b (a.cursor_lt _)).toList).take (msg.length % a.blockBytes + 1) =
      (msg ++ [b]).drop (msg.length / a.blockBytes * a.blockBytes) := by
    have e := h.count_eq
    rw [List.drop_append_of_le_length (by omega), ← h.staged_eq]
    simp only [e]
    exact take_set_succ _ _ _ _
  have hlen : (msg ++ [b]).length = msg.length + 1 := by simp
  rcases div_mod_step msg.length a.blockBytes hB with ⟨h1, h2, h3⟩ | ⟨h1, h2, h3⟩
  · refine ⟨by rw [hlen]; exact hc1, ?_, ?_⟩
    · rw [hlen, h2, h3]
      exact hst
    · have : completesBlock a c.count = false := by
        unfold completesBlock
        rw [hc1, h3]
        rfl
      rw [absorb_h_of_not_completes a c b this, hlen, h2, h.chained, chain_append]
      omega
  · refine ⟨by rw [hlen]; exact hc1, ?_, ?_⟩
    · rw [hlen, h2, h3, List.take_zero, Nat.succ_mul, eq_comm, List.drop_eq_nil_iff]
      simp
      omega
    · have hcb : completesBlock a c.count = true := by
        unfold completesBlock
        rw [hc1, h3]
        rfl
      have : (absorb a c b).h = compress a c.h
          ((c.buf.set (c.count.toNat % a.blockBytes) b (a.cursor_lt _)).toList.take a.blockBytes) := by
        simp [absorb, hcb]
      rw [h1] at hst
      rw [this, hlen, h2, chain, h.chained, chain_append _ _ _ _ (by omega), hst]
      congr 1
      unfold blockAt byteSlice
      rw [List.take_of_length_le]
      simp
      omega

/-- Absorbing a sequence extends the message by it (R241). -/
theorem accumulates_absorbSeq (a : Alg) (bytes : List Byte) : ∀ (msg : List Byte) (c : Acc), Accumulates a msg c →
    msg.length + bytes.length < 2 ^ 128 → Accumulates a (msg ++ bytes) (absorbSeq a c bytes) := by
  induction bytes with
  | nil =>
    intro msg c h _
    simpa using h
  | cons b rest ih =>
    intro msg c h hl
    simp only [List.length_cons] at hl
    have e : msg ++ b :: rest = (msg ++ [b]) ++ rest := by simp
    rw [absorbSeq_cons, e]
    exact ih _ _ (accumulates_absorb a msg c b h (by omega)) (by simp; omega)

/-- How far a compression count moves the block number (R241). -/
theorem compressions_add (a : Alg) (bytes : List Byte) : ∀ c : Acc, c.count.toNat + bytes.length < 2 ^ 128 →
    compressions a c bytes + c.count.toNat / a.blockBytes = (c.count.toNat + bytes.length) / a.blockBytes := by
  induction bytes with
  | nil =>
    intro c _
    simp [compressions]
  | cons b rest ih =>
    intro c h
    simp only [List.length_cons] at h
    have hc := absorb_count_toNat a c b (by omega)
    have := ih (absorb a c b) (by rw [hc]; omega)
    rw [hc] at this
    rw [compressions, List.length_cons, show c.count.toNat + (rest.length + 1) = c.count.toNat + 1 + rest.length by omega,
      ← this]
    have hc1 : (c.count + 1).toNat = c.count.toNat + 1 := hc
    rcases div_mod_step c.count.toNat a.blockBytes a.blockBytes_pos with ⟨h1, h2, h3⟩ | ⟨h1, h2, h3⟩
    · have : completesBlock a c.count = false := by
        unfold completesBlock
        rw [hc1, h3]
        rfl
      rw [this, h2]
      simp
    · have : completesBlock a c.count = true := by
        unfold completesBlock
        rw [hc1, h3]
        rfl
      rw [this, h2]
      simp
      omega

/-- The length field fills `L` bytes (R291). -/
@[simp] theorem lengthField_length (a : Alg) (n : Nat) : (lengthField a n).length = a.lengthBytes := by
  rw [lengthField, store_length]
  omega

/-- Step 2 of the finalizer, once the number of zero bytes it needs is known (R291). -/
theorem padZeros_eq (a : Alg) (z : Nat) : ∀ (fuel : Nat) (c : Acc), z < fuel → c.count.toNat + z < 2 ^ 128 →
    (∀ j < z, (c.count.toNat + j) % a.blockBytes ≠ a.blockBytes - a.lengthBytes) →
    (c.count.toNat + z) % a.blockBytes = a.blockBytes - a.lengthBytes →
    padZeros a fuel c = absorbSeq a c (List.replicate z 0) := by
  induction z with
  | zero =>
    intro fuel c hf _ _ h
    cases fuel with
    | zero => omega
    | succ f =>
      rw [padZeros, if_pos (by simpa using h)]
      rfl
  | succ z ih =>
    intro fuel c hf hl hj h
    cases fuel with
    | zero => omega
    | succ f =>
      have hc := absorb_count_toNat a c 0 (by omega)
      rw [padZeros, if_neg (by simpa using hj 0 (by omega)), ih f (absorb a c 0) (by omega) (by rw [hc]; omega)
        (by
          intro j hjz
          rw [hc, Nat.add_assoc, Nat.add_comm 1 j]
          exact hj (j + 1) (by omega))
        (by
          rw [hc, Nat.add_assoc, Nat.add_comm 1 z]
          exact h)]
      rfl

end Sys2Proof.Machine
end

