-- ==== Sys2Proof/Laws/PerInstr.lean ====
section
/-! SUPPORT. The family `EncodesToItsRow`: the command word of every instruction has the fixed bits of its row of
spec/opcode_table.json (30_encoding.md R125). -/

namespace Sys2Proof.Laws.EncodesToItsRow

/-- The encoded word matches the instruction's row. -/
def Statement (i : Instr) : Prop := (tableRow i).matches (encode i) = true

theorem initMd5 : Statement .initMd5 := by unfold Statement; decide

theorem initSha1 : Statement .initSha1 := by unfold Statement; decide

theorem initSha224 : Statement .initSha224 := by unfold Statement; decide

theorem initSha256 : Statement .initSha256 := by unfold Statement; decide

theorem initSha384 : Statement .initSha384 := by unfold Statement; decide

theorem initSha512 : Statement .initSha512 := by unfold Statement; decide

theorem initSha512_224 : Statement .initSha512_224 := by unfold Statement; decide

theorem initSha512_256 : Statement .initSha512_256 := by unfold Statement; decide

theorem initRmd128 : Statement .initRmd128 := by unfold Statement; decide

theorem initRmd160 : Statement .initRmd160 := by unfold Statement; decide

theorem initRmd256 : Statement .initRmd256 := by unfold Statement; decide

theorem initRmd320 : Statement .initRmd320 := by unfold Statement; decide

theorem updr (byte : Byte) (count : BitVec 48) : Statement (.updr byte count) :=
  matches_packCmd 0x2 0 0xF 0xF byte 0 count 0 _ rfl (by simp; rfl)

theorem setsrc (offset : BitVec 48) : Statement (.setsrc offset) :=
  matches_packCmd 0x3 0 0xF 0xF 0 0xFF offset 0 _ rfl (by simp; rfl)

theorem upds (length : BitVec 48) : Statement (.upds length) :=
  matches_packCmd 0x4 0 0xF 0xF 0 0xFF length 0 _ rfl (by simp; rfl)

theorem updz : Statement .updz := by unfold Statement; decide

theorem digest : Statement .digest := by unfold Statement; decide

end Sys2Proof.Laws.EncodesToItsRow
end

