-- ==== Sys2Proof/Laws/Step.lean ====
section
/-! SUPPORT. Once for the whole machine: everything a step can do (10_state.md R52, R53; 20_memory.md R80 to R97;
60_exceptions.md R602, R604; 70_reset_and_hazards.md R700, R701). -/

namespace Sys2Proof.Machine

/-- The state in which the host's next event takes place: the event is off the list and no load has answered. -/
abbrev State.taking (s : State) (rest : List HostEvent) : State := { s with host := rest, reply := none }

/-- An address of the register block (R44). -/
theorem addrTarget_register (p : Params) (off : Nat) (h : off < 256) : addrTarget p (p.regBase + off) = .register off := by
  unfold addrTarget regBlockBytes
  rw [if_pos (by omega)]
  congr 1
  omega

/-- An address of the window (R81), in an instance whose two ranges are apart (R89). -/
theorem addrTarget_window (p : Params) (off : Nat) (hp : p.WellFormed) (h : off < p.iwinSize) :
    addrTarget p (p.iwinBase + off) = .window off := by
  have hd := hp.2.2.2
  unfold Params.Disjoint at hd
  unfold addrTarget
  unfold regBlockBytes at *
  rw [if_neg (by omega), if_pos (by omega)]
  congr 1
  omega

/-- A window address is at its offset from the base (R81). -/
theorem addrTarget_eq_window (p : Params) (addr off : Nat) (h : addrTarget p addr = .window off) :
    addr = p.iwinBase + off ∧ off < p.iwinSize := by
  unfold addrTarget at h
  split at h
  · cases h
  · split at h
    · cases h
      omega
    · cases h

/-- A register address is at its offset from the base (R44). -/
theorem addrTarget_eq_register (p : Params) (addr off : Nat) (h : addrTarget p addr = .register off) :
    addr = p.regBase + off ∧ off < 256 := by
  unfold addrTarget regBlockBytes at h
  split at h
  · cases h
    omega
  · split at h <;> cases h

/-- What holds of a window access that is not faulty (R81, R84, R85). -/
theorem windowFault_none (p : Params) (off width : Nat) (h : windowFault p off width = none) :
    (width = 1 ∨ width = 2 ∨ width = 4 ∨ width = 8) ∧ off % width = 0 ∧ off + width ≤ p.iwinSize := by
  unfold windowFault at h
  split at h
  · cases h
  · split at h
    · cases h
    · split at h
      · cases h
      · omega

/-- The code a word is refused with is an error's (R600). -/
theorem decode_error_ne_none (w : Word64) (code : ECode) (h : decode w = .error code) : code ≠ .none := by
  unfold decode at h
  rintro rfl
  split at h <;> (try split at h) <;> (try split at h) <;> cases h

/-- The step that takes a command (R52, R126). -/
theorem step_cmdWrite (s : State) (w : Word64) (rest : List HostEvent) (h : s.host = cmdWrite s.params w :: rest) :
    step s = runCommand w (s.taking rest) := by
  have h0 := addrTarget_register s.params 0 (by omega)
  rw [Nat.add_zero] at h0
  unfold step
  rw [h]
  simp only [cmdWrite, hostEvent, hostWrite]
  rw [h0]
  rfl

/-- Every next state of a step. -/
inductive StepCase (s t : State) : Prop where
  /-- Nothing happens; overlapping writes land. -/
  | idle (hs : s.host = []) (h : t = s.land)
  /-- A command word is discarded (R604). -/
  | discarded (w : Word64) (rest : List HostEvent) (hs : s.host = cmdWrite s.params w :: rest) (he : s.err = true)
      (hv : validInit w = false) (h : t = (s.taking rest).land)
  /-- A command word does not decode (R127, R602). -/
  | illegal (w : Word64) (rest : List HostEvent) (code : ECode) (hs : s.host = cmdWrite s.params w :: rest)
      (hd : decode w = .error code) (h : t = ((s.taking rest).raise code).land)
  /-- A command executes (R126). -/
  | command (w : Word64) (rest : List HostEvent) (i : Instr) (u : State) (hs : s.host = cmdWrite s.params w :: rest)
      (ha : s.err = true → validInit w = true) (hd : decode w = .ok i) (hx : exec i (s.taking rest) = .next u)
      (h : t = u.land)
  /-- A store to a register other than CMD is ignored (R53). -/
  | registerStore (addr width : Nat) (v : Word64) (rest : List HostEvent) (hs : s.host = .write addr width v :: rest)
      (h : t = (s.taking rest).land)
  /-- A store to the window (R84). -/
  | windowStore (off width : Nat) (v : Word64) (rest : List HostEvent)
      (hs : s.host = .write (s.params.iwinBase + off) width v :: rest)
      (hw : (width = 1 ∨ width = 2 ∨ width = 4 ∨ width = 8) ∧ off % width = 0 ∧ off + width ≤ s.params.iwinSize)
      (h : t = { (s.taking rest).land with iwin := s.land.iwin.writeBytes off ((storeLE v).take width) })
  /-- A load of a register or of the window (R52, R84). -/
  | load (addr width : Nat) (v : Word64) (rest : List HostEvent) (hs : s.host = .read addr width :: rest)
      (h : t = { (s.taking rest).land with reply := some v })
  /-- An overlapping write begins (R97). -/
  | overlap (w : RaceWrite) (rest : List HostEvent) (hs : s.host = .overlap w :: rest) (hw : w.offset < s.params.iwinSize)
      (h : t = { s.taking rest with racing := s.racing ++ [w] })
  /-- Reset (R700, R701). -/
  | reset (rest : List HostEvent) (hs : s.host = .reset :: rest ∨ ∃ cmd, s.host = .resetDuring cmd :: rest)
      (h : t = (s.taking rest).land.resetRegs)
  /-- Power-on (R82). -/
  | powerOn (rest : List HostEvent) (hs : s.host = .powerOn :: rest) (h : t = (s.taking rest).powerOn)

theorem runCommand_cases (s t : State) (w : Word64) (rest : List HostEvent) (hs : s.host = cmdWrite s.params w :: rest)
    (h : runCommand w (s.taking rest) = .next t) : StepCase s t := by
  unfold runCommand at h
  split at h
  · rename_i u hu
    cases h
    unfold issue at hu
    split at hu
    · rename_i hd
      cases hu
      exact .discarded w rest hs hd.1 hd.2 rfl
    · rename_i hd
      split at hu
      · rename_i code hc
        cases hu
        exact .illegal w rest code hs hc rfl
      · rename_i i hc
        refine .command w rest i u hs (fun he => ?_) hc hu rfl
        by_contra hv
        exact hd ⟨he, by simpa using hv⟩
  · cases h
  · cases h

theorem hostWrite_cases (s t : State) (addr width : Nat) (v : Word64) (rest : List HostEvent)
    (hs : s.host = .write addr width v :: rest) (h : hostWrite addr width v (s.taking rest) = .next t) : StepCase s t := by
  unfold hostWrite at h
  split at h
  · rename_i off hoff
    obtain ⟨ha, -⟩ := addrTarget_eq_register s.params addr off hoff
    split at h
    · rename_i hok
      simp only [registerAccessOk, Bool.and_eq_true, beq_iff_eq] at hok
      split at h
      · rename_i h0
        rw [ha, hok.1, h0, Nat.add_zero] at hs
        exact runCommand_cases s t v rest hs h
      · cases h
        exact .registerStore addr width v rest hs rfl
    · cases h
  · rename_i off hoff
    obtain ⟨ha, -⟩ := addrTarget_eq_window s.params addr off hoff
    split at h
    · cases h
    · rename_i hw
      cases h
      rw [ha] at hs
      exact .windowStore off width v rest hs (windowFault_none s.params off width hw) rfl
  · cases h

theorem hostRead_cases (s t : State) (addr width : Nat) (rest : List HostEvent)
    (hs : s.host = .read addr width :: rest) (h : hostRead addr width (s.taking rest) = .next t) : StepCase s t := by
  unfold hostRead at h
  split at h
  · split at h
    · cases h
      exact .load addr width _ rest hs rfl
    · cases h
  · split at h
    · cases h
    · split at h
      · cases h
      · cases h
        exact .load addr width _ rest hs rfl
  · cases h

/-- Every next state of a step is one of these. -/
theorem step_cases (s t : State) (h : step s = .next t) : StepCase s t := by
  unfold step at h
  split at h
  · rename_i hs
    cases h
    exact .idle hs rfl
  · rename_i e rest hs
    cases e with
    | write addr width v => exact hostWrite_cases s t addr width v rest hs h
    | read addr width => exact hostRead_cases s t addr width rest hs h
    | overlap w =>
      unfold hostEvent beginOverlap at h
      dsimp only at h
      split at h
      · rename_i hw
        cases h
        exact .overlap w rest hs hw rfl
      · cases h
    | reset =>
      cases h
      exact .reset rest (Or.inl hs) rfl
    | resetDuring cmd =>
      cases h
      exact .reset rest (Or.inr ⟨cmd, hs⟩) rfl
    | powerOn =>
      cases h
      exact .powerOn rest hs rfl

end Sys2Proof.Machine
end

