-- ==== Sys2Proof/Tests/Slice0.lean ====
section
/-! SUPPORT. Tests of one step each, with the results that 30_encoding.md and 95_test_vectors.md give, a smoke test with
an ill-formed term for each check of WellFormed, and for every obligation with hypotheses a witness that meets them. -/

open Sys2Proof Sys2Proof.Machine

namespace Sys2Proof.Tests

/-! ## Small states, and what a result shows -/

/-- The state a result gives. -/
def next? (r : Result) : Option State :=
  match r with
  | .next t => some t
  | .fault _ | .refused _ => none

/-- The fault a result stops with. -/
def fault? (r : Result) : Option Fault :=
  match r with
  | .fault f => some f
  | .next _ | .refused _ => none

/-- A result is a next state of which `p` is true, if looking at it says so. -/
theorem exists_next (r : Result) (p : State → Bool) (h : (next? r).any p = true) : ∃ t, r = .next t ∧ p t = true := by
  cases r with
  | next t => exact ⟨t, rfl, h⟩
  | fault f => cases h
  | refused x => cases h

/-- Register block at 0x1000, a window of 64 bytes at 0x2000. -/
def params64 : Params := ⟨64, 0x1000, 0x2000⟩

/-- Window content: the bytes from an offset on. -/
def windowAt (off : Nat) (bytes : List Byte) : Memory := bytes.zipIdx.map fun bk => (off + bk.2, bk.1)

/-- The window of 95_test_vectors.md section 2.6: `"abc\0de\0"` and zeros. -/
def section26 : List Byte := [0x61, 0x62, 0x63, 0x00, 0x64, 0x65, 0x00] ++ List.replicate 57 0

/-- After reset, with that window. -/
def idle : State := { State.resetWith params64 with iwin := windowAt 0 section26 }

/-- The same after INIT of an algorithm. -/
def opened (a : Alg) : State := idle.initStream a

/-- The same with a message absorbed. -/
def streamOf (a : Alg) (msg : List Byte) : State := (opened a).setAcc (absorbSeq a (accInit a) msg)

/-- The same with DIGEST done. -/
def digested (a : Alg) (msg : List Byte) : State := (streamOf a msg).setDigest a (finalize a (streamOf a msg).acc)

/-- The same with `SRC` at an offset. -/
def openedAt (a : Alg) (off : BitVec 48) : State := { opened a with src := off }

/-- The same with `COUNT` at a value (95_test_vectors.md section 2.7). -/
def openedCount (a : Alg) (c : BitVec 128) : State := { opened a with count := c }

/-- V-ERR-1: a DIGEST before any INIT has been refused. -/
def failed : State := { idle with err := true, ecode := .notInit }

/-- The largest window there can be, with the string "ab" and its zero at its very end. -/
def edge : State :=
  { (State.resetWith ⟨2 ^ 48, 0x1000, 2 ^ 48⟩).initStream .md5 with
    iwin := windowAt (2 ^ 48 - 3) [0x61, 0x62, 0x00], src := BitVec.ofNat 48 (2 ^ 48 - 3) }

/-- A stream open over a window that nobody has written. -/
def unwrittenWindow : State := (State.resetWith params64).initStream .md5

/-- The host's next actions. -/
def hostDoes (s : State) (es : List HostEvent) : State := { s with host := es }

/-- The host's next action is the store of a command word to CMD. -/
def commanded (s : State) (w : Word64) : State := hostDoes s [cmdWrite s.params w]

/-- A second agent's write is in flight. -/
def overlapped (s : State) (w : RaceWrite) : State := { s with racing := [w] }

/-- What the host reads at some register offsets afterwards. -/
def regsOf (r : Result) (offs : List Nat) : Option (List Word64) := (next? r).map fun t => offs.map t.readReg

/-- STATUS, SRCREG and COUNT_LO afterwards. -/
def shows (r : Result) : Option (List Word64) := regsOf r [0x08, 0x18, 0x20]

/-- `DLEN`, and the `DLEN` first bytes of `DOUT` as one number written first byte first. -/
def digestOf (r : Result) : Option (Nat × Nat) :=
  (next? r).map fun t => (t.dlen.toNat, leValue (t.dout.toList.take t.dlen.toNat).reverse)

/-- The state words of an algorithm afterwards. -/
def stateWordsOf (a : Alg) (r : Result) : Option (List Word64) := (next? r).map fun t => t.h.toList.take a.stateWords

/-- For `c` bytes 0x61: the compressions of the update, those of DIGEST, and the digest. -/
def boundary (a : Alg) (c : Nat) : Option (Nat × Nat × Nat) :=
  let msg := List.replicate c (0x61 : Byte)
  (digestOf (exec .digest (streamOf a msg))).map fun d =>
    (compressions a (accInit a) msg, compressions a (streamOf a msg).acc (padding a c), d.2)

/-! ## Well-formedness: one ill-formed term for each check -/

theorem test_params_good : params64.WellFormed ∧ Params.default.WellFormed := by decide

theorem test_params_no_window : ¬(⟨0, 0x1000, 0x2000⟩ : Params).WellFormed := by decide

theorem test_params_window_too_large : ¬(⟨2 ^ 48 + 1, 0x1000, 0x2000⟩ : Params).WellFormed := by decide

theorem test_params_registers_misaligned : ¬(⟨64, 0x1080, 0x2000⟩ : Params).WellFormed := by decide

theorem test_params_ranges_overlap :
    ¬(⟨64, 0x1000, 0x10FF⟩ : Params).WellFormed ∧ ¬(⟨64, 0x1000, 0x0FC1⟩ : Params).WellFormed := by decide

theorem test_source_ill_formed :
    [Source.init 0, .init 13, .updr 256 0, .updr 0 (2 ^ 48), .setsrc (2 ^ 48), .upds (2 ^ 48), .updb 256, .updrl 256 0,
      .updrl 0 (2 ^ 128), .hashs 13 0 0, .hashs 1 (2 ^ 48) 0, .hashs 1 0 (2 ^ 48), .hashz 0 0, .hashz 1 (2 ^ 48),
      .iwin 0 [0, 256], .iwin (2 ^ 48) [0]].all (fun l => !l.WellFormed) = true := by decide

theorem test_source_well_formed :
    [Source.init 1, .init 12, .updr 255 (2 ^ 48 - 1), .setsrc (2 ^ 48 - 1), .upds (2 ^ 48 - 1), .updz, .digest, .updb 255,
      .updrl 255 (2 ^ 128 - 1), .hashs 12 0 0, .hashz 12 0, .iwin 0 [0, 255]].all Source.WellFormed = true := by decide

/-- R130: an operand out of range is an assembly error and is not truncated. -/
theorem test_assembly_error : assembleSource (.updr 0x61 (2 ^ 48)) = none ∧ assembleSource (.init 0xD) = none := by decide

theorem test_platform_ill_formed :
    ¬platformWellFormed [] ∧ ¬platformWellFormed [params64, params64] ∧ ¬platformWellFormed [⟨0, 0x1000, 0x2000⟩] ∧
      platformWellFormed [params64, ⟨64, 0x1100, 0x2040⟩] := by decide

/-! ## Decoding: words written out from the bit patterns of R125 -/

theorem test_decode_initMd5 :
    decode 0b0001000100000000000000000000000000000000000000000000000000000000 = .ok .initMd5 := by decide

theorem test_decode_initSha1 :
    decode 0b0001001000000000000000000000000000000000000000000000000000000000 = .ok .initSha1 := by decide

theorem test_decode_initSha224 :
    decode 0b0001001100000000000000000000000000000000000000000000000000000000 = .ok .initSha224 := by decide

theorem test_decode_initSha256 :
    decode 0b0001010000000000000000000000000000000000000000000000000000000000 = .ok .initSha256 := by decide

theorem test_decode_initSha384 :
    decode 0b0001010100000000000000000000000000000000000000000000000000000000 = .ok .initSha384 := by decide

theorem test_decode_initSha512 :
    decode 0b0001011000000000000000000000000000000000000000000000000000000000 = .ok .initSha512 := by decide

theorem test_decode_initSha512_224 :
    decode 0b0001011100000000000000000000000000000000000000000000000000000000 = .ok .initSha512_224 := by decide

theorem test_decode_initSha512_256 :
    decode 0b0001100000000000000000000000000000000000000000000000000000000000 = .ok .initSha512_256 := by decide

theorem test_decode_initRmd128 :
    decode 0b0001100100000000000000000000000000000000000000000000000000000000 = .ok .initRmd128 := by decide

theorem test_decode_initRmd160 :
    decode 0b0001101000000000000000000000000000000000000000000000000000000000 = .ok .initRmd160 := by decide

theorem test_decode_initRmd256 :
    decode 0b0001101100000000000000000000000000000000000000000000000000000000 = .ok .initRmd256 := by decide

theorem test_decode_initRmd320 :
    decode 0b0001110000000000000000000000000000000000000000000000000000000000 = .ok .initRmd320 := by decide

theorem test_decode_updr :
    decode 0b0010000010100101100100000000000000000000000000000000000011110001 = .ok (.updr 0xA5 0x9000000000F1) := by decide

theorem test_decode_setsrc :
    decode 0b0011000000000000110000000000000000000000000000000000000000000111 = .ok (.setsrc 0xC00000000007) := by decide

theorem test_decode_upds :
    decode 0b0100000000000000100000000000000000000000000000000000000000110101 = .ok (.upds 0x800000000035) := by decide

theorem test_decode_updz :
    decode 0b0101000000000000000000000000000000000000000000000000000000000000 = .ok .updz := by decide

theorem test_decode_digest :
    decode 0b0110000000000000000000000000000000000000000000000000000000000000 = .ok .digest := by decide

/-- V-DEC-3 to V-DEC-7, 9, 12, 13, 17, 19 to 23: the refused words and their codes. -/
theorem test_refused_words :
    [0x1000000000000000, 0x1D00000000000000, 0x1F00000000000000].all
        (fun w => decode w = .error .illegalAlg) = true ∧
    [0x1100000000000001, 0x1101000000000000, 0x2161000000000001, 0x3100000000000000, 0x3001000000000000,
      0x5000000000000001, 0x6000000000000001].all (fun w => decode w = .error .reservedNonzero) = true ∧
    [0x0000000000000000, 0x7000000000000000, 0xF0FFFFFFFFFFFFFF, 0x7F00000000000000].all
        (fun w => decode w = .error .illegalOp) = true := by decide

/-- R120: the table numbers bits as the word does; a shorter word has zeros above. -/
theorem test_decodeTableWord :
    decodeTableWord 64 0x20610000000F4240 = some (.updr 0x61 1000000) ∧ decodeTableWord 64 0x7000000000000000 = none ∧
      decodeTableWord 56 0x1100000000000000 = none := by decide

/-- The step after reset runs the word placed by `withFetchWord`. -/
theorem test_withFetchWord :
    next? (step (State.reset.withFetchWord 64 0x3000000000000100)) = some { State.reset with src := 0x100 } := by
  decide +kernel

/-! ## INIT -/

/-- R250, R51: STATUS, ALGREG, COUNT_LO and HREG0 after INIT, in algorithm order, from a stream in an error state. The
HREG0 values are the first words of the rules R124 names, two to a register at 32 bits. -/
theorem test_init_registers :
    allAlgs.map
        (fun a => regsOf (exec (Instr.init a) { openedCount .md5 5 with err := true, ecode := .srcRange })
          [0x08, 0x10, 0x20, 0x80]) =
    [some [1, 0x1, 0, 0xEFCDAB8967452301], some [1, 0x2, 0, 0xEFCDAB8967452301],
     some [1, 0x3, 0, 0x367CD507C1059ED8], some [1, 0x4, 0, 0xBB67AE856A09E667],
     some [1, 0x5, 0, 0xCBBB9D5DC1059ED8], some [1, 0x6, 0, 0x6A09E667F3BCC908],
     some [1, 0x7, 0, 0x8C3D37C819544DA2], some [1, 0x8, 0, 0x22312194FC2BF72C],
     some [1, 0x9, 0, 0xEFCDAB8967452301], some [1, 0xA, 0, 0xEFCDAB8967452301],
     some [1, 0xB, 0, 0xEFCDAB8967452301], some [1, 0xC, 0, 0xEFCDAB8967452301]] := by decide +kernel

/-- V-CMD-11, V-CMD-12: INIT discards the stream, loads HREG2 for SHA-1 and keeps `SRC`. -/
theorem test_init_discards_stream :
    regsOf (exec .initSha1 { streamOf .md5 (List.replicate 5 0x61) with src := 7 }) [0x10, 0x18, 0x20, 0x90] =
      some [0x2, 7, 0, 0x00000000C3D2E1F0] := by decide +kernel

/-! ## Updates and SETSRC -/

/-- V-ZB-1, 2, 11, 12: the state words after one block of zeros. -/
theorem test_updr_zero_block :
    [Alg.md5, .sha1, .rmd256, .rmd320].map (fun a => stateWordsOf a (exec (.updr 0 (BitVec.ofNat 48 a.blockBytes)) (opened a))) =
    [some [0x031F1DAC, 0x6EA58ED0, 0x1FAB67B7, 0x74317791],
     some [0x92B404E5, 0x56588CED, 0x6C1ACD4E, 0xBF053F68, 0x09F73A93],
     some [0xFDF092AC, 0xCD3D577E, 0x45CFC981, 0xA2D6799A, 0xFB03CE24,
           0xAA23B0CD, 0xF7F3BF23, 0xF6BE7F30],
     some [0x5D75ACD4, 0x4693E92F, 0xD82CB0DC, 0xFF2D0803, 0x8E7AAA3A,
           0x1805BCDA, 0x45D84957, 0x8A384774, 0x90101213, 0x5C9BA3F4]] := by decide +kernel

/-- V-ERR-4 to V-ERR-6, V-ERR-8, V-CMD-16: UPDR at the byte-count limit. -/
theorem test_updr_limit :
    shows (exec (.updr 0x61 1) (openedCount .md5 (2 ^ 61 - 2))) = some [0x1, 0, 0x1FFFFFFFFFFFFFFF] ∧
    shows (exec (.updr 0x61 2) (openedCount .md5 (2 ^ 61 - 2))) = some [0x63, 0, 0x1FFFFFFFFFFFFFFE] ∧
    shows (exec (.updr 0x61 0) (openedCount .md5 (2 ^ 61 - 1))) = some [0x1, 0, 0x1FFFFFFFFFFFFFFF] ∧
    shows (exec (.updr 0x61 1) (openedCount .sha512 (2 ^ 125 - 1))) = some [0x63, 0, 0xFFFFFFFFFFFFFFFF] ∧
    next? (exec (.updr 0x61 0) (opened .md5)) = some (opened .md5) := by decide +kernel

/-- V-CMD-1: SETSRC before INIT; V-DEC-11. -/
theorem test_setsrc : shows (exec (.setsrc 5) idle) = some [0, 5, 0] ∧
    shows (exec (.setsrc 0x100) (opened .md5)) = some [1, 0x100, 0] := by decide +kernel

/-- V-CMD-2 to V-CMD-7: UPDS before INIT, of nothing at and past the end, and spans that end at and past it. -/
theorem test_upds_range :
    shows (exec (.upds 0) idle) = some [0x42, 0, 0] ∧ next? (exec (.upds 0) (opened .md5)) = some (opened .md5) ∧
    next? (exec (.upds 0) (openedAt .md5 64)) = some (openedAt .md5 64) ∧
    shows (exec (.upds 0) (openedAt .md5 65)) = some [0x53, 65, 0] ∧
    shows (exec (.upds 4) (openedAt .md5 60)) = some [1, 0x40, 4] ∧
    shows (exec (.upds 5) (openedAt .md5 60)) = some [0x53, 60, 0] := by decide +kernel

/-- R264: the example's staged bytes; and the one wrap of `SRC`, in the largest window. -/
theorem test_upds_bytes :
    ((next? (exec (.upds 3) (opened .md5))).map fun t => t.buf.toList.take 3) = some [0x61, 0x62, 0x63] ∧
    shows (exec (.upds 3) edge) = some [1, 0, 3] := by decide +kernel

/-- V-CMD-8 to V-CMD-10: the empty string, the string "de", and no string. -/
theorem test_updz_strings :
    shows (exec .updz (openedAt .md5 3)) = some [1, 4, 0] ∧ shows (exec .updz (openedAt .md5 4)) = some [1, 7, 2] ∧
    shows (exec .updz (openedAt .md5 64)) = some [0x53, 64, 0] ∧ shows (exec .updz edge) = some [1, 0, 2] := by
  decide +kernel

/-- R82: reading a byte that no host write has set stops the run. -/
theorem test_unwritten_byte :
    fault? (exec (.upds 1) unwrittenWindow) = some .unwrittenByte ∧
    fault? (exec .updz unwrittenWindow) = some .unwrittenByte := by decide +kernel

/-! ## DIGEST -/

/-- 95_test_vectors.md section 1.2: the digests of "abc", with their lengths. -/
theorem test_digest_abc :
    allAlgs.map (fun a => digestOf (exec .digest (streamOf a [0x61, 0x62, 0x63]))) =
    [some (16, 0x900150983cd24fb0d6963f7d28e17f72),
     some (20, 0xa9993e364706816aba3e25717850c26c9cd0d89d),
     some (28, 0x23097d223405d8228642a477bda255b32aadbce4bda0b3f7e36c9da7),
     some (32, 0xba7816bf8f01cfea414140de5dae2223b00361a396177a9cb410ff61f20015ad),
     some (48, 0xcb00753f45a35e8bb5a03d699ac65007272c32ab0eded1631a8b605a43ff5bed8086072ba1e7cc2358baeca134c825a7),
     some (64, 0xddaf35a193617abacc417349ae20413112e6fa4e89a97ea20a9eeee64b55d39a2192992a274fc1a836ba3c23a3feebbd454d4423643ce80e2a9ac94fa54ca49f),
     some (28, 0x4634270f707b6a54daae7530460842e20e37ed265ceee9a43e8924aa),
     some (32, 0x53048e2681941ef99b2e29b76b4c7dabe4c2d0c634fc6d46e0e2f13107e7af23),
     some (16, 0xc14a12199c66e4ba84636b0f69144c77),
     some (20, 0x8eb208f7e05d987a9b044a8e98c6b087f15a0bfc),
     some (32, 0xafbd6e228b9d8cbbcef5ca2d03e6dba10ac0bc7dcbe4680e1e42d2e975459b65),
     some (40, 0xde4c01b3054f8930a79d09ae738e92301e5a17085beffdc1b8d116713e74f82fa942d64cdbc4682d)] := by decide +kernel

/-- V-ACC-3, 4, 9, 22: the digest of `c` bytes 0x61, at the lengths where padding and
blocks change, and how many compressions the update and the digest perform. -/
theorem test_padding_boundaries :
    [(.md5, 55), (.md5, 56), (.md5, 120), (.sha384, 112)].map (fun (p : Alg × Nat) => (boundary p.1 p.2 : Option (Nat × Nat × Nat))) =
    [some (0, 1, 0xef1772b6dff9a122358552954ad0df65),
     some (0, 2, 0x3b0c8ac703f828b04c6c197006d17218),
     some (1, 2, 0x5f61c0ccad4cac44c75ff505e1f1e537),
     some (0, 2, 0x187d4e07cb306103c69967bf544d0dfbe9042577599c73c330abc0cb64c61236d5ed565ee19119d8c31779a38f791fcd)] := by decide +kernel

/-- V-CMD-13 to V-CMD-15, P1: the packing of DOUT, a second DIGEST, and a stale digest. -/
theorem test_digest_registers :
    regsOf (exec .digest (streamOf .md5 [0x61, 0x62, 0x63])) [0x30, 0x40, 0x48, 0x50, 0x80, 0x88] =
      some [0x10, 0xB04FD23C98500190, 0x727FE1287D3F96D6, 0, 0xEFCDAB8967452301, 0x1032547698BADCFE] ∧
    regsOf (exec .digest (opened .rmd320)) [0x30, 0x40, 0x48, 0x50, 0x58, 0x60, 0x68] =
      some [0x28, 0xDC6C5361565DD622, 0x417BDEC6F5FDC175, 0x851EC6EB2573F2B9, 0x80C80E5A707D1757, 0xB89908A0323A1C15, 0] ∧
    next? (exec .digest (digested .md5 [0x61])) = some (digested .md5 [0x61]) ∧
    regsOf (exec (.updr 0x62 1) (digested .md5 [0x61, 0x62, 0x63])) [0x20, 0x30, 0x40] =
      some [4, 0x10, 0xB04FD23C98500190] := by decide +kernel

/-- V-ERR-7: DIGEST at the byte-count limit is accepted, and its length field. -/
theorem test_digest_at_limit :
    lengthField .md5 (2 ^ 61 - 1) = storeLE (0xFFFFFFFFFFFFFFF8 : Word64) ∧
    regsOf (exec .digest (openedCount .md5 (2 ^ 61 - 1))) [0x08, 0x20, 0x30] = some [1, 0x1FFFFFFFFFFFFFFF, 0x10] := by
  decide +kernel

/-! ## Errors -/

/-- V-ERR-1 to V-ERR-3, V-ERR-9 to V-ERR-13: STATUS after the first error, in the priority of R605. -/
theorem test_first_error :
    shows (issue 0x6000000000000000 idle) = some [0x42, 0, 0] ∧
    shows (issue 0x2061000000000001 idle) = some [0x42, 0, 0] ∧
    shows (issue 0x5000000000000000 idle) = some [0x42, 0, 0] ∧
    shows (issue 0x5000000000000000 (openedCount .md5 (2 ^ 61 - 1))) = some [0x63, 0, 0x1FFFFFFFFFFFFFFF] ∧
    shows (issue 0x4000000000000041 (openedCount .md5 (2 ^ 61 - 1))) = some [0x53, 0, 0x1FFFFFFFFFFFFFFF] ∧
    shows (issue 0x7F00000000000000 (opened .md5)) = some [0x13, 0, 0] ∧
    shows (issue 0x1D00000000000001 (opened .md5)) = some [0x23, 0, 0] ∧
    shows (issue 0x4001000000000010 idle) = some [0x22, 0, 0] := by decide +kernel

/-- V-ERR-14 to V-ERR-18: what a failed engine discards, and how it recovers. -/
theorem test_discarded :
    [0x2061000000000001, 0x3000000000000009, 0x1D00000000000000, 0x1100000000000001].all
        (fun w => decide (next? (issue w failed) = some failed)) = true ∧
    regsOf (issue 0x1400000000000000 failed) [0x08, 0x10] = some [0x1, 0x4] := by decide +kernel

/-- V-ERR-19: with an error set, DIGEST is discarded and the stream is kept. -/
theorem test_discarded_digest :
    regsOf (issue 0x6000000000000000 ((streamOf .md5 [0x61, 0x62]).raise .illegalOp)) [0x08, 0x20, 0x30, 0x40] =
      some [0x13, 2, 0, 0] := by decide +kernel

/-! ## The host's accesses and reset -/

/-- R84's example: a 64-bit store of "abc" and five zero bytes, then a load of two of them. -/
theorem test_window_store :
    ((next? (hostWrite 0x2000 8 0x636261 (State.resetWith params64))).map fun t => t.iwin) =
      some (windowAt 0 [0x61, 0x62, 0x63, 0, 0, 0, 0, 0]) ∧
    ((next? (hostRead 0x2002 2 idle)).map fun t => t.reply) = some (some 0x0063) := by decide +kernel

/-- R85, R90: bus errors; and addresses that do not exist. -/
theorem test_bus_errors :
    fault? (hostWrite 0x1000 4 0x11000000 idle) = some .registerBusError ∧
    fault? (hostRead 0x100C 8 idle) = some .registerBusError ∧ fault? (hostRead 0x2001 2 idle) = some .windowBusError ∧
    fault? (hostRead 0x2000 3 idle) = some .windowWidth ∧ fault? (hostRead 0x2040 1 idle) = some .noSuchAddress ∧
    fault? (hostRead 0x2000 8 { idle with params := ⟨4, 0x1000, 0x2000⟩ }) = some .windowEnd := by decide +kernel

/-- R45, R46, R52, R53: STATUS is read at 0x08; CMD and the reserved offsets read 0; a store to ALGREG is ignored. -/
theorem test_register_loads :
    [0x1000, 0x1008, 0x1010, 0x1038, 0x10F8].map
        (fun a => ((next? (hostRead a 8 (opened .sha512_256))).map fun t => t.reply)) =
      [some (some 0), some (some 1), some (some 8), some (some 0), some (some 0)] ∧
    next? (hostWrite 0x1010 8 0x4 (opened .md5)) = some (opened .md5) := by decide +kernel

/-- R700, R701: reset during a command leaves UNCONFIGURED and keeps the window; power-on does not keep it. -/
theorem test_reset :
    next? (step (hostDoes (streamOf .md5 [0x61]) [.resetDuring 0x4000000000000003])) = some idle ∧
    next? (step (hostDoes (streamOf .md5 [0x61]) [.powerOn])) = some (State.resetWith params64) ∧
    next? (step idle) = some idle := by decide +kernel

/-- R97: the search for the terminator sees the byte before the other agent's write and the absorption sees the one
after it; the write is in the window when the command has completed. -/
theorem test_overlap :
    ((next? (step (commanded (overlapped (opened .md5) ⟨1, 0x00, false, true⟩) 0x5000000000000000))).map fun t =>
      (t.src, t.buf.toList.take 3, t.iwin.read 1, t.racing)) = some (4, [0x61, 0x00, 0x63], some 0, []) := by
  decide +kernel

/-! ## Primitives -/

/-- V-PRIM-1 to V-PRIM-10. -/
theorem test_rotations_and_sums :
    rotl (0x80000001 : Word32) 1 = 0x00000003 ∧ rotl (0x12345678 : Word32) 0 = 0x12345678 ∧
    rotl (0x12345678 : Word32) 31 = 0x091A2B3C ∧ rotl (0x0123456789ABCDEF : Word64) 8 = 0x23456789ABCDEF01 ∧
    rotr (0x0000000000000001 : Word64) 1 = 0x8000000000000000 ∧ rotr (0x00000001 : Word32) 31 = 0x00000002 ∧
    shr (0xFFFFFFFF : Word32) 3 = 0x1FFFFFFF ∧ shr (0x8000000000000000 : Word64) 63 = 1 ∧
    (0xFFFFFFFF : Word32) + 1 = 0 ∧ (0xFFFFFFFFFFFFFFFF : Word64) + 0xFFFFFFFFFFFFFFFF = 0xFFFFFFFFFFFFFFFE := by decide

/-- V-PRIM-11 to V-PRIM-18. -/
theorem test_byte_orders :
    bswap (0x01234567 : Word32) = 0x67452301 ∧ bswap (0x0123456789ABCDEF : Word64) = 0xEFCDAB8967452301 ∧
    loadLE 32 [0x61, 0x62, 0x63, 0x80] = 0x80636261 ∧ loadBE 32 [0x61, 0x62, 0x63, 0x80] = 0x61626380 ∧
    loadBE 64 [0x61, 0x62, 0x63, 0x80, 0, 0, 0, 0] = 0x6162638000000000 ∧
    storeLE (0x18 : Word64) = [0x18, 0, 0, 0, 0, 0, 0, 0] ∧ storeBE (0x18 : Word64) = [0, 0, 0, 0, 0, 0, 0, 0x18] ∧
    storeBE (0x400 : BitVec 128) = List.replicate 14 0x00 ++ [0x04, 0x00] := by decide +kernel

/-- V-PRIM-19 to V-PRIM-22, and the examples of R463 and R333. -/
theorem test_boolean_functions :
    ch (0xFF00FF00 : Word32) 0x12345678 0x9ABCDEF0 = 0x12BC56F0 ∧
    maj (0xFF00FF00 : Word32) 0x12345678 0x9ABCDEF0 = 0x9A34DE70 ∧
    parity (0xFF00FF00 : Word32) 0x12345678 0x9ABCDEF0 = 0x77887788 ∧
    ch (0 : Word32) 0x12345678 0x9ABCDEF0 = 0x9ABCDEF0 ∧ ch (0xFFFFFFFF : Word32) 0x12345678 0x9ABCDEF0 = 0x12345678 ∧
    [RmdFn.f1, .f2, .f3, .f4, .f5].map (fun k => rmdFn k 0xEFCDAB89 0x98BADCFE 0x10325476) =
      [0x67452301, 0x98BADCFE, 0xFFFFFFFF, 0x88888888, 0x10325476] ∧
    md5Fn .i 0xEFCDAB89 0x98BADCFE 0x10325476 = 0x77777777 := by decide

/-- 95_test_vectors.md section 2.5: the MD5 registers after steps 0, 16, 32 and 63 of the padded empty block. -/
theorem test_md5_trace :
    let x := parseBlock .little 32 (padding .md5 0)
    [1, 17, 33, 64].map (fun n => (md5Table.take n).foldl (md5Step x) ⟨0x67452301, 0xEFCDAB89, 0x98BADCFE, 0x10325476⟩) =
      [⟨0x10325476, 0xA5202774, 0xEFCDAB89, 0x98BADCFE⟩, ⟨0x374943A7, 0x1C7D7513, 0xD6819C6A, 0x5AA53F75⟩,
       ⟨0xAE7813DB, 0xDF63EAA1, 0xA2205F1F, 0x1C31C384⟩, ⟨0x7246FAD3, 0x14E45506, 0xFF4EA3EB, 0x6E10A476⟩] := by
  decide +kernel

/-! ## Assembler -/

/-- R130, R133: lines of source, their words, and the window stores of the directive. -/
theorem test_assemble :
    assemble params64 [".iwin 0x10: \"ab\"  ; two bytes", "", "INIT md5", "UPDR ';', 1000000 ; not a comment", "SETSRC 0x100"] =
      some [.write 0x2010 1 0x61, .write 0x2011 1 0x62, .write 0x1000 8 0x1100000000000000,
        .write 0x1000 8 0x203B0000000F4240, .write 0x1000 8 0x3000000000000100] ∧
    assemble params64 ["UPDR 0x100, 1"] = none ∧ assemble params64 ["UPDZ 1"] = none := by decide +kernel

/-- R130: a semicolon, a comma and an apostrophe as character literals, before a comment and another operand. -/
theorem test_literals :
    ["UPDR ';', 1", "UPDR ',', 1", "UPDR ''', 1 ; it's 39", "UPDB 'a' ; 'x'", ".iwin 2: 'a', 0x62"].map readLine =
      [some [.updr 0x3B 1], some [.updr 0x2C 1], some [.updr 0x27 1], some [.updb 0x61], some [.iwin 2 [0x61, 0x62]]] ∧
    ["UPDB 'é'", ".iwin 0: \"é\"", ".iwin 0:", ".iwin 0: \"ab", "UPDB 'ab'"].all (fun l => readLine l = none) = true ∧
    assemble params64 [".iwin 0x1000000000000: 0"] = none := by decide +kernel

/-- R131: the expansions, UPDRL at its boundaries among them. -/
theorem test_pseudo_instructions :
    expand (.updb 0x61) = [.updr 0x61 1] ∧ expand (.updrl 0x61 0) = [] ∧
    expand (.updrl 0x61 (2 ^ 48 - 2)) = [.updr 0x61 0xFFFFFFFFFFFE] ∧
    expand (.updrl 0x61 (2 ^ 48 - 1)) = [.updr 0x61 0xFFFFFFFFFFFF] ∧
    expand (.updrl 0x61 (2 ^ 48)) = [.updr 0x61 0xFFFFFFFFFFFF, .updr 0x61 1] ∧
    expand (.hashs 1 0x100 3) = [.initMd5, .setsrc 0x100, .upds 3, .digest] ∧
    expand (.hashz 12 0) = [.initRmd320, .setsrc 0, .updz, .digest] := by decide +kernel

/-- R132, and the last column of 95_test_vectors.md P3 and P4. -/
theorem test_disassemble :
    disassemble 0x1700000000000000 = "INIT SHA512_224".toList ∧ disassemble 0x20610000000F4240 = "UPDR 0x61, 0xF4240".toList ∧
    disassemble 0x7000000000000000 = ".illegal 0x7000000000000000".toList := by decide +kernel

/-! ## Witnesses: what meets the hypotheses of each obligation -/

/-- EncodeOfDecodeIsTheWord, DecodableWordsMatchARow: a word that decodes and matches a row, and one that does neither. -/
theorem witness_decodable_word :
    decode 0x2061000000000001 = .ok (.updr 0x61 1) ∧ (∃ r ∈ opcodeRows, r.matches 0x2061000000000001 = true) ∧
    ¬∃ r ∈ opcodeRows, r.matches 0x2161000000000001 = true := by decide +kernel

/-- IllegalWordsAreRefusedByCode: each code, at the ends of its ranges, and a state that takes the word. -/
theorem witness_refused_word :
    decode 0x0FFFFFFFFFFFFFFF = .error .illegalOp ∧ decode 0x7000000000000000 = .error .illegalOp ∧
    decode 0x1D00000000000001 = .error .reservedNonzero ∧ decode 0x6001000000000000 = .error .reservedNonzero ∧
    decode 0x1000000000000000 = .error .illegalAlg ∧ decode 0x1D00000000000000 = .error .illegalAlg ∧
    (opened .md5).err = false := by decide

/-- StepRunsTheDecodedCommand: with `ERR = 0`, and a valid INIT with `ERR = 1`; a second agent's write is in flight. -/
theorem witness_command_step :
    (∃ s : State, s.host = cmdWrite s.params 0x4000000000000003 :: [] ∧ decode 0x4000000000000003 = .ok (.upds 3) ∧
      s.err = false ∧ s.racing ≠ [] ∧ (next? (step s)).isSome = true) ∧
    (∃ s : State, s.host = cmdWrite s.params 0x1100000000000000 :: [] ∧ decode 0x1100000000000000 = .ok .initMd5 ∧
      s.err = true ∧ validInit 0x1100000000000000 = true ∧ (next? (step s)).isSome = true) :=
  ⟨⟨commanded (overlapped (opened .md5) ⟨0, 0, true, false⟩) 0x4000000000000003, by decide +kernel⟩,
    ⟨commanded failed 0x1100000000000000, by decide +kernel⟩⟩

/-- StepRefusesAnUndecodableWord. -/
theorem witness_undecodable_step :
    ∃ s : State, s.host = cmdWrite s.params 0x7000000000000000 :: [] ∧ s.err = false ∧
      decode 0x7000000000000000 = .error .illegalOp :=
  ⟨commanded (opened .md5) 0x7000000000000000, by decide +kernel⟩

/-- StickyErrorDiscardsAllButInit: a word that is discarded, an INIT that recovers, a reset that clears the error, and a load
of the last register offset. -/
theorem witness_sticky_error :
    (∃ s : State, s.host = cmdWrite s.params 0x3000000000000009 :: [] ∧ s.err = true ∧
      validInit 0x3000000000000009 = false) ∧
    (∃ s : State, s.host = cmdWrite s.params (encode (Instr.init .rmd320)) :: [] ∧ s.err = true) ∧
    (∃ s : State, s.err = true ∧ ∃ t, step s = .next t ∧ (!t.err) = true) ∧
    (∃ s : State, s.host = .read (s.params.regBase + 0xF8) 8 :: [] ∧ 0xF8 < 256 ∧ 0xF8 % 8 = 0 ∧ s.err = true) :=
  ⟨⟨commanded failed 0x3000000000000009, by decide +kernel⟩,
    ⟨commanded failed (encode (Instr.init .rmd320)), by decide +kernel⟩,
    ⟨hostDoes failed [.reset], by decide, exists_next _ _ (by decide +kernel)⟩,
    ⟨hostDoes failed [.read 0x10F8 8], by decide +kernel⟩⟩

/-- ResetEventLeavesUnconfigured: each event, with and without a write in flight; power-on of a written window. -/
theorem witness_reset_event :
    (∃ s : State, s.host = .reset :: [] ∧ s.racing = []) ∧
    (∃ s : State, s.host = .resetDuring 0x4000000000000003 :: [] ∧ s.racing ≠ []) ∧
    ∃ s : State, s.host = .powerOn :: [] ∧ s.ready = true ∧ s.iwin.read 0 ≠ none :=
  ⟨⟨hostDoes failed [.reset], by decide⟩,
    ⟨hostDoes (overlapped (opened .md5) ⟨0, 0, true, false⟩) [.resetDuring 0x4000000000000003], by decide⟩,
    ⟨hostDoes (opened .md5) [.powerOn], by decide +kernel⟩⟩

/-- OnlyHostWritesChangeTheWindow: the last byte of the window changed by a host store, by another agent and by
power-on. -/
theorem witness_window_changes :
    [hostDoes idle [.write 0x203F 1 0x7F], overlapped idle ⟨63, 0x7F, false, false⟩, hostDoes idle [.powerOn]].all
      (fun s => (next? (step s)).any fun t => decide (t.iwin.read 63 ≠ s.iwin.read 63)) = true := by decide +kernel

/-- InitForgetsTheHistory: two states with the same `SRC` and different streams. -/
theorem witness_same_src : (openedCount .md5 5).src = failed.src ∧ (openedCount .md5 5).alg ≠ failed.alg := by decide

/-- Sha512TruncatedInitialValues: the two names are those of the algorithms, in ASCII. -/
theorem witness_names :
    "SHA-512/224".toList.map (fun c => BitVec.ofNat 8 c.toNat) =
      ([0x53, 0x48, 0x41, 0x2D, 0x35, 0x31, 0x32, 0x2F, 0x32, 0x32, 0x34] : List Byte) ∧
    "SHA-512/256".toList.map (fun c => BitVec.ofNat 8 c.toNat) =
      ([0x53, 0x48, 0x41, 0x2D, 0x35, 0x31, 0x32, 0x2F, 0x32, 0x35, 0x36] : List Byte) := by decide

/-- UpdrAbsorbsTheRepeatedByte, UpdrEqualsSingleBytes: a count that ends at the limit, and no byte at all at it. -/
theorem witness_updr :
    (∃ s : State, s.ready = true ∧ s.alg = some .md5 ∧ s.count.toNat + (1 : BitVec 48).toNat = Alg.md5.limit) ∧
    ∃ s : State, s.ready = true ∧ s.alg = some .sha512 ∧ s.count.toNat + (0 : BitVec 48).toNat = Alg.sha512.limit :=
  ⟨⟨openedCount .md5 (2 ^ 61 - 2), by decide +kernel⟩, ⟨openedCount .sha512 (2 ^ 125 - 1), by decide +kernel⟩⟩

/-- UpdrEqualsSingleBytes: window bytes that are all the byte, up to the end of the window. -/
theorem witness_updr_and_upds :
    ∃ s : State, s.ready = true ∧ s.alg = some .md5 ∧ s.count.toNat + (4 : BitVec 48).toNat ≤ Alg.md5.limit ∧
      s.src.toNat + (4 : BitVec 48).toNat = s.params.iwinSize ∧
      ∀ k < (4 : BitVec 48).toNat, s.memRead .absorb (s.src.toNat + k) = some 0 :=
  ⟨openedAt .md5 60, by decide +kernel⟩

/-- UpdatesAreChunkIndependent, DigestLeavesTheStream: the same bytes cut in two ways, each run without an error, and a
DIGEST after it. -/
theorem witness_updates :
    (∀ i ∈ [Instr.updz, .upds 1, .updr 0x65 1] ++ [.upds 3, .updr 0x64 1, .updr 0x65 1], isUpdate i = true) ∧
    (opened .md5).ready = true ∧ (opened .md5).alg = some .md5 ∧ (opened .md5).err = false ∧
    absorbedBy [.updz, .upds 1, .updr 0x65 1] (opened .md5) = absorbedBy [.upds 3, .updr 0x64 1, .updr 0x65 1] (opened .md5) ∧
    (∃ t, execAll [.updz, .upds 1, .updr 0x65 1] (opened .md5) = .next t ∧ (!t.err && t.ready) = true) ∧
    (∃ t, execAll [.upds 3, .updr 0x64 1, .updr 0x65 1] (opened .md5) = .next t ∧ (!t.err && t.ready) = true) ∧
    ∃ u, exec .digest (opened .md5) = .next u ∧ (!u.err) = true :=
  ⟨by decide, by decide, by decide, by decide, by decide +kernel, exists_next _ _ (by decide +kernel),
    exists_next _ _ (by decide +kernel), exists_next _ _ (by decide +kernel)⟩

/-- UpdsAbsorbsTheSpan: a span that ends at the end of the largest window, and an empty one past which nothing stands. -/
theorem witness_upds :
    (edge.ready = true ∧ edge.alg = some .md5 ∧ edge.src.toNat + (3 : BitVec 48).toNat = edge.params.iwinSize ∧
      edge.count.toNat + (3 : BitVec 48).toNat ≤ Alg.md5.limit ∧ [0x61, 0x62, 0x00].length = (3 : BitVec 48).toNat ∧
      ∀ k (h : k < [0x61, 0x62, 0x00].length),
        edge.memRead .absorb (edge.src.toNat + k) = some ([0x61, 0x62, 0x00] : List Byte)[k]) ∧
    ((openedAt .md5 64).ready = true ∧ (openedAt .md5 64).src.toNat + (0 : BitVec 48).toNat = params64.iwinSize) := by
  decide +kernel

/-- UpdzAbsorbsTheString: a string whose zero is the last byte of the largest window, and the empty string. -/
theorem witness_updz :
    (edge.ready = true ∧ edge.alg = some .md5 ∧ edge.src.toNat + [0x61, 0x62].length < edge.params.iwinSize ∧
      edge.count.toNat + [0x61, 0x62].length ≤ Alg.md5.limit ∧
      (∀ k < [0x61, 0x62].length, ∃ b, edge.memRead .scan (edge.src.toNat + k) = some b ∧ b ≠ 0) ∧
      edge.memRead .scan (edge.src.toNat + [0x61, 0x62].length) = some 0 ∧
      ∀ k (h : k < [0x61, 0x62].length),
        edge.memRead .absorb (edge.src.toNat + k) = some ([0x61, 0x62] : List Byte)[k]) ∧
    ((openedAt .md5 3).ready = true ∧ (openedAt .md5 3).memRead .scan 3 = some 0) := by decide +kernel

/-- UpdzWithoutTerminatorIsRefused: two bytes that are not zero up to the end of the window, and `SRC` past its end. -/
theorem witness_no_terminator :
    (∃ s : State, s.ready = true ∧ s.alg ≠ none ∧ s.err = false ∧ s.src.toNat < s.params.iwinSize ∧
      ∀ z, s.src.toNat ≤ z → z < s.params.iwinSize → ∃ b, s.memRead .scan z = some b ∧ b ≠ 0) ∧
    ∃ s : State, s.ready = true ∧ s.alg ≠ none ∧ s.err = false ∧ s.params.iwinSize < s.src.toNat :=
  ⟨⟨{ openedAt .md5 4 with params := ⟨6, 0x1000, 0x2000⟩ }, by decide, by decide, by decide, by decide, by
      intro z h h'
      have hz : z = 4 ∨ z = 5 := by simp only [openedAt] at h h'; change 4 ≤ z at h; omega
      rcases hz with rfl | rfl
      · exact ⟨0x64, by decide +kernel⟩
      · exact ⟨0x65, by decide +kernel⟩⟩,
    ⟨openedAt .md5 65, by decide⟩⟩

/-- UnwrittenBytesStopTheRun: a byte not written at the first place read. -/
theorem witness_unwritten :
    unwrittenWindow.ready = true ∧ unwrittenWindow.alg = some .md5 ∧
    unwrittenWindow.src.toNat + (64 : BitVec 48).toNat = unwrittenWindow.params.iwinSize ∧
    unwrittenWindow.count.toNat + (64 : BitVec 48).toNat ≤ Alg.md5.limit ∧
    unwrittenWindow.memRead .absorb (unwrittenWindow.src.toNat + 63) = none ∧
    unwrittenWindow.memRead .scan unwrittenWindow.src.toNat = none := by decide +kernel

/-- StateChecksInPriorityOrder: no stream, a span one byte too long, and updates one byte over the limit. -/
theorem witness_state_checks :
    (idle.ready = false ∧ idle.err = false ∧ isUpdate (.upds 0) = true) ∧
    (∃ s : State, s.ready = true ∧ s.alg = some .md5 ∧ s.err = false ∧
      s.params.iwinSize + 1 = s.src.toNat + (5 : BitVec 48).toNat) ∧
    (∃ s : State, s.ready = true ∧ s.alg = some .md5 ∧ s.err = false ∧
      s.src.toNat + (3 : BitVec 48).toNat ≤ s.params.iwinSize ∧
      Alg.md5.limit + 1 = s.count.toNat + (3 : BitVec 48).toNat ∧
      (∀ j < 3, ∃ b, s.memRead .scan (s.src.toNat + j) = some b ∧ b ≠ 0) ∧ s.memRead .scan (s.src.toNat + 3) = some 0) :=
  ⟨by decide, ⟨openedAt .md5 60, by decide⟩, ⟨openedCount .md5 (2 ^ 61 - 3), by decide +kernel⟩⟩

/-- RefusalChangesOnlyTheErrorRecord, TheMessageSinceInitIsAccumulated: a command refused by its execution, and a word
refused by its decoding. -/
theorem witness_refusal :
    idle.err = false ∧ (∃ t, exec .digest idle = .next t ∧ t.err = true) ∧
    ∃ t, issue 0x7000000000000000 idle = .next t ∧ t.err = true :=
  ⟨by decide, exists_next _ _ (by decide +kernel), exists_next _ _ (by decide +kernel)⟩

/-- CommandsWriteOnlyTheirRegisters: each kind of command completes; an update that completes no block; DIGEST refused; a
word discarded. -/
theorem witness_completions :
    [Instr.init .md5, .updr 0x61 2, .setsrc 9, .upds 3, .updz, .digest].all
      (fun i => (next? (exec i (opened .md5))).any fun t => !t.err) = true ∧
    compressions .md5 (opened .md5).acc (updateBytes .updz (opened .md5)) = 0 ∧
    (next? (exec .digest idle)).isSome = true ∧ failed.err = true ∧ validInit 0x6000000000000000 = false := by
  decide +kernel

/-- The invariants hold in a state with a message absorbed and its digest written. -/
theorem witness_invariants : (digested .md5 [0x61, 0x62, 0x63]).Inv ∧ (digested .md5 [0x61, 0x62, 0x63]).StreamInv := by
  have hm : ∀ a, (digested .md5 [0x61, 0x62, 0x63]).alg = some a → a = .md5 := fun a h =>
    (Option.some.inj (show some Alg.md5 = some a from h)).symm
  refine ⟨⟨by decide, by decide, by decide, ?_, ?_, ?_, ?_, by decide +kernel, by decide +kernel, by decide +kernel, ?_⟩, ?_⟩
  · intro a h; cases hm a h; decide +kernel
  · intro h; cases h
  · intro a h; cases hm a h; simp only [SlotsFit]; decide +kernel
  · intro a h; cases hm a h; decide +kernel
  · intro w h; cases h
  · intro a h
    cases hm a h
    exact ⟨[0x61, 0x62, 0x63], by decide, ⟨by decide +kernel, by decide +kernel, by decide +kernel⟩,
      .inr ⟨[0x61, 0x62, 0x63], List.prefix_rfl, by decide +kernel, by decide +kernel⟩⟩

/-- CommandsNeverFailOnData: the invariant where an update faults. -/
theorem witness_fault_in_inv : unwrittenWindow.Inv ∧ fault? (exec .updz unwrittenWindow) = some .unwrittenByte := by
  have hm : ∀ a, unwrittenWindow.alg = some a → a = .md5 := fun a h =>
    (Option.some.inj (show some Alg.md5 = some a from h)).symm
  refine ⟨⟨by decide, by decide, by decide, ?_, ?_, ?_, ?_, by decide +kernel, by decide, by decide, ?_⟩, by decide +kernel⟩
  · intro a h; cases hm a h; decide
  · intro h; cases h
  · intro a h; cases hm a h; simp only [SlotsFit]; decide +kernel
  · intro a h; exact .inl rfl
  · intro w h; cases h

/-- OnlyInitOrResetLeavesFailed: both ways out of FAILED. -/
theorem witness_leaves_failed :
    [commanded failed 0x1400000000000000, hostDoes failed [.reset], hostDoes failed [.powerOn],
      hostDoes failed [.resetDuring 0]].all
      (fun s => decide (s.mode = .failed) && (next? (step s)).any fun t => decide (t.mode ≠ .failed)) = true := by
  decide +kernel

/-- StepKeepsTheRunInvariant, StepKeepsTheStream: `witness_invariants`'s state takes a step that absorbs a byte. -/
theorem witness_step_of_invariants :
    ∃ t, step (commanded (digested .md5 [0x61, 0x62, 0x63]) 0x2061000000000001) = .next t ∧ (t.count == 4) = true :=
  exists_next _ _ (by decide +kernel)

/-- AbsorptionCountsItsCompressions: counts on both sides of a block boundary. -/
theorem witness_absorption :
    (openedCount .md5 63).acc.count.toNat + [0x61, 0x62].length < 2 ^ 128 ∧
    compressions .md5 (openedCount .md5 63).acc [0x61] = 1 ∧ compressions .md5 (openedCount .md5 64).acc [0x61] = 0 := by
  decide +kernel

/-- TheMessageSinceInitIsAccumulated: INIT and commands that complete, from a state in an error. -/
theorem witness_accumulated :
    (∀ i ∈ [Instr.updz, .setsrc 0, .upds 2, .digest, .updr 0x61 1], i.initAlg = none) ∧
    ∃ t, execAll (Instr.init .md5 :: [.updz, .setsrc 0, .upds 2, .digest, .updr 0x61 1]) failed = .next t ∧
      (!t.err && t.count == 6) = true :=
  ⟨by decide, exists_next _ _ (by decide +kernel)⟩

/-- PaddingHasItsClosedForm: the counts on both sides of each boundary, and the limit itself. -/
theorem witness_padding :
    [55, 56, 63, 64, 2 ^ 61 - 1].all (fun c => decide ((openedCount .md5 (BitVec.ofNat 128 c)).acc.count.toNat ≤ Alg.md5.limit))
      = true ∧
    (padding .md5 55).length = 9 ∧ (padding .md5 56).length = 72 ∧ (padding .md5 63).length = 65 := by decide +kernel

/-- DigestIsTheHashOfTheMessage: an accumulator that holds a message of more than one block. -/
theorem witness_accumulates :
    Accumulates .md5 (List.replicate 65 0x61) (streamOf .md5 (List.replicate 65 0x61)).acc ∧
    (List.replicate 65 (0x61 : Byte)).length ≤ Alg.md5.limit :=
  ⟨⟨by decide +kernel, by decide +kernel, by decide +kernel⟩, by decide +kernel⟩

/-- DigestLeavesTheStream: updates that stop, with a DIGEST before them and without. -/
theorem witness_updates_stop :
    (∀ i ∈ [Instr.updr 0x61 1, .updz], isUpdate i = true) ∧ unwrittenWindow.ready = true ∧ unwrittenWindow.alg ≠ none ∧
    fault? (execAll [.updr 0x61 1, .updz] unwrittenWindow) = some .unwrittenByte ∧
    fault? (execAll [.digest, .updr 0x61 1, .updz] unwrittenWindow) = some .unwrittenByte := by decide +kernel

/-- DigestWritesTheDigest, DigestLeavesTheStream: a stream is open and DIGEST completes. -/
theorem witness_digest :
    (opened .sha1).ready = true ∧ (opened .sha1).alg = some .sha1 ∧
    ∃ t, exec .digest (opened .sha1) = .next t ∧ (t.dlen == 20) = true :=
  ⟨by decide, by decide, exists_next _ _ (by decide +kernel)⟩

/-- SerializationAndTruncation, CompressionWritesOnlyItsWords: the last state word and its last byte, a slot the algorithm
does not use, and one it does. -/
theorem witness_slots :
    (3 : Fin 10).val < Alg.md5.stateWords ∧ 3 < Alg.md5.wordBits / 8 ∧ Alg.md5.stateWords ≤ (4 : Fin 10).val ∧
    (9 : Fin 10).val < Alg.rmd320.stateWords ∧ Alg.rmd320.wordBits = 32 ∧ 7 < Alg.sha512.wordBits / 8 := by decide

/-- StatusRegisterShowsTheFlags, ScalarRegistersShowTheState: the invariant with `ERR = 0` and an algorithm whose length
field has 8 bytes; and a state with no algorithm. -/
theorem witness_registers :
    (digested .md5 [0x61, 0x62, 0x63]).Inv ∧ (digested .md5 [0x61, 0x62, 0x63]).err = false ∧
    (digested .md5 [0x61, 0x62, 0x63]).alg = some .md5 ∧ Alg.md5.lengthBytes = 8 ∧ idle.alg = none :=
  ⟨witness_invariants.1, by decide, by decide, by decide, by decide⟩

/-- HregShowsTheStateWords: an algorithm of each word width, and none; the last register with state words and the first
without. -/
theorem witness_hreg :
    (opened .rmd320).alg = some .rmd320 ∧ Alg.rmd320.wordBits = 32 ∧ (4 : Fin 8).val < 5 ∧ 5 ≤ (5 : Fin 8).val ∧
    (opened .sha512).alg = some .sha512 ∧ Alg.sha512.wordBits = 64 ∧ idle.alg = none := by decide

/-- StoresToOtherRegistersAreIgnored, BadRegisterAccessIsABusError, RegisterLoadsHaveNoSideEffect: offsets at the ends of
the block, good and bad. -/
theorem witness_register_offsets :
    (0 < 0x08 ∧ 0x08 < 256 ∧ 0x08 % 8 = 0) ∧ (0 < 0xF8 ∧ 0xF8 < 256 ∧ 0xF8 % 8 = 0) ∧ (0xFF < 256 ∧ 0xFF % 8 ≠ 0) ∧
    (0x00 < 256 ∧ (4 : Nat) ≠ 8) ∧
    (hostDoes idle [.read 0x1000 8]).host = .read ((hostDoes idle [.read 0x1000 8]).params.regBase + 0x00) 8 :: [] := by
  decide

/-- MisalignedWindowAccessIsABusError, WindowStoreThenLoad: the last byte of the window at each width, and the last place
an access of eight bytes fits. -/
theorem witness_window_offsets :
    idle.params.WellFormed ∧ idle.racing = [] ∧ 63 < idle.params.iwinSize ∧ 63 % 2 ≠ 0 ∧ 63 % 4 ≠ 0 ∧ 63 % 8 ≠ 0 ∧
    56 % 8 = 0 ∧ 56 + 8 = idle.params.iwinSize ∧ (List.replicate 8 (0 : Byte)).length = 8 ∧
    ∀ k (h : k < (List.replicate 8 (0 : Byte)).length), idle.iwin.read (56 + k) = some (List.replicate 8 (0 : Byte))[k] := by
  decide +kernel

/-- OverlappedByteReadsOldOrNew: one write in flight, seen by one kind of read only, and a command that completes. -/
theorem witness_overlap :
    (overlapped (opened .md5) ⟨1, 0x00, false, true⟩).racing = [⟨1, 0x00, false, true⟩] ∧
    ∃ t, runCommand 0x5000000000000000 (overlapped (opened .md5) ⟨1, 0x00, false, true⟩) = .next t ∧
      (t.iwin.read 1 == some 0) = true :=
  ⟨by decide, exists_next _ _ (by decide +kernel)⟩

/-- RotationsAsNumbers: the least and the greatest amounts. -/
theorem witness_rotations :
    (0 < 1 ∧ 1 < 32) ∧ (0 < 63 ∧ 63 < 64) ∧ rotl (0x80000000 : Word32) 31 = 0x40000000 ∧
    rotr (0x1 : Word64) 63 = 0x2 := by decide

/-- BswapRelatesTheByteOrders, SerializersAreUndoneByTheirLoads: first and last byte. -/
theorem witness_bytes :
    0 < 4 ∧ 3 < 4 ∧ [0x61, 0x62, 0x63, (0x80 : Byte)].length = 4 ∧ bswap (0x80636261 : Word32) = 0x61626380 := by decide

/-- Md5TableFollowsItsClosedForms: the rows on both sides of each change of round. -/
theorem witness_md5_rows :
    [0, 15, 16, 31, 32, 47, 48, 63].map (fun t => (md5Table[t]?).map fun r => (r.word.val, r.rot)) =
      [some (0, 7), some (15, 22), some (1, 5), some (12, 20), some (5, 4), some (2, 23), some (0, 6), some (9, 21)] := by
  decide

/-- RipemdLinesUseTheirFunctionsInOrder: there are nine rounds to say it of, and the lines of the first differ. -/
theorem witness_ripemd_rounds :
    (rmdRounds5 ++ rmdRounds4).length = 9 ∧ (rmdRounds5[0]?).map (fun q => (q.fnLeft, q.fnRight)) = some (.f1, .f5) := by
  decide

/-- Sha1ScheduleFollowsItsRecurrence, Sha2SchedulesFollowTheirRecurrences: at the first and last step of the recurrences the
words they use are there. -/
theorem witness_schedules :
    [16 - 3, 16 - 8, 16 - 14, 16 - 16, 79 - 3, 79 - 8, 79 - 14, 79 - 16].all
      (fun t => ((sha1Schedule (Vector.replicate 16 1))[t]?).isSome) = true ∧
    [16 - 2, 16 - 7, 16 - 15, 16 - 16, 63 - 2, 63 - 7, 63 - 15, 63 - 16].all
      (fun t => ((sha256Schedule (Vector.replicate 16 1))[t]?).isSome) = true ∧
    [16 - 2, 16 - 7, 16 - 15, 16 - 16, 79 - 2, 79 - 7, 79 - 15, 79 - 16].all
      (fun t => ((sha512Schedule (Vector.replicate 16 1))[t]?).isSome) = true := by decide +kernel

/-- UpdrlAbsorbsTheWholeCount: a count of more than one command, and no count at all. -/
theorem witness_updrl :
    (opened .md5).ready = true ∧ (opened .md5).alg = some .md5 ∧
    (opened .md5).count.toNat + 2 ^ 48 ≤ Alg.md5.limit ∧ (expandUpdrl 0x61 (2 ^ 48)).length = 2 ∧
    (openedCount .md5 (2 ^ 61 - 1)).count.toNat + 0 = Alg.md5.limit := by decide +kernel

/-- InstancesShareNothing: two instances, one of which steps; and another platform with the same instance. -/
theorem witness_platform :
    ∃ q, Platform.step ⟨[commanded idle 0x1100000000000000, failed]⟩ 0 = .next q ∧ q.engines[1]? = some failed ∧
      (⟨[commanded idle 0x1100000000000000, failed]⟩ : Platform).engines[0]? =
        (⟨[commanded idle 0x1100000000000000]⟩ : Platform).engines[0]? :=
  ⟨⟨[{ (idle.initStream .md5) with host := [], reply := none }, failed]⟩, rfl, rfl, rfl⟩

end Sys2Proof.Tests
end

section
/-! PROOFS. The statements about the state and its registers (10_state.md R36, R50, R51, R55 to R57). -/

namespace Sys2Proof.Machine

/-! The register block: which view of the state stands at an offset (R44, R50, R51). -/

/-- The registers from 0x40 on: the eight DOUT registers, the eight HREG registers, and none after them. -/
theorem State.readReg_of_le (s : State) (off : Nat) (h : 0x40 ≤ off) :
    s.readReg off =
      if off < 0x80 then s.doutReg ((off - 0x40) / 8) else if off < 0xC0 then s.hReg ((off - 0x80) / 8) else 0 := by
  unfold State.readReg
  rw [if_neg (by omega), if_neg (by omega), if_neg (by omega), if_neg (by omega), if_neg (by omega), if_neg (by omega)]
  simp only [h, true_and]
  split
  · rfl
  · next hd => simp only [Nat.le_of_not_lt hd, true_and]

/-- DOUTk stands at 0x40 + 8k (R50). -/
theorem State.readReg_dout (s : State) (k : Nat) (hk : k < 8) : s.readReg (0x40 + 8 * k) = s.doutReg k := by
  rw [s.readReg_of_le _ (by omega), if_pos (by omega), Nat.add_sub_cancel_left, Nat.mul_div_cancel_left k (by decide)]

/-- HREGk stands at 0x80 + 8k (R51). -/
theorem State.readReg_hreg (s : State) (k : Nat) (hk : k < 8) : s.readReg (0x80 + 8 * k) = s.hReg k := by
  rw [s.readReg_of_le _ (by omega), if_neg (by omega), if_pos (by omega), Nat.add_sub_cancel_left,
    Nat.mul_div_cancel_left k (by decide)]

/-- A byte of a slice is the byte of the list at its place (R12). -/
theorem byteSlice_getD (bytes : List Byte) (i k j : Nat) (hj : j < k) :
    (byteSlice bytes i k).getD j 0 = bytes.getD (i + j) 0 := by
  simp [byteSlice, List.getD_eq_getElem?_getD, List.getElem?_take_of_lt hj]

/-- Byte `j` of DOUTk is byte `8k + j` of `DOUT` (R50). -/
theorem State.doutReg_byte (s : State) (k j : Nat) (hk : k < 8) (hj : j < 8) :
    (s.doutReg k).extractLsb' (8 * j) 8 = s.dout[8 * k + j] := by
  have hl : (byteSlice s.dout.toList (8 * k) 8).length = 8 := by simp [byteSlice]; omega
  rw [State.doutReg, loadLE_byte 64 _ j (by omega) (by omega), byteSlice_getD _ _ _ _ hj,
    List.getD_eq_getElem _ _ (by simp; omega), Vector.getElem_toList]

/-- Right after reset every DOUT register is 0 (R50, R55). -/
theorem State.doutReg_reset (k : Nat) (hk : k < 8) : State.reset.doutReg k = 0 := by
  decide +revert

/-- The slot of the state store at an index, as HREG reads it (R51). -/
theorem Slots.toList_getD (h : Slots) (i : Nat) (hi : i < 10) : h.toList.getD i 0 = h[i] := by
  rw [List.getD_eq_getElem _ _ (by simpa using hi), Vector.getElem_toList]

/-- There is no slot from 10 on (R35). -/
theorem Slots.toList_getD_of_le (h : Slots) (i : Nat) (hi : 10 ≤ i) : h.toList.getD i 0 = 0 :=
  List.getD_eq_default _ _ (by simpa using hi)

/-- HREGk while no algorithm is selected (R51). -/
theorem State.hReg_of_none (s : State) (k : Nat) (ha : s.alg = none) : s.hReg k = 0 := by
  simp [State.hReg, ha]

/-- HREGk at `W = 32` (R51). -/
theorem State.hReg_of_wordBits_32 (s : State) (a : Alg) (k : Nat) (ha : s.alg = some a) (hw : a.wordBits = 32) :
    s.hReg k = (s.h.toList.getD (2 * k + 1) 0).setWidth 32 ++ (s.h.toList.getD (2 * k) 0).setWidth 32 := by
  simp [State.hReg, ha, hw]

/-- HREGk at `W = 64` (R51). -/
theorem State.hReg_of_wordBits_64 (s : State) (a : Alg) (k : Nat) (ha : s.alg = some a) (hw : a.wordBits = 64) :
    s.hReg k = s.h.toList.getD k 0 := by
  simp [State.hReg, ha, hw]

/-- The two words of HREGk at `W = 32` are the low halves of slots `2k` and `2k + 1` (R51). -/
theorem State.hReg_words (s : State) (a : Alg) (k : Nat) (ha : s.alg = some a) (hw : a.wordBits = 32) (hk : k < 5) :
    (s.hReg k).extractLsb' 0 32 = (s.h[2 * k]).extractLsb' 0 32 ∧
    (s.hReg k).extractLsb' 32 32 = (s.h[2 * k + 1]).extractLsb' 0 32 := by
  rw [s.hReg_of_wordBits_32 a k ha hw, Slots.toList_getD _ _ (by omega), Slots.toList_getD _ _ (by omega)]
  exact ⟨BitVec.extractLsb'_append_eq_right.trans (BitVec.setWidth_eq_extractLsb' (by decide)),
    BitVec.extractLsb'_append_eq_left.trans (BitVec.setWidth_eq_extractLsb' (by decide))⟩

/-- Settles O42: a load of DOUTk is `doutReg k`, whose bytes are those of `DOUT`. -/
theorem doutPacksTheDigestBytes : Obligations.DoutPacksTheDigestBytes := by
  refine ⟨fun s j => ?_, fun k hk => ?_⟩
  · rw [s.readReg_dout _ (by omega), s.doutReg_byte _ _ (by omega) (by omega)]
    simp only [Nat.div_add_mod, Fin.getElem_fin]
  · rw [State.readReg_dout _ k hk, State.doutReg_reset k hk]

/-- Settles O43: a load of HREGk is `hReg k`, by the word width of the algorithm. -/
theorem hregShowsTheStateWords : Obligations.HregShowsTheStateWords := by
  refine ⟨fun s a k ha hw => ⟨fun hk => ?_, fun hk => ?_⟩, fun s a k ha hw => ?_, fun s k ha => ?_⟩
  · rw [s.readReg_hreg k k.isLt]
    exact s.hReg_words a k ha hw hk
  · rw [s.readReg_hreg k k.isLt, s.hReg_of_wordBits_32 a k ha hw, Slots.toList_getD_of_le _ _ (by omega),
      Slots.toList_getD_of_le _ _ (by omega)]
    rfl
  · rw [s.readReg_hreg k k.isLt, s.hReg_of_wordBits_64 a k ha hw, Slots.toList_getD _ _ (by omega)]
  · rw [s.readReg_hreg k k.isLt, s.hReg_of_none k ha]

/-- Settles O9: the field lemmas of reset and power-on. -/
theorem resetSetsEveryRegister : Obligations.ResetSetsEveryRegister := by
  intro s
  refine ⟨s.resetRegs_alg, s.resetRegs_ready, s.resetRegs_err, s.resetRegs_ecode, s.resetRegs_count, fun i => ?_,
    fun i => ?_, s.resetRegs_src, fun i => ?_, s.resetRegs_dlen, s.resetRegs_iwin, fun off => ?_, rfl⟩
  · simp
  · simp
  · simp
  · rw [s.powerOn_iwin, Memory.read]

/-! What every command leaves unchanged (R56), and which commands clear or set `ERR` (R57, R602). -/

/-- INIT starts its stream in every state (R250). -/
@[simp] theorem exec_init (a : Alg) (s : State) : exec (Instr.init a) s = .next (s.initStream a) := by
  cases a <;> rfl

/-- No command writes the window, the parameters or the model's own fields (R56, R86). -/
theorem exec_frame (i : Instr) (s t : State) (h : exec i s = .next t) :
    t.iwin = s.iwin ∧ t.params = s.params ∧ t.racing = s.racing ∧ t.host = s.host ∧ t.reply = s.reply := by
  cases exec_cases i s t h with
  | init a _ h => simp [h]
  | setsrc off _ h => simp [h]
  | digest a _ _ _ h => simp [h]
  | refused code _ _ _ h => simp [h]
  | update a src _ _ _ _ _ h => simp [h]

/-- A command that sets `ERR` is refused: it records its code and ends there (R602). -/
theorem exec_eq_raise_of_sets_err (i : Instr) (s t : State) (hs : s.err = false) (h : exec i s = .next t)
    (ht : t.err = true) : ∃ code, code ≠ .none ∧ t = s.raise code := by
  cases exec_cases i s t h with
  | init a _ h => simp [h] at ht
  | setsrc off _ h => simp [h, hs] at ht
  | digest a _ _ _ h => simp [h, hs] at ht
  | refused code _ hc _ h => exact ⟨code, hc, h⟩
  | update a src _ _ _ _ _ h => simp [h, hs] at ht

/-- UPDR leaves `SRC` as it is (R56). -/
theorem exec_updr_src (byte : Byte) (count : BitVec 48) (s t : State) (h : exec (.updr byte count) s = .next t) :
    t.src = s.src := by
  cases exec_cases _ s t h with
  | init a hi => cases hi
  | setsrc off hi => cases hi
  | digest a hi => cases hi
  | refused code _ _ _ h => simp [h]
  | update a src _ _ _ _ hs h => simp [h, hs byte count rfl]

/-- What an update leaves unchanged (R56). -/
theorem update_frame (i : Instr) (s t : State) (hu : isUpdate i = true) (h : exec i s = .next t) :
    t.alg = s.alg ∧ t.ready = s.ready ∧ t.dout = s.dout ∧ t.dlen = s.dlen ∧ (t.err = s.err → t.ecode = s.ecode) ∧
    (∀ a, s.alg = some a → compressions a s.acc (updateBytes i s) = 0 → t.h = s.h) := by
  rcases update_cases i s t hu h with ⟨code, -, rfl⟩ | ⟨a, src, -, ha, -, rfl⟩
  · simp +contextual
  · refine ⟨rfl, rfl, rfl, rfl, fun _ => rfl, fun a' ha' hc => ?_⟩
    cases ha.symm.trans ha'
    exact absorbSeq_h_of_no_compression a s.acc _ hc

/-- What DIGEST leaves unchanged (R56, R290). -/
theorem exec_digest_frame (s t : State) (h : exec .digest s = .next t) :
    t = { s with dout := t.dout, dlen := t.dlen } ∨ (t = s.raise .notInit ∧ s.ready = false) := by
  cases exec_cases _ s t h with
  | init a hi => cases hi
  | setsrc off hi => cases hi
  | digest a _ _ _ h => exact .inl (by rw [h]; rfl)
  | refused code _ _ hn h =>
    obtain ⟨rfl, hr⟩ := hn rfl
    exact .inr ⟨h, hr⟩
  | update a src hi => cases hi

/-- While `ERR = 1` a word that is not a valid INIT is discarded (R604). -/
theorem issue_of_discarded (w : Word64) (s : State) (he : s.err = true) (hv : validInit w = false) :
    issue w s = .next s := by
  simp [issue, he, hv]

/-- Settles O25: from everything a command can do, `exec_cases`. -/
theorem commandsWriteOnlyTheirRegisters : Obligations.CommandsWriteOnlyTheirRegisters := by
  refine ⟨fun i s t h => ?_, fun a s t h => ?_, exec_updr_src, update_frame, fun off s t h => ?_, exec_digest_frame,
    fun i s t hs h ht => ?_, fun w s => issue_of_discarded w s⟩
  · obtain ⟨hw, hrest⟩ := exec_frame i s t h
    exact ⟨fun off => by rw [hw], hrest⟩
  · rw [exec_init] at h
    cases h
    exact s.initStream_src a
  · cases h
    rfl
  · obtain ⟨code, -, rfl⟩ := exec_eq_raise_of_sets_err i s t hs h ht
    simp only [s.raise_of_err_false code hs]

/-! The three states (R57). -/

theorem State.mode_eq_unconfigured (s : State) : s.mode = .unconfigured ↔ s.ready = false ∧ s.err = false := by
  unfold State.mode
  cases s.err <;> cases s.ready <;> decide

theorem State.mode_eq_opened (s : State) : s.mode = .opened ↔ s.ready = true ∧ s.err = false := by
  unfold State.mode
  cases s.err <;> cases s.ready <;> decide

theorem State.mode_eq_failed (s : State) : s.mode = .failed ↔ s.err = true := by
  unfold State.mode
  cases s.err <;> cases s.ready <;> decide

/-- A valid INIT decodes to an INIT (R126, R604). -/
theorem decode_of_validInit (w : Word64) (h : validInit w = true) : ∃ a, decode w = .ok (Instr.init a) := by
  simp only [validInit, Bool.and_eq_true, beq_iff_eq] at h
  obtain ⟨⟨⟨hop, halg⟩, hbyte⟩, hn⟩ := h
  obtain ⟨a, ha⟩ := Option.isSome_iff_exists.mp halg
  exact ⟨a, by simp [decode, hop, hbyte, hn, ha]⟩

/-- A step that clears `ERR` took a valid INIT, a reset or a power-on (R57, R604). -/
theorem step_clears_err (s t : State) (hs : s.err = true) (h : step s = .next t) (ht : t.err = false) :
    (∃ w rest, s.host = cmdWrite s.params w :: rest ∧ validInit w = true ∧ t.mode = .opened) ∨
    (∃ rest, (s.host = .reset :: rest ∨ s.host = .powerOn :: rest ∨ ∃ cmd, s.host = .resetDuring cmd :: rest) ∧
      t.mode = .unconfigured) := by
  cases step_cases s t h with
  | idle _ h => simp [h, hs] at ht
  | discarded w rest _ _ _ h => simp [h, hs] at ht
  | illegal w rest code _ _ h => simp [h] at ht
  | command w rest i u hh ha hd hx h =>
    obtain ⟨a, hi⟩ := decode_of_validInit w (ha hs)
    cases hi.symm.trans hd
    rw [exec_init] at hx
    cases hx
    exact .inl ⟨w, rest, hh, ha hs, by simp [h, State.mode_eq_opened]⟩
  | registerStore addr width v rest _ h => simp [h, hs] at ht
  | windowStore off width v rest _ _ h => simp [h, hs] at ht
  | load addr width v rest _ h => simp [h, hs] at ht
  | overlap w rest _ _ h => simp [h, hs] at ht
  | reset rest hh h =>
    exact .inr ⟨rest, hh.imp_right .inr, by simp [h, State.mode_eq_unconfigured]⟩
  | powerOn rest hh h =>
    exact .inr ⟨rest, .inr (.inl hh), by simp [h, State.mode_eq_unconfigured]⟩

/-- Settles O27: from everything a step can do, `step_cases`. -/
theorem onlyInitOrResetLeavesFailed : Obligations.OnlyInitOrResetLeavesFailed := by
  refine ⟨fun s => ⟨s.mode_eq_unconfigured, s.mode_eq_opened, s.mode_eq_failed⟩, fun s => ?_, fun a s => ?_,
    fun s code => ?_, fun s t hs h ht => ?_⟩
  · simp [State.mode_eq_unconfigured]
  · exact ⟨_, exec_init a s, by simp [State.mode_eq_opened]⟩
  · simp [State.mode_eq_failed]
  · rw [State.mode_eq_failed] at hs
    rw [ne_eq, State.mode_eq_failed, Bool.not_eq_true] at ht
    exact step_clears_err s t hs h ht

/-! The message of a stream (R36). -/

/-- A stream of the algorithm `a` is open and has absorbed `msg`. -/
structure State.Streams (a : Alg) (msg : List Byte) (s : State) : Prop where
  alg_eq : s.alg = some a
  ready_eq : s.ready = true
  length_le : msg.length ≤ a.limit
  accumulates : Accumulates a msg s.acc

/-- INIT opens the stream of the empty message (R250). -/
theorem State.streams_initStream (a : Alg) (s : State) : (s.initStream a).Streams a [] :=
  ⟨rfl, rfl, Nat.zero_le _, accumulates_init a⟩

/-- No command but INIT clears `ERR`. -/
theorem exec_keeps_err (i : Instr) (s t : State) (hi : i.initAlg = none) (h : exec i s = .next t) (hs : s.err = true) :
    t.err = true := by
  cases exec_cases i s t h with
  | init a ha => rw [hi] at ha; cases ha
  | setsrc off _ h => simp [h, hs]
  | digest a _ _ _ h => simp [h, hs]
  | refused code _ _ _ h => simp [h]
  | update a src _ _ _ _ _ h => simp [h, hs]

/-- A command that is no INIT and is not refused extends the message by the bytes it absorbs. -/
theorem exec_streams (a : Alg) (msg : List Byte) (i : Instr) (s t : State) (hi : i.initAlg = none)
    (h : exec i s = .next t) (ht : t.err = false) (hm : s.Streams a msg) : t.Streams a (msg ++ updateBytes i s) := by
  obtain ⟨halg, hready, hlen, hacc⟩ := hm
  cases exec_cases i s t h with
  | init b hb => rw [hi] at hb; cases hb
  | setsrc off hi h =>
    rw [hi, h, updateBytes, List.append_nil]
    exact ⟨halg, hready, hlen, hacc⟩
  | digest b hi _ _ h =>
    rw [hi, h, updateBytes, List.append_nil]
    exact ⟨halg, hready, hlen, hacc⟩
  | refused code _ _ _ h => simp [h] at ht
  | update b src _ _ hb hl _ h =>
    cases halg.symm.trans hb
    have hcount : s.count.toNat = msg.length := hacc.count_eq
    have hlimit := a.limit_lt
    subst h
    exact ⟨halg, hready, by rw [List.length_append]; omega,
      accumulates_absorbSeq a _ msg s.acc hacc (by omega)⟩

/-- A sequence of commands completes when its first command does and then the others do. -/
theorem execAll_cons_eq_next (i : Instr) (rest : List Instr) (s t : State) :
    execAll (i :: rest) s = .next t ↔ ∃ u, exec i s = .next u ∧ execAll rest u = .next t := by
  rw [execAll]
  cases exec i s <;> simp

/-- The bytes a sequence absorbs are those of its first command and then those of the others. -/
theorem absorbedBy_cons_of_next (i : Instr) (rest : List Instr) (s u : State) (h : exec i s = .next u) :
    absorbedBy (i :: rest) s = updateBytes i s ++ absorbedBy rest u := by
  rw [absorbedBy, h]

/-- No sequence of commands without an INIT clears `ERR`. -/
theorem execAll_keeps_err (cmds : List Instr) (s t : State) (hc : ∀ i ∈ cmds, i.initAlg = none)
    (h : execAll cmds s = .next t) (hs : s.err = true) : t.err = true := by
  induction cmds generalizing s with
  | nil => cases h; exact hs
  | cons i rest ih =>
    obtain ⟨hi, hrest⟩ := List.forall_mem_cons.mp hc
    obtain ⟨u, hu, hx⟩ := (execAll_cons_eq_next i rest s t).mp h
    exact ih u hrest hx (exec_keeps_err i s u hi hu hs)

/-- Commands that are no INIT and of which none is refused extend the message by the bytes they absorb. -/
theorem execAll_streams (a : Alg) (cmds : List Instr) (msg : List Byte) (s t : State)
    (hc : ∀ i ∈ cmds, i.initAlg = none) (h : execAll cmds s = .next t) (ht : t.err = false) (hm : s.Streams a msg) :
    t.Streams a (msg ++ absorbedBy cmds s) := by
  induction cmds generalizing msg s with
  | nil => cases h; simpa [absorbedBy] using hm
  | cons i rest ih =>
    obtain ⟨hi, hrest⟩ := List.forall_mem_cons.mp hc
    obtain ⟨u, hu, hx⟩ := (execAll_cons_eq_next i rest s t).mp h
    have hue : u.err = false := by
      by_contra hue
      rw [execAll_keeps_err rest u t hrest hx (by simpa using hue)] at ht
      cases ht
    rw [absorbedBy_cons_of_next i rest s u hu, ← List.append_assoc]
    exact ih _ u hrest hx (exec_streams a msg i s u hi hu hue hm)

/-- Settles O29, by induction on the commands after INIT. -/
theorem theMessageSinceInitIsAccumulated : Obligations.TheMessageSinceInitIsAccumulated := by
  refine ⟨fun a cmds s t hc h ht => ?_, fun i s t hs h ht => ?_⟩
  · obtain ⟨u, hu, hx⟩ := (execAll_cons_eq_next _ cmds s t).mp h
    rw [exec_init] at hu
    cases hu
    obtain ⟨halg, hready, -, hcount, hstaged, hchained⟩ :=
      execAll_streams a cmds [] _ t hc hx ht (s.streams_initStream a)
    rw [State.acc_count] at hcount
    exact ⟨halg, hready, _, rfl, hcount, by rw [hcount]; exact hstaged, by rw [hcount]; exact hchained⟩
  · obtain ⟨code, -, rfl⟩ := exec_eq_raise_of_sets_err i s t hs h ht
    exact ⟨s.acc_raise code, s.raise_alg code⟩

end Sys2Proof.Machine
end

section
/-! PROOFS. The statements about host accesses (20_memory.md R84, R90). -/

namespace Sys2Proof.Machine

/-! Register accesses (R90). -/

/-- A register access that is not 8 bytes wide or not at a multiple of 8 is not allowed (R90). -/
theorem registerAccessOk_eq_false (off width : Nat) (h : width ≠ 8 ∨ off % 8 ≠ 0) : registerAccessOk off width = false := by
  rw [registerAccessOk, Bool.and_eq_false_iff, beq_eq_false_iff_ne, beq_eq_false_iff_ne]
  exact h

/-- Settles O46: the address is one of the register block, and the access is not allowed there. -/
theorem badRegisterAccessIsABusError : Obligations.BadRegisterAccessIsABusError := by
  intro s off width hoff hbad
  have ht := addrTarget_register s.params off hoff
  have hok := registerAccessOk_eq_false off width hbad
  exact ⟨fun v => by simp [hostWrite, ht, hok], by simp [hostRead, ht, hok]⟩

/-! Window accesses (R84). -/

/-- A window access is not faulty exactly when its width is one of the four, its offset a multiple of the width, and its
bytes inside the window (R81, R84, R85). -/
theorem windowFault_eq_none_iff (p : Params) (off width : Nat) :
    windowFault p off width = none ↔
      (width = 1 ∨ width = 2 ∨ width = 4 ∨ width = 8) ∧ off % width = 0 ∧ off + width ≤ p.iwinSize := by
  refine ⟨windowFault_none p off width, fun ⟨hwidth, halign, hend⟩ => ?_⟩
  rw [windowFault, if_neg (not_not_intro hwidth), if_neg (not_not_intro halign), if_neg (Nat.not_lt_of_le hend)]

/-- The address of a window access that is not faulty is one of the window (R80). -/
theorem addrTarget_of_windowFault_none (p : Params) (off width : Nat) (hp : p.WellFormed)
    (h : windowFault p off width = none) : addrTarget p (p.iwinBase + off) = .window off := by
  obtain ⟨hwidth, -, hend⟩ := windowFault_none p off width h
  exact addrTarget_window p off hp (by omega)

/-- With no overlapping write in flight, a window store that is not faulty writes the least significant bytes of the
value and nothing else (R84). -/
theorem hostWrite_window (s : State) (off width : Nat) (v : Word64) (hp : s.params.WellFormed) (hrace : s.racing = [])
    (h : windowFault s.params off width = none) :
    hostWrite (s.params.iwinBase + off) width v s =
      .next { s with iwin := s.iwin.writeBytes off ((storeLE v).take width) } := by
  simp only [hostWrite, addrTarget_of_windowFault_none s.params off width hp h, h, s.land_of_racing_nil hrace]

/-- With no overlapping write in flight, a window load of known bytes answers with them, least significant first, and
changes nothing else (R84). -/
theorem hostRead_window (s : State) (off width : Nat) (bytes : List Byte) (hp : s.params.WellFormed)
    (hrace : s.racing = []) (h : windowFault s.params off width = none) (hlen : bytes.length = width)
    (hb : ∀ k (hk : k < bytes.length), s.iwin.read (off + k) = some bytes[k]) :
    hostRead (s.params.iwinBase + off) width s = .next { s with reply := some (loadLE 64 bytes) } := by
  subst hlen
  simp only [hostRead, addrTarget_of_windowFault_none s.params off bytes.length hp h, h, s.land_of_racing_nil hrace,
    Memory.readBytes_eq_some _ off bytes hb]

/-- Every byte of a written list is at its offset. -/
theorem Memory.read_writeBytes_getElem (m : Memory) (off k : Nat) (bytes : List Byte) (hk : k < bytes.length) :
    (m.writeBytes off bytes).read (off + k) = some bytes[k] := by
  rw [Memory.read_writeBytes, if_pos (by omega), Nat.add_sub_cancel_left, List.getElem?_eq_getElem hk]

/-- A written list changes no byte outside its place. -/
theorem Memory.read_writeBytes_of_outside (m : Memory) (off x : Nat) (bytes : List Byte)
    (hx : x < off ∨ off + bytes.length ≤ x) : (m.writeBytes off bytes).read x = m.read x := by
  rw [Memory.read_writeBytes, if_neg (by omega)]

/-- The first `n` bytes of a serialized word (R209). -/
theorem storeLE_take {m : Nat} (x : BitVec m) (n : Nat) (hn : n ≤ m / 8) :
    (storeLE x).take n = (List.range n).map fun j => x.extractLsb' (8 * j) 8 := by
  rw [storeLE, ← List.map_take, List.take_range, Nat.min_eq_left hn]

/-- Loading the first `n` bytes of a serialized word gives its low `8n` bits (R207, R209). -/
theorem loadLE_storeLE_take {m : Nat} (x : BitVec m) (n : Nat) (hn : n ≤ m / 8) :
    loadLE m ((storeLE x).take n) = BitVec.ofNat m (x.toNat % 2 ^ (8 * n)) := by
  rw [loadLE, storeLE_take x n hn, List.range_eq_range', leValue_bytes, Nat.mul_zero, Nat.pow_zero, Nat.div_one]

/-- A loaded word stays below the power of its number of bytes (R207). -/
theorem loadLE_toNat_lt (m : Nat) (s : List Byte) : (loadLE m s).toNat < 2 ^ (8 * s.length) := by
  rw [loadLE, BitVec.toNat_ofNat]
  exact Nat.lt_of_le_of_lt (Nat.mod_le _ _) (leValue_lt s)

/-- Settles O48: the store writes the bytes of `storeLE`, and the load composes what stands there with `loadLE`. -/
theorem windowStoreThenLoad : Obligations.WindowStoreThenLoad := by
  intro s off width hp hrace hwidth halign hend
  have hok := (windowFault_eq_none_iff s.params off width).mpr ⟨hwidth, halign, hend⟩
  have h8 : width ≤ 8 := by omega
  refine ⟨fun v => ?_, fun bytes hlen hbytes => ?_⟩
  · have hlen : ((storeLE v).take width).length = width := by simpa using h8
    have hstored := fun k => s.iwin.read_writeBytes_getElem off k ((storeLE v).take width)
    refine ⟨_, hostWrite_window s off width v hp hrace hok, rfl, fun k hk => ?_, fun x hx => ?_, ?_⟩
    · rw [hstored k (by omega)]
      simp [storeLE]
    · exact s.iwin.read_writeBytes_of_outside off x _ (by omega)
    · rw [← loadLE_storeLE_take v width h8]
      exact hostRead_window _ off width _ hp hrace hok hlen hstored
  · refine ⟨loadLE 64 bytes, hostRead_window s off width bytes hp hrace hok hlen hbytes,
      hlen ▸ loadLE_toNat_lt 64 bytes, fun k hk => ?_⟩
    rw [loadLE_byte 64 bytes k hk (by omega), List.getD_eq_getElem _ _ hk]

end Sys2Proof.Machine
end

section
/-! PROOFS. The statements about the command words (30_encoding.md R120 to R127, R133). -/

namespace Sys2Proof

/-! The decode checks, each with what it refuses (R126, R127). -/

/-- The opcodes of R123. -/
def LegalOp (w : Word64) : Prop := 1 ≤ (cmdOp w).toNat ∧ (cmdOp w).toNat ≤ 6

/-- Every field that the opcode of the word does not use is zero (R125, R127(b)). -/
def UnusedFieldsZero (w : Word64) : Prop :=
  ((cmdOp w).toNat ≠ 1 → cmdAlg w = 0) ∧ ((cmdOp w).toNat ≠ 2 → cmdByte w = 0) ∧
    ((cmdOp w).toNat = 1 ∨ (cmdOp w).toNat = 5 ∨ (cmdOp w).toNat = 6 → cmdN w = 0)

/-- The codes with no algorithm are 0 and those from 13 on (R124). -/
theorem Alg.ofCode_eq_none_iff (c : BitVec 4) : Alg.ofCode c = none ↔ c.toNat = 0 ∨ 13 ≤ c.toNat := by
  decide +revert

/-- The legal opcodes one by one: INIT, UPDR, SETSRC, UPDS, UPDZ, DIGEST (R123). -/
theorem LegalOp.cases {w : Word64} (h : LegalOp w) :
    (cmdOp w).toNat = 1 ∨ (cmdOp w).toNat = 2 ∨ (cmdOp w).toNat = 3 ∨ (cmdOp w).toNat = 4 ∨ (cmdOp w).toNat = 5 ∨
      (cmdOp w).toNat = 6 := by
  obtain ⟨h1, h6⟩ := h
  omega

theorem legalOp_of_init (w : Word64) (hi : (cmdOp w).toNat = 1) : LegalOp w := by
  simp [LegalOp, hi]

theorem decode_of_not_legalOp (w : Word64) (h : ¬LegalOp w) : decode w = .error .illegalOp := by
  unfold decode
  split
  case h_7 => rfl
  all_goals exact absurd ⟨by omega, by omega⟩ h

theorem decode_of_not_unusedFieldsZero (w : Word64) (hop : LegalOp w) (h : ¬UnusedFieldsZero w) :
    decode w = .error .reservedNonzero := by
  rcases hop.cases with hop | hop | hop | hop | hop | hop
  all_goals
    simp only [decode, hop]
    exact if_neg (by simpa [UnusedFieldsZero, hop] using h)

theorem exists_decode_of_not_init (w : Word64) (hop : LegalOp w) (hi : (cmdOp w).toNat ≠ 1) (h : UnusedFieldsZero w) :
    ∃ i, decode w = .ok i := by
  rcases hop.cases with hop | hop | hop | hop | hop | hop
  · exact absurd hop hi
  all_goals
    simp only [decode, hop]
    exact ⟨_, if_pos (by simpa [UnusedFieldsZero, hop] using h)⟩

/-- An INIT uses neither `BYTE` nor `N` (R125). -/
theorem unusedFieldsZero_of_init (w : Word64) (hi : (cmdOp w).toNat = 1) :
    UnusedFieldsZero w ↔ cmdByte w = 0 ∧ cmdN w = 0 := by
  simp [UnusedFieldsZero, hi]

theorem decode_init_of_ofCode_none (w : Word64) (hi : (cmdOp w).toNat = 1) (h : UnusedFieldsZero w)
    (ha : Alg.ofCode (cmdAlg w) = none) : decode w = .error .illegalAlg := by
  simp [decode, hi, (unusedFieldsZero_of_init w hi).mp h, ha]

theorem decode_init_of_ofCode_some (w : Word64) (a : Alg) (hi : (cmdOp w).toNat = 1) (h : UnusedFieldsZero w)
    (ha : Alg.ofCode (cmdAlg w) = some a) : decode w = .ok (Instr.init a) := by
  simp [decode, hi, (unusedFieldsZero_of_init w hi).mp h, ha]

/-- Everything the decode checks of R126 can answer, in the order of R605. -/
inductive DecodeCase (w : Word64) : Prop where
  | illegalOp (hop : ¬LegalOp w) (hd : decode w = .error .illegalOp)
  | reservedNonzero (hop : LegalOp w) (hf : ¬UnusedFieldsZero w) (hd : decode w = .error .reservedNonzero)
  | illegalAlg (hi : (cmdOp w).toNat = 1) (hf : UnusedFieldsZero w) (ha : Alg.ofCode (cmdAlg w) = none)
      (hd : decode w = .error .illegalAlg)
  | accepted (i : Instr) (hop : LegalOp w) (hf : UnusedFieldsZero w)
      (ha : (cmdOp w).toNat = 1 → Alg.ofCode (cmdAlg w) ≠ none) (hd : decode w = .ok i)

theorem decode_cases (w : Word64) : DecodeCase w := by
  by_cases hop : LegalOp w
  case neg => exact .illegalOp hop (decode_of_not_legalOp w hop)
  by_cases hf : UnusedFieldsZero w
  case neg => exact .reservedNonzero hop hf (decode_of_not_unusedFieldsZero w hop hf)
  by_cases hi : (cmdOp w).toNat = 1
  case neg =>
    obtain ⟨i, hd⟩ := exists_decode_of_not_init w hop hi hf
    exact .accepted i hop hf (fun h => absurd h hi) hd
  cases ha : Alg.ofCode (cmdAlg w) with
  | none => exact .illegalAlg hi hf ha (decode_init_of_ofCode_none w hi hf ha)
  | some a => exact .accepted (Instr.init a) hop hf (fun _ => by simp [ha]) (decode_init_of_ofCode_some w a hi hf ha)

theorem decode_eq_illegalOp_iff (w : Word64) : decode w = .error .illegalOp ↔ ¬LegalOp w := by
  cases decode_cases w with
  | illegalOp hop hd => simp [hd, hop]
  | reservedNonzero hop _ hd => simp [hd, hop]
  | illegalAlg hi _ _ hd => simp [hd, legalOp_of_init w hi]
  | accepted i hop _ _ hd => simp [hd, hop]

theorem decode_eq_reservedNonzero_iff (w : Word64) :
    decode w = .error .reservedNonzero ↔ LegalOp w ∧ ¬UnusedFieldsZero w := by
  cases decode_cases w with
  | illegalOp hop hd => simp [hd, hop]
  | reservedNonzero hop hf hd => simp [hd, hop, hf]
  | illegalAlg _ hf _ hd => simp [hd, hf]
  | accepted i _ hf _ hd => simp [hd, hf]

theorem decode_eq_illegalAlg_iff (w : Word64) :
    decode w = .error .illegalAlg ↔ (cmdOp w).toNat = 1 ∧ UnusedFieldsZero w ∧ Alg.ofCode (cmdAlg w) = none := by
  cases decode_cases w with
  | illegalOp hop hd => simpa [hd] using fun hi => absurd (legalOp_of_init w hi) hop
  | reservedNonzero _ hf hd => simp [hd, hf]
  | illegalAlg hi hf ha hd => simp [hd, hi, hf, ha]
  | accepted i _ _ ha hd => simpa [hd] using fun hi _ => ha hi

/-- Settles O1, by evaluating the encoder and the decoder on each word. -/
theorem exampleWordsDecode : Obligations.ExampleWordsDecode := by
  unfold Obligations.ExampleWordsDecode
  decide

end Sys2Proof

namespace Sys2Proof.Machine

/-- With `ERR = 0` a word that does not decode is refused with its code, which is recorded (R127, R602). -/
theorem issue_of_decode_error (w : Word64) (code : ECode) (s : State) (hs : s.err = false)
    (hd : decode w = .error code) : issue w s = .next { s with err := true, ecode := code } := by
  simp [issue, hs, hd, s.raise_of_err_false code hs]

/-- Settles O5: from everything the decode checks can answer, `decode_cases`. -/
theorem illegalWordsAreRefusedByCode : Obligations.IllegalWordsAreRefusedByCode := by
  refine ⟨fun w => ?_, fun w => ?_, fun w => ?_, fun w code s => issue_of_decode_error w code s⟩
  · rw [decode_eq_illegalOp_iff, LegalOp]
    omega
  · rw [decode_eq_reservedNonzero_iff]
    simp only [LegalOp, UnusedFieldsZero, Classical.not_and_iff_not_or_not, Classical.not_imp, ne_eq]
  · rw [decode_eq_illegalAlg_iff, Alg.ofCode_eq_none_iff]
    refine and_congr_right fun hi => ?_
    rw [unusedFieldsZero_of_init w hi, and_assoc]

end Sys2Proof.Machine
end

section
/-! PROOFS. The statements about the primitives (40_primitives.md R201 to R203, R206 to R210). -/

namespace Sys2Proof.Machine

/-! Rotation and shift (R201 to R203). -/

/-- A rotation by 0 takes every bit past the end of the right shift (R201). -/
theorem rotl_zero {w : Nat} (x : BitVec w) : rotl x 0 = x := by
  rw [rotl, Nat.sub_zero, BitVec.shiftLeft_zero, BitVec.ushiftRight_eq_zero (Nat.le_refl w), BitVec.or_zero]

/-- A rotation to the right by 0 is one to the left by 0 (R202). -/
theorem rotr_zero {w : Nat} (x : BitVec w) : rotr x 0 = x := by
  rw [rotr, Nat.sub_zero, Nat.mod_self, rotl_zero]

/-- The left rotation as a number (R201). -/
theorem rotl_toNat {w : Nat} (x : BitVec w) (n : Nat) :
    (rotl x n).toNat = x.toNat * 2 ^ n % 2 ^ w ||| x.toNat / 2 ^ (w - n) := by
  rw [rotl, BitVec.toNat_or, BitVec.toNat_shiftLeft, BitVec.toNat_ushiftRight, Nat.shiftLeft_eq,
    Nat.shiftRight_eq_div_pow]

/-- The right shift as a number (R203). -/
theorem shr_toNat {w : Nat} (x : BitVec w) (n : Nat) : (shr x n).toNat = x.toNat / 2 ^ n := by
  rw [shr, BitVec.toNat_ushiftRight, Nat.shiftRight_eq_div_pow]

/-- Below the width, R201's rotation is the library's. -/
theorem rotl_eq_rotateLeft {w : Nat} (x : BitVec w) (n : Nat) (hn : n < w) : rotl x n = x.rotateLeft n := by
  rw [rotl, BitVec.rotateLeft_def, Nat.mod_eq_of_lt hn]

/-- Below the width, R202's rotation is the library's. -/
theorem rotr_eq_rotateRight {w : Nat} (x : BitVec w) (n : Nat) (hn : n < w) : rotr x n = x.rotateRight n := by
  rw [BitVec.rotateRight_def, Nat.mod_eq_of_lt hn]
  rcases Nat.eq_zero_or_pos n with rfl | hpos
  · rw [rotr_zero, BitVec.ushiftRight_zero, Nat.sub_zero, BitVec.shiftLeft_eq_zero (Nat.le_refl w), BitVec.or_zero]
  · rw [rotr, Nat.mod_eq_of_lt (by omega), rotl, Nat.sub_sub_self hn.le, BitVec.or_comm]

/-- Bit `i` of the right rotation is bit `i + n` of the word or, past its end, bit `i - (w - n)`; the left rotation has put
bit `i` of `x` there (R201, R202). -/
theorem rotr_rotl {w : Nat} (x : BitVec w) (n : Nat) (hn : n < w) : rotr (rotl x n) n = x := by
  rw [rotr_eq_rotateRight _ n hn, rotl_eq_rotateLeft x n hn]
  ext i hi
  simp only [BitVec.getElem_rotateRight, BitVec.getElem_rotateLeft, Nat.mod_eq_of_lt hn]
  by_cases hlow : i < w - n
  · have : ¬n + i < n := by omega
    simp [hlow, this]
  · have hwrap : i - (w - n) < n := by omega
    have hback : w - n + (i - (w - n)) = i := by omega
    simp [hlow, hwrap, hback]

/-- Settles O50: rotation and shift one by one; the examples by evaluation. -/
theorem rotationsAsNumbers : Obligations.RotationsAsNumbers :=
  ⟨fun _ x n _ _ => rotl_toNat x n, fun _ => rotl_zero, fun _ _ _ _ => rfl, fun _ x _ => rotr_zero x,
    fun _ => rotr_rotl, fun _ => shr_toNat, by decide, by decide, by decide, by decide⟩

/-! The serializers and their loads (R207 to R210). -/

/-- Byte `j` of the little-endian serializer (R209). -/
theorem storeLE_getElem? {m : Nat} (x : BitVec m) (j : Nat) (hj : j < m / 8) :
    (storeLE x)[j]? = some (x.extractLsb' (8 * j) 8) := by
  rw [storeLE, List.getElem?_map, List.getElem?_range hj, Option.map_some]

/-- Byte `j` of the big-endian serializer (R210). -/
theorem storeBE_getElem? {m : Nat} (x : BitVec m) (j : Nat) (hj : j < m / 8) :
    (storeBE x)[j]? = some (x.extractLsb' (8 * (m / 8 - 1 - j)) 8) := by
  rw [storeBE, List.getElem?_reverse (by rwa [storeLE_length]), storeLE_length, storeLE_getElem? x _ (by omega)]

/-- The load takes all `k` bytes, so no bit is lost (R207, R209). -/
theorem loadLE_storeLE {k : Nat} (x : BitVec (8 * k)) : loadLE (8 * k) (storeLE x) = x := by
  have h := loadLE_storeLE_take x k (by omega)
  rwa [List.take_of_length_le (by rw [storeLE_length]; omega), Nat.mod_eq_of_lt x.isLt, BitVec.ofNat_toNat,
    BitVec.setWidth_eq] at h

/-- The two reversals cancel (R208, R210). -/
theorem loadBE_storeBE {k : Nat} (x : BitVec (8 * k)) : loadBE (8 * k) (storeBE x) = x := by
  rw [loadBE, storeBE, List.reverse_reverse, loadLE_storeLE]

/-- Settles O51: the bytes of each serializer, and its load after it; the examples by evaluation. -/
theorem serializersAreUndoneByTheirLoads : Obligations.SerializersAreUndoneByTheirLoads := by
  refine ⟨fun k x => ?_, fun k x => loadLE_storeLE x, fun k x => loadBE_storeBE x, by decide, by decide, by decide,
    by decide⟩
  have hk : 8 * k / 8 = k := Nat.mul_div_cancel_left k (by decide)
  refine ⟨by rw [storeLE_length, hk], by rw [storeBE, List.length_reverse, storeLE_length, hk], fun j hj => ⟨?_, ?_⟩⟩
  · exact storeLE_getElem? x j (by rwa [hk])
  · rw [storeBE_getElem? x j (by rwa [hk]), hk]

/-! The byte swap (R206). -/

/-- A list of as many bytes as the word has comes back from its load (R207, R209). -/
theorem storeLE_loadLE {k : Nat} (s : List Byte) (hs : s.length = k) : storeLE (loadLE (8 * k) s) = s := by
  refine List.ext_getElem (by rw [storeLE_length]; omega) fun j hj hjs => ?_
  rw [← Option.some_inj, ← List.getElem?_eq_getElem hj, storeLE_getElem? _ j (by rwa [storeLE_length] at hj),
    loadLE_byte _ s j hjs (by omega), List.getD_eq_getElem _ _ hjs]

/-- The byte swap loads the bytes of the word in the other order (R206). -/
theorem storeLE_bswap {k : Nat} (x : BitVec (8 * k)) : storeLE (bswap x) = storeBE x := by
  rw [bswap, loadBE, storeLE_loadLE _ (by rw [List.length_reverse, storeLE_length]; omega), storeBE]

/-- Settles O52: the bytes of a swapped word are those of the word in the other order, `storeLE_bswap`. -/
theorem bswapRelatesTheByteOrders : Obligations.BswapRelatesTheByteOrders := by
  refine ⟨fun k x j hj => ?_, fun k x => ?_, fun k s hs => ?_, by decide⟩
  · have hswap : (storeLE (bswap x))[k - 1 - j]? = (storeBE x)[k - 1 - j]? := by rw [storeLE_bswap]
    rw [storeLE_getElem? _ _ (by omega), storeBE_getElem? _ _ (by omega), Option.some_inj] at hswap
    rwa [show 8 * k / 8 - 1 - (k - 1 - j) = j by omega] at hswap
  · rw [bswap, storeLE_bswap, loadBE_storeBE]
  · rw [bswap, storeLE_loadLE s hs]

end Sys2Proof.Machine
end

section
/-! PROOFS. The statements about the absorption of a sequence (41_accumulator.md R241, R243). -/

namespace Sys2Proof.Machine

/-! The number of compressions (R241). -/

/-- Settles O28: `AbsorbSeq` is a recursion over its bytes, and each compression moves the block number by one,
`compressions_add`. -/
theorem absorptionCountsItsCompressions : Obligations.AbsorptionCountsItsCompressions := by
  refine ⟨fun a c => ⟨absorbSeq_nil a c, absorbSeq_cons a c⟩, fun a c bytes h => ⟨?_, ?_⟩⟩
  · exact Nat.eq_sub_of_add_eq (compressions_add a bytes c h)
  · rw [absorbSeq_count_toNat a c bytes h]

/-! Sequences of updates (R243). -/

/-- An update that is not refused absorbs its bytes into the accumulator. -/
theorem update_acc (i : Instr) (s t : State) (a : Alg) (hu : isUpdate i = true) (ha : s.alg = some a)
    (h : exec i s = .next t) (ht : t.err = false) : t.acc = absorbSeq a s.acc (updateBytes i s) := by
  rcases update_cases i s t hu h with ⟨code, -, rfl⟩ | ⟨b, src, -, hb, -, rfl⟩
  · simp at ht
  · cases ha.symm.trans hb
    rfl

/-- Updates keep the algorithm and leave the stream open or closed as it was (R56). -/
theorem execAll_updates_frame (cmds : List Instr) (s t : State) (hc : ∀ i ∈ cmds, isUpdate i = true)
    (h : execAll cmds s = .next t) : t.alg = s.alg ∧ t.ready = s.ready := by
  induction cmds generalizing s with
  | nil => cases h; exact ⟨rfl, rfl⟩
  | cons i rest ih =>
    obtain ⟨hi, hrest⟩ := List.forall_mem_cons.mp hc
    obtain ⟨u, hu, hx⟩ := (execAll_cons_eq_next i rest s t).mp h
    obtain ⟨halg, hready, -⟩ := update_frame i s u hi hu
    obtain ⟨halg', hready'⟩ := ih u hrest hx
    exact ⟨halg'.trans halg, hready'.trans hready⟩

/-- Commands without an INIT that end with `ERR = 0` began with it (R57). -/
theorem err_false_of_execAll (cmds : List Instr) (s t : State) (hc : ∀ i ∈ cmds, i.initAlg = none)
    (h : execAll cmds s = .next t) (ht : t.err = false) : s.err = false := by
  rw [← Bool.not_eq_true] at ht ⊢
  exact mt (execAll_keeps_err cmds s t hc h) ht

/-- Updates of which none is refused absorb all their bytes in one sequence: each its own, and then the others theirs
(`absorbSeq_append`). -/
theorem execAll_updates_acc (cmds : List Instr) (s t : State) (a : Alg) (hc : ∀ i ∈ cmds, isUpdate i = true)
    (ha : s.alg = some a) (h : execAll cmds s = .next t) (ht : t.err = false) :
    t.acc = absorbSeq a s.acc (absorbedBy cmds s) := by
  induction cmds generalizing s with
  | nil => cases h; rfl
  | cons i rest ih =>
    obtain ⟨hi, hrest⟩ := List.forall_mem_cons.mp hc
    obtain ⟨u, hu, hx⟩ := (execAll_cons_eq_next i rest s t).mp h
    have hue : u.err = false := err_false_of_execAll rest u t (fun j hj => initAlg_of_isUpdate j (hrest j hj)) hx ht
    have hua : u.alg = some a := (update_frame i s u hi hu).1.trans ha
    rw [absorbedBy_cons_of_next i rest s u hu, absorbSeq_append, ← update_acc i s u a hi ha hu hue]
    exact ih u hrest hua hx

/-- DIGEST with a stream open completes: it writes the digest of the accumulator (R290). -/
theorem exec_digest_of_ready (s : State) (a : Alg) (hr : s.ready = true) (ha : s.alg = some a) :
    exec .digest s = .next (s.setDigest a (finalize a s.acc)) :=
  s.withAlg_of_ready a _ hr ha

/-- DIGEST after updates writes the digest of the accumulator they leave (R243, R290). -/
theorem digest_after_updates (cmds : List Instr) (s t u : State) (a : Alg) (hc : ∀ i ∈ cmds, isUpdate i = true)
    (hr : s.ready = true) (ha : s.alg = some a) (h : execAll cmds s = .next t) (hd : exec .digest t = .next u) :
    u = t.setDigest a (finalize a t.acc) := by
  obtain ⟨halg, hready⟩ := execAll_updates_frame cmds s t hc h
  rw [exec_digest_of_ready t a (hready.trans hr) (halg.trans ha)] at hd
  cases hd
  rfl

/-- Settles O17, by induction on the updates; the digest is a function of the accumulator. -/
theorem updatesAreChunkIndependent : Obligations.UpdatesAreChunkIndependent := by
  refine ⟨fun cmds s t a hc _ ha _ h ht => execAll_updates_acc cmds s t a hc ha h ht, ?_⟩
  intro cmds cmds' s s' t t' u u' a hc hr hr' ha ha' _ _ hacc h h' ht ht' hbytes hd hd'
  obtain ⟨hcmds, hcmds'⟩ := List.forall_mem_append.mp hc
  have hsame : t.acc = t'.acc := by
    rw [execAll_updates_acc cmds s t a hcmds ha h ht, execAll_updates_acc cmds' s' t' a hcmds' ha' h' ht', hacc, hbytes]
  rw [digest_after_updates cmds s t u a hcmds hr ha h hd, digest_after_updates cmds' s' t' u' a hcmds' hr' ha' h' hd',
    hsame]
  exact ⟨rfl, rfl, rfl⟩

end Sys2Proof.Machine
end

section
/-! PROOFS. The statements about the padding, the digest and the serializer of the finalizer (42_finalizer.md R292, R293,
R296). -/

namespace Sys2Proof

/-- The two block layouts of R8: the block size `B` and the length `L` of the length field. -/
theorem Alg.block_layout (a : Alg) :
    a.blockBytes = 64 ∧ a.lengthBytes = 8 ∨ a.blockBytes = 128 ∧ a.lengthBytes = 16 := by
  cases a <;> decide

/-- A word is a whole number of bytes and fits its slot (R8, R35). -/
theorem Alg.wordBits_layout (a : Alg) : a.wordBits = 32 ∨ a.wordBits = 64 := by cases a <;> decide

/-- Every state word has a slot (R8, R35). -/
theorem Alg.stateWords_le (a : Alg) : a.stateWords ≤ 10 := by cases a <;> decide

end Sys2Proof

namespace Sys2Proof.Machine

/-! The padding (R292). -/

/-- The number of zero bytes in `pad(c)` (R292). -/
def padZeroCount (a : Alg) (count : Nat) : Nat :=
  (a.blockBytes - a.lengthBytes - 1 + (a.blockBytes - count % a.blockBytes)) % a.blockBytes

/-- `pad(c)` is the byte 0x80, the zeros and the length field (R292). -/
theorem padding_eq (a : Alg) (count : Nat) :
    padding a count = 0x80 :: (List.replicate (padZeroCount a count) 0 ++ lengthField a count) := rfl

/-- `pad(c)` has one byte, the zeros and the length field (R292). -/
theorem padding_length (a : Alg) (count : Nat) :
    (padding a count).length = padZeroCount a count + a.lengthBytes + 1 := by
  rw [padding_eq, List.length_cons, List.length_append, List.length_replicate, lengthField_length]

theorem padZeroCount_lt (a : Alg) (count : Nat) : padZeroCount a count < a.blockBytes :=
  Nat.mod_lt _ a.blockBytes_pos

/-- The number of zeros as R292 writes it, an integer remainder. -/
theorem padZeroCount_eq_emod (a : Alg) (count : Nat) :
    (padZeroCount a count : Int) =
      ((a.blockBytes : Int) - a.lengthBytes - 1 - (count % a.blockBytes : Nat)) % a.blockBytes := by
  unfold padZeroCount
  rcases a.block_layout with ⟨hB, hL⟩ | ⟨hB, hL⟩ <;> rw [hB, hL] <;> omega

/-- After 0x80 and the zeros, the cursor is at the length field's place (R291). -/
theorem add_padZeroCount_mod (a : Alg) (count : Nat) :
    (count + 1 + padZeroCount a count) % a.blockBytes = a.blockBytes - a.lengthBytes := by
  unfold padZeroCount
  rcases a.block_layout with ⟨hB, hL⟩ | ⟨hB, hL⟩ <;> rw [hB, hL] <;> omega

/-- With fewer zeros it is not yet there (R291). -/
theorem add_mod_ne_of_lt_padZeroCount (a : Alg) (count j : Nat) (hj : j < padZeroCount a count) :
    (count + 1 + j) % a.blockBytes ≠ a.blockBytes - a.lengthBytes := by
  unfold padZeroCount at hj
  rcases a.block_layout with ⟨hB, hL⟩ | ⟨hB, hL⟩ <;> simp only [hB, hL] at hj ⊢ <;> omega

/-- Where 0x80 and the length field fit the current block, the padding fills that block (R292). -/
theorem cursor_add_padding_length_of_le (a : Alg) (count : Nat)
    (h : count % a.blockBytes ≤ a.blockBytes - a.lengthBytes - 1) :
    count % a.blockBytes + (padding a count).length = a.blockBytes := by
  rw [padding_length]
  unfold padZeroCount
  rcases a.block_layout with ⟨hB, hL⟩ | ⟨hB, hL⟩ <;> simp only [hB, hL] at h ⊢ <;> omega

/-- Where they do not fit, the padding fills the current block and one more (R292). -/
theorem cursor_add_padding_length_of_lt (a : Alg) (count : Nat)
    (h : a.blockBytes - a.lengthBytes - 1 < count % a.blockBytes) :
    count % a.blockBytes + (padding a count).length = 2 * a.blockBytes := by
  have hmod := Nat.mod_lt count a.blockBytes_pos
  rw [padding_length]
  unfold padZeroCount
  rcases a.block_layout with ⟨hB, hL⟩ | ⟨hB, hL⟩ <;> simp only [hB, hL] at h ⊢ <;> omega

/-- The block number at the end of the padding: one more than before it, or two more (R292). -/
theorem add_padding_length_eq (a : Alg) (count : Nat) :
    count + (padding a count).length =
      (count / a.blockBytes +
        if count % a.blockBytes ≤ a.blockBytes - a.lengthBytes - 1 then 1 else 2) * a.blockBytes := by
  have hdiv := Nat.div_add_mod' count a.blockBytes
  rw [Nat.add_mul]
  split
  case isTrue h =>
    have hfill := cursor_add_padding_length_of_le a count h
    omega
  case isFalse h =>
    have hfill := cursor_add_padding_length_of_lt a count (Nat.lt_of_not_le h)
    omega

/-- The padding ends at a block boundary (R292). -/
theorem add_padding_length_mod (a : Alg) (count : Nat) :
    (count + (padding a count).length) % a.blockBytes = 0 := by
  rw [add_padding_length_eq, Nat.mul_mod_left]

/-- Within the limit, the padding keeps the counter far below 2^128 (R9, R292). -/
theorem add_padding_length_lt (a : Alg) (count : Nat) (h : count ≤ a.limit) :
    count + (padding a count).length < 2 ^ 128 := by
  have hlimit := a.limit_lt
  have hzeros := padZeroCount_lt a count
  have hfield := a.lengthBytes_lt
  have hblock := a.blockBytes_le
  rw [padding_length]
  omega

/-- Steps 1 to 3 of the finalizer absorb `pad(c)`: the loop of step 2 first meets the length field's place after
`padZeroCount` zeros (R291, R292). -/
theorem padded_eq_absorbSeq (a : Alg) (c : Acc) (h : c.count.toNat ≤ a.limit) :
    padded a c = absorbSeq a c (padding a c.count.toNat) := by
  have hbound := add_padding_length_lt a c.count.toNat h
  rw [padding_length] at hbound
  have hcount : (absorb a c 0x80).count.toNat = c.count.toNat + 1 := absorb_count_toNat a c _ (by omega)
  have hzeros : padZeros a a.blockBytes (absorb a c 0x80) =
      absorbSeq a (absorb a c 0x80) (List.replicate (padZeroCount a c.count.toNat) 0) := by
    refine padZeros_eq a _ _ _ (padZeroCount_lt a _) (by omega) ?_ ?_
    · rw [hcount]
      exact add_mod_ne_of_lt_padZeroCount a c.count.toNat
    · rw [hcount]
      exact add_padZeroCount_mod a c.count.toNat
  rw [padded, hzeros, padding_eq, absorbSeq_cons, absorbSeq_append]

/-- The padding performs one compression where it fits the current block, and two otherwise (R292). -/
theorem compressions_padding (a : Alg) (c : Acc) (h : c.count.toNat ≤ a.limit) :
    compressions a c (padding a c.count.toNat) =
      if c.count.toNat % a.blockBytes ≤ a.blockBytes - a.lengthBytes - 1 then 1 else 2 := by
  have hadd := compressions_add a (padding a c.count.toNat) c (add_padding_length_lt a c.count.toNat h)
  rw [add_padding_length_eq, Nat.mul_div_cancel _ a.blockBytes_pos, Nat.add_comm] at hadd
  exact Nat.add_left_cancel hadd

/-- A byte completes a block exactly when it is the block's last (R240). -/
theorem completesBlock_iff (a : Alg) (count : BitVec 128) (h : count.toNat + 1 < 2 ^ 128) :
    completesBlock a count = true ↔ count.toNat % a.blockBytes = a.blockBytes - 1 := by
  have hcount : (count + 1).toNat = count.toNat + 1 := BitVec.toNat_add_of_lt h
  rw [completesBlock, hcount, beq_iff_eq]
  rcases div_mod_step count.toNat a.blockBytes a.blockBytes_pos with ⟨hlt, -, hmod⟩ | ⟨heq, -, hmod⟩ <;> omega

/-- Settles O30: the length of the padding, by the two places the cursor can have (`add_padding_length_eq`), gives the block
boundary and the compressions; the steps of the finalizer are `padded_eq_absorbSeq`. -/
theorem paddingHasItsClosedForm : Obligations.PaddingHasItsClosedForm := by
  intro a c h
  have hlimit := a.limit_lt
  have hlength := padding_length a c.count.toNat
  have hzeros := padZeroCount_lt a c.count.toNat
  refine ⟨padded_eq_absorbSeq a c h, ⟨padZeroCount a c.count.toNat, padZeroCount_eq_emod a c.count.toNat, padding_eq a _⟩,
    by omega, by omega, add_padding_length_mod a c.count.toNat, compressions_padding a c h,
    completesBlock_iff a c.count (by omega)⟩

/-! The digest as the hash of the message (R296). -/

/-- The digest of a stream is the hash of its message: the padding extends the message to whole blocks (R296). -/
theorem finalize_eq_hash (a : Alg) (msg : List Byte) (c : Acc) (hlen : msg.length ≤ a.limit)
    (hacc : Accumulates a msg c) : finalize a c = hash a msg := by
  have hcount := hacc.count_eq
  have hpadded : Accumulates a (msg ++ padding a msg.length) (padded a c) := by
    rw [padded_eq_absorbSeq a c (by omega), hcount]
    exact accumulates_absorbSeq a _ msg c hacc (add_padding_length_lt a msg.length hlen)
  rw [finalize, hpadded.chained, hash]

/-- Settles O31, by `finalize_eq_hash`; DIGEST writes what `Finalize` returns. -/
theorem digestIsTheHashOfTheMessage : Obligations.DigestIsTheHashOfTheMessage := by
  refine ⟨fun a msg m c hlen hacc hm => ?_, fun s a msg hr ha hlen hacc => ?_⟩
  · rw [finalize_eq_hash a msg c hlen hacc, hash, hm]
  · refine ⟨_, exec_digest_of_ready s a hr ha, fun j hj => ?_⟩
    rw [State.setDigest_dout, digestOut_getElem, if_pos hj, finalize_eq_hash a msg s.acc hlen hacc]

/-! The serializer (R293). -/

/-- A concatenation of equally long parts holds part `i` from place `i * k` on. -/
theorem getD_flatMap_of_length_eq {α β : Type} (f : α → List β) (k : Nat) (hf : ∀ x, (f x).length = k) (l : List α)
    (i j : Nat) (hi : i < l.length) (hj : j < k) (d : β) : (l.flatMap f).getD (i * k + j) d = (f l[i]).getD j d := by
  induction l generalizing i with
  | nil => simp at hi
  | cons x rest ih =>
    rw [List.flatMap_cons]
    cases i with
    | zero =>
      rw [Nat.zero_mul, Nat.zero_add, List.getD_append _ _ _ _ (by rwa [hf]), List.getElem_cons_zero]
    | succ i =>
      have hplace : (i + 1) * k + j - k = i * k + j := by rw [Nat.succ_mul]; omega
      rw [List.getD_append_right _ _ _ _ (by rw [hf, Nat.succ_mul]; omega), hf, hplace,
        ih i (Nat.lt_of_succ_lt_succ hi), List.getElem_cons_succ]

/-- The serialization has `W / 8` bytes for each of the `N` state words (R293). -/
theorem serialize_length (a : Alg) (h : Slots) : (serialize a h).length = a.stateWords * (a.wordBits / 8) := by
  have hN := a.stateWords_le
  simp only [serialize, List.length_flatMap, store_length, List.map_const', List.sum_replicate, List.length_take,
    Vector.length_toList, Nat.min_eq_left hN, smul_eq_mul]

/-- Byte `j` of word `i` of the serialization is byte `j` of the slot's `W`-bit word in the algorithm's byte order (R293). -/
theorem serialize_getD (a : Alg) (h : Slots) (i : Fin 10) (j : Nat) (hi : i.val < a.stateWords)
    (hj : j < a.wordBits / 8) :
    (serialize a h).getD (i.val * (a.wordBits / 8) + j) 0 = (store a.order ((h[i]).setWidth a.wordBits)).getD j 0 := by
  rw [serialize, getD_flatMap_of_length_eq _ (a.wordBits / 8) (fun x => store_length a.order _) _ i.val j
    (by rw [List.length_take, Vector.length_toList]; omega) hj, List.getElem_take, Vector.getElem_toList, Fin.getElem_fin]

/-- Settles O34: the parameters by evaluation; the bytes are those of the word serializer, `store_getD`. -/
theorem serializationAndTruncation : Obligations.SerializationAndTruncation := by
  refine ⟨fun a h => ?_, fun a => ?_, fun a => ?_, fun a h i j hi hj => ?_⟩
  · rw [serialize_length]
    rcases a.wordBits_layout with hW | hW <;> rw [hW] <;> omega
  · cases a <;> decide
  · cases a <;> decide
  · have hlow : 8 * j + 8 ≤ a.wordBits := by omega
    have hhigh : 8 * (a.wordBits / 8 - 1 - j) + 8 ≤ a.wordBits := by omega
    rw [serialize_getD a h i j hi hj, store_getD _ _ j hj]
    cases a.order with
    | little => exact BitVec.extractLsb'_setWidth_of_le hlow
    | big => exact BitVec.extractLsb'_setWidth_of_le hhigh

end Sys2Proof.Machine
end

section
/-! PROOFS. The statement that DIGEST leaves the stream as it was (42_finalizer.md R295): no command but INIT and DIGEST
reads or writes `DOUT` and `DLEN`, so an update answers the same with any values in them. -/

namespace Sys2Proof.Machine

/-- The state with other contents of `DOUT` and `DLEN`. -/
def State.withDigest (s : State) (d : DigestBytes) (n : BitVec 7) : State := { s with dout := d, dlen := n }

/-- The same result, with other contents of `DOUT` and `DLEN` where it is a state. -/
def Result.withDigest (d : DigestBytes) (n : BitVec 7) : Result → Result
  | .next t => .next (t.withDigest d n)
  | .fault f => .fault f
  | .refused x => .refused x

section
variable (s : State) (d : DigestBytes) (n : BitVec 7)

/-! What does not see `DOUT` and `DLEN`. -/

@[simp] theorem State.withDigest_params : (s.withDigest d n).params = s.params := rfl
@[simp] theorem State.withDigest_alg : (s.withDigest d n).alg = s.alg := rfl
@[simp] theorem State.withDigest_ready : (s.withDigest d n).ready = s.ready := rfl
@[simp] theorem State.withDigest_count : (s.withDigest d n).count = s.count := rfl
@[simp] theorem State.withDigest_src : (s.withDigest d n).src = s.src := rfl
@[simp] theorem State.withDigest_acc : (s.withDigest d n).acc = s.acc := rfl
@[simp] theorem State.withDigest_setAcc (c : Acc) : (s.withDigest d n).setAcc c = (s.setAcc c).withDigest d n := rfl
@[simp] theorem State.withDigest_setSrc (v : Nat) : (s.withDigest d n).setSrc v = (s.setSrc v).withDigest d n := rfl
@[simp] theorem State.withDigest_memRead (p : ReadPhase) (off : Nat) :
    (s.withDigest d n).memRead p off = s.memRead p off := rfl

@[simp] theorem State.withDigest_raise (code : ECode) :
    (s.withDigest d n).raise code = (s.raise code).withDigest d n := by
  unfold State.raise State.withDigest
  split <;> rfl

@[simp] theorem State.withDigest_spanBytes (off k : Nat) : (s.withDigest d n).spanBytes off k = s.spanBytes off k := by
  induction k generalizing off with
  | zero => rfl
  | succ k ih => simp only [State.spanBytes, State.withDigest_memRead, ih]

@[simp] theorem State.withDigest_findZero (off k : Nat) : (s.withDigest d n).findZero off k = s.findZero off k := by
  induction k generalizing off with
  | zero => rfl
  | succ k ih => simp only [State.findZero, State.withDigest_memRead, ih]

/-! The checks and the absorption of the updates, and then the updates. -/

theorem State.withDigest_withAlg (k k' : Alg → Result) (h : ∀ a, k' a = (k a).withDigest d n) :
    (s.withDigest d n).withAlg k' = (s.withAlg k).withDigest d n := by
  unfold State.withAlg
  rw [State.withDigest_ready, State.withDigest_alg, State.withDigest_raise]
  split
  · split
    · exact h _
    · rfl
  · rfl

@[simp] theorem State.withDigest_guardCount (a : Alg) (k : Nat) (run : Result) :
    (s.withDigest d n).guardCount a k (run.withDigest d n) = (s.guardCount a k run).withDigest d n := by
  unfold State.guardCount
  rw [State.withDigest_count, State.withDigest_raise]
  split <;> rfl

@[simp] theorem State.withDigest_absorbSpan (a : Alg) (k next : Nat) :
    (s.withDigest d n).absorbSpan a k next = (s.absorbSpan a k next).withDigest d n := by
  unfold State.absorbSpan
  rw [State.withDigest_src, State.withDigest_spanBytes]
  split <;> rfl

theorem execUpdr_withDigest (byte : Byte) (count : BitVec 48) :
    execUpdr byte count (s.withDigest d n) = (execUpdr byte count s).withDigest d n :=
  s.withDigest_withAlg d n _ _ fun a => s.withDigest_guardCount d n a count.toNat
    (.next (s.setAcc (absorbSeq a s.acc (List.replicate count.toNat byte))))

theorem execUpds_withDigest (length : BitVec 48) :
    execUpds length (s.withDigest d n) = (execUpds length s).withDigest d n := by
  refine s.withDigest_withAlg d n _ _ fun a => ?_
  simp only [State.withDigest_src, State.withDigest_params, State.withDigest_raise, State.withDigest_absorbSpan,
    State.withDigest_guardCount]
  split <;> rfl

theorem execUpdz_withDigest : execUpdz (s.withDigest d n) = (execUpdz s).withDigest d n := by
  refine s.withDigest_withAlg d n _ _ fun a => ?_
  simp only [State.withDigest_src, State.withDigest_params, State.withDigest_findZero, State.withDigest_raise,
    State.withDigest_absorbSpan, State.withDigest_guardCount]
  split <;> rfl

/-- An update ends in the same way with other contents of `DOUT` and `DLEN`, and keeps them (R56, R295). -/
theorem exec_update_withDigest (i : Instr) (hi : isUpdate i = true) :
    exec i (s.withDigest d n) = Result.withDigest d n (exec i s) := by
  cases i with
  | updr byte count => exact execUpdr_withDigest s d n byte count
  | upds length => exact execUpds_withDigest s d n length
  | updz => exact execUpdz_withDigest s d n
  | _ => cases hi

/-- So does a sequence of updates (R295). -/
theorem execAll_updates_withDigest (cmds : List Instr) (hc : ∀ i ∈ cmds, isUpdate i = true) :
    execAll cmds (s.withDigest d n) = (execAll cmds s).withDigest d n := by
  induction cmds generalizing s with
  | nil => rfl
  | cons i rest ih =>
    obtain ⟨hi, hrest⟩ := List.forall_mem_cons.mp hc
    rw [execAll, execAll, exec_update_withDigest s d n i hi]
    cases exec i s with
    | next t => exact ih t hrest
    | fault f => rfl
    | refused x => rfl

end

/-- Settles O33: DIGEST completes and changes only `DOUT` and `DLEN`, which no update sees
(`execAll_updates_withDigest`); its result depends on the accumulator alone, which it leaves. -/
theorem digestLeavesTheStream : Obligations.DigestLeavesTheStream := by
  refine ⟨fun cmds s hc hr halg => ?_, fun s t hr halg h => ?_⟩
  · obtain ⟨a, ha⟩ := Option.ne_none_iff_exists'.mp halg
    refine ⟨digestOut a (finalize a s.acc), BitVec.ofNat 7 a.digestBytes, ?_⟩
    rw [execAll, exec_digest_of_ready s a hr ha]
    exact execAll_updates_withDigest s _ _ cmds hc
  · obtain ⟨a, ha⟩ := Option.ne_none_iff_exists'.mp halg
    rw [exec_digest_of_ready s a hr ha] at h
    cases h
    exact ⟨exec_digest_of_ready _ a hr ha, rfl⟩

end Sys2Proof.Machine
end

section
/-! PROOFS. The statement about the SHA-1 message schedule (44_sha1.md R373): the schedule is the expansion of the parsed
block, so it keeps the block's words and each later word is the next one of the words before it. -/

namespace Sys2Proof.Machine

/-- The next schedule word, from the four words before it that the recurrence names (R373). -/
theorem sha1Next_eq_rotl {ws : List Word32} {w3 w8 w14 w16 : Word32} (h3 : ws[ws.length - 3]? = some w3)
    (h8 : ws[ws.length - 8]? = some w8) (h14 : ws[ws.length - 14]? = some w14) (h16 : ws[ws.length - 16]? = some w16) :
    sha1Next ws = rotl (w3 ^^^ w8 ^^^ w14 ^^^ w16) 1 := by
  simp only [sha1Next, List.getD_eq_getElem?_getD, h3, h8, h14, h16, Option.getD_some]

section
variable (x : Vector Word32 16)

theorem sha1Schedule_length : (sha1Schedule x).length = 80 := by
  obtain ⟨hlength, -⟩ := sha1Expand_keeps 64 x.toList
  rw [sha1Schedule, hlength, Vector.length_toList]

/-- The schedule begins with the parsed block. -/
theorem sha1Schedule_getElem?_block (t : Fin 16) : (sha1Schedule x)[t.val]? = some x[t] := by
  obtain ⟨-, hkeeps⟩ := sha1Expand_keeps 64 x.toList
  have ht : t.val < x.toList.length := by rw [Vector.length_toList]; exact t.isLt
  rw [sha1Schedule, hkeeps t ht, List.getElem?_eq_getElem ht, Vector.getElem_toList, Fin.getElem_fin]

/-- Each word after the block follows the recurrence. -/
theorem sha1Schedule_getElem?_recurrence {t : Nat} (hblock : 16 ≤ t) (hend : t < 80) {w3 w8 w14 w16 : Word32}
    (h3 : (sha1Schedule x)[t - 3]? = some w3) (h8 : (sha1Schedule x)[t - 8]? = some w8)
    (h14 : (sha1Schedule x)[t - 14]? = some w14) (h16 : (sha1Schedule x)[t - 16]? = some w16) :
    (sha1Schedule x)[t]? = some (rotl (w3 ^^^ w8 ^^^ w14 ^^^ w16) 1) := by
  have hx : x.toList.length = 16 := Vector.length_toList
  obtain ⟨pre, rfl, hpre, hnext⟩ := sha1Expand_next 64 x.toList t (by omega) (by omega)
  rw [sha1Schedule, hpre _ (by omega)] at h3 h8 h14 h16
  rw [sha1Schedule, hnext, sha1Next_eq_rotl h3 h8 h14 h16]

end

/-- The words of the padded block of the message "abc" in R373's example. -/
def sha1AbcBlock : Vector Word32 16 := #v[0x61626380, 0, 0, 0, 0, 0, 0, 0, 0, 0, 0, 0, 0, 0, 0, 0x18]

theorem parseBlock_abc_sha1 :
    parseBlock Alg.sha1.order 32 ([0x61, 0x62, 0x63] ++ padding .sha1 3) = sha1AbcBlock := by
  decide +kernel

/-- The later schedule words that the example names. -/
theorem sha1Schedule_abc :
    ((sha1Schedule sha1AbcBlock).drop 16).take 4 = [0xC2C4C700, 0, 0x00000030, 0x85898E01] ∧
    (sha1Schedule sha1AbcBlock)[79]? = some 0x822E0879 := by
  decide +kernel

/-- Settles O54, from what the expansion keeps and what it adds; the example's words are computed. -/
theorem sha1ScheduleFollowsItsRecurrence : Obligations.Sha1ScheduleFollowsItsRecurrence := by
  refine ⟨fun x => ⟨sha1Schedule_length x, sha1Schedule_getElem?_block x, ?_⟩, ?_⟩
  · intro t hblock hend w3 w8 w14 w16 h3 h8 h14 h16
    exact sha1Schedule_getElem?_recurrence x hblock hend h3 h8 h14 h16
  · rintro x rfl
    rw [parseBlock_abc_sha1]
    exact ⟨rfl, sha1Schedule_abc⟩

end Sys2Proof.Machine
end

section
/-! PROOFS. The statements about SHA-2 (45_sha2.md R402, R412, R424 to R426): both schedules are one expansion of the parsed
block, so the recurrence is proved once for the two widths; and the SHA-512/t initial values against their generation. -/

namespace Sys2Proof.Machine

/-! The message schedules (R402, R412). -/

section
variable {w : Nat} (s0 s1 : BitVec w → BitVec w)

/-- The next schedule word, from the four words before it that the recurrence names. -/
theorem sha2Next_eq_add {ws : List (BitVec w)} {w2 w7 w15 w16 : BitVec w} (h2 : ws[ws.length - 2]? = some w2)
    (h7 : ws[ws.length - 7]? = some w7) (h15 : ws[ws.length - 15]? = some w15) (h16 : ws[ws.length - 16]? = some w16) :
    sha2Next s0 s1 ws = s1 w2 + w7 + s0 w15 + w16 := by
  simp only [sha2Next, List.getD_eq_getElem?_getD, h2, h7, h15, h16, Option.getD_some]

variable (n : Nat) (x : Vector (BitVec w) 16)

/-- A block expanded by `n` words. -/
theorem sha2Expand_block_length : (sha2Expand s0 s1 n x.toList).length = 16 + n := by
  obtain ⟨hlength, -⟩ := sha2Expand_keeps s0 s1 n x.toList
  rw [hlength, Vector.length_toList]

/-- The expansion of a block begins with the block. -/
theorem sha2Expand_getElem?_block (t : Fin 16) : (sha2Expand s0 s1 n x.toList)[t.val]? = some x[t] := by
  obtain ⟨-, hkeeps⟩ := sha2Expand_keeps s0 s1 n x.toList
  have ht : t.val < x.toList.length := by rw [Vector.length_toList]; exact t.isLt
  rw [hkeeps t ht, List.getElem?_eq_getElem ht, Vector.getElem_toList, Fin.getElem_fin]

/-- Each word after the block follows the recurrence. -/
theorem sha2Expand_getElem?_recurrence {t : Nat} (hblock : 16 ≤ t) (hend : t < 16 + n) {w2 w7 w15 w16 : BitVec w}
    (h2 : (sha2Expand s0 s1 n x.toList)[t - 2]? = some w2) (h7 : (sha2Expand s0 s1 n x.toList)[t - 7]? = some w7)
    (h15 : (sha2Expand s0 s1 n x.toList)[t - 15]? = some w15)
    (h16 : (sha2Expand s0 s1 n x.toList)[t - 16]? = some w16) :
    (sha2Expand s0 s1 n x.toList)[t]? = some (s1 w2 + w7 + s0 w15 + w16) := by
  have hx : x.toList.length = 16 := Vector.length_toList
  obtain ⟨pre, rfl, hpre, hnext⟩ := sha2Expand_next s0 s1 n x.toList t (by omega) (by omega)
  rw [hpre _ (by omega)] at h2 h7 h15 h16
  rw [hnext, sha2Next_eq_add s0 s1 h2 h7 h15 h16]

end

/-- The words of the padded block of the message "abc" in R402's example. -/
def sha256AbcBlock : Vector Word32 16 := #v[0x61626380, 0, 0, 0, 0, 0, 0, 0, 0, 0, 0, 0, 0, 0, 0, 0x18]

theorem parseBlock_abc_sha256 :
    parseBlock Alg.sha256.order 32 ([0x61, 0x62, 0x63] ++ padding .sha256 3) = sha256AbcBlock := by
  decide +kernel

/-- The later schedule words that R402's example names. -/
theorem sha256Schedule_abc :
    ((sha256Schedule sha256AbcBlock).drop 16).take 2 = [0x61626380, 0x000F0000] ∧
    (sha256Schedule sha256AbcBlock)[63]? = some 0x12B1EDEB := by
  decide +kernel

/-- The words of the padded block of the message "abc" in R412's example. -/
theorem parseBlock_abc_sha512 :
    parseBlock Alg.sha512.order 64 ([0x61, 0x62, 0x63] ++ padding .sha512 3) =
      #v[0x6162638000000000, 0, 0, 0, 0, 0, 0, 0, 0, 0, 0, 0, 0, 0, 0, 0x18] := by
  decide +kernel

/-- Settles O55: each schedule is the expansion of its block, by 48 or by 64 words; the examples' words are computed. -/
theorem sha2SchedulesFollowTheirRecurrences : Obligations.Sha2SchedulesFollowTheirRecurrences := by
  refine ⟨fun x => ⟨sha2Expand_block_length _ _ 48 x, sha2Expand_getElem?_block _ _ 48 x, ?_⟩,
    fun x => ⟨sha2Expand_block_length _ _ 64 x, sha2Expand_getElem?_block _ _ 64 x, ?_⟩, ?_, parseBlock_abc_sha512⟩
  · intro t hblock hend w2 w7 w15 w16 h2 h7 h15 h16
    exact sha2Expand_getElem?_recurrence _ _ 48 x hblock hend h2 h7 h15 h16
  · intro t hblock hend w2 w7 w15 w16 h2 h7 h15 h16
    exact sha2Expand_getElem?_recurrence _ _ 64 x hblock hend h2 h7 h15 h16
  · rintro x rfl
    rw [parseBlock_abc_sha256]
    exact ⟨rfl, sha256Schedule_abc⟩

/-! The initial values of SHA-512/t (R424 to R426). -/

/-- A stream with nothing absorbed and the SHA-512 IV, every word XORed with R426's constant, in the state store. -/
def ivGeneratorStart : Acc :=
  { accInit .sha512 with h := Vector.ofFn fun i => if i.val < 8 then (ivSlots .sha512)[i] ^^^ 0xA5A5A5A5A5A5A5A5 else 0 }

/-- The IV generation function of R426: the untruncated state after absorbing the name and its padding. -/
def generatedIv (name : List Byte) : Slots := (padded .sha512 (absorbSeq .sha512 ivGeneratorStart name)).h

/-- The function generates the constants of R424 from the name "SHA-512/224". -/
theorem generatedIv_sha512_224 :
    generatedIv [0x53, 0x48, 0x41, 0x2D, 0x35, 0x31, 0x32, 0x2F, 0x32, 0x32, 0x34] = ivSlots .sha512_224 := by
  decide +kernel

/-- The function generates the constants of R425 from the name "SHA-512/256". -/
theorem generatedIv_sha512_256 :
    generatedIv [0x53, 0x48, 0x41, 0x2D, 0x35, 0x31, 0x32, 0x2F, 0x32, 0x35, 0x36] = ivSlots .sha512_256 := by
  decide +kernel

/-- Settles O14: each name's generated value is computed; INIT loads the constants whatever the state (`exec_init`). -/
theorem sha512TruncatedInitialValues : Obligations.Sha512TruncatedInitialValues := by
  refine ⟨?_, fun s => ⟨_, exec_init .sha512_224 s, s.initStream_h _⟩,
    fun s => ⟨_, exec_init .sha512_256 s, s.initStream_h _⟩⟩
  rintro a name (⟨rfl, rfl⟩ | ⟨rfl, rfl⟩)
  · exact generatedIv_sha512_224
  · exact generatedIv_sha512_256

end Sys2Proof.Machine
end

section
/-! PROOFS. The statements about refused commands (60_exceptions.md R602). -/

namespace Sys2Proof.Machine

/-- With `ERR = 0` a word that decodes is the command it decodes to (R126). -/
theorem issue_of_decode_ok (w : Word64) (i : Instr) (s : State) (hs : s.err = false) (hd : decode w = .ok i) :
    issue w s = exec i s := by
  simp [issue, hs, hd]

/-- A word that sets `ERR` is refused, by its decoding or by its execution: it records its code and ends there (R602). -/
theorem issue_eq_raise_of_sets_err (w : Word64) (s t : State) (hs : s.err = false) (h : issue w s = .next t)
    (ht : t.err = true) : ∃ code, code ≠ .none ∧ t = s.raise code := by
  cases hd : decode w with
  | error code =>
    rw [issue_of_decode_error w code s hs hd] at h
    cases h
    exact ⟨code, decode_error_ne_none w code hd, (s.raise_of_err_false code hs).symm⟩
  | ok i =>
    rw [issue_of_decode_ok w i s hs hd] at h
    exact exec_eq_raise_of_sets_err i s t hs h ht

/-- Recording an error's code with `ERR = 0` changes only `ERR` and `ECODE` (R602). -/
theorem error_record_of_raise (s t : State) (hs : s.err = false) (h : ∃ code, code ≠ .none ∧ t = s.raise code) :
    t = { s with err := true, ecode := t.ecode } ∧ t.ecode ≠ .none := by
  obtain ⟨code, hcode, rfl⟩ := h
  rw [s.raise_of_err_false code hs]
  exact ⟨rfl, hcode⟩

/-- Settles O24: a command and a word that set `ERR` have each recorded an error's code, and a record changes nothing
else. -/
theorem refusalChangesOnlyTheErrorRecord : Obligations.RefusalChangesOnlyTheErrorRecord :=
  ⟨fun i s t hs h ht => error_record_of_raise s t hs (exec_eq_raise_of_sets_err i s t hs h ht),
    fun w s t hs h ht => error_record_of_raise s t hs (issue_eq_raise_of_sets_err w s t hs h ht),
    fun _ _ => rfl⟩

end Sys2Proof.Machine
end

section
/-! PROOFS. The statement about what INIT forgets (70_reset_and_hazards.md R702). -/

namespace Sys2Proof.Machine

/-- INIT is reset, but for the algorithm it selects, the stream it opens, and the `SRC` and last reply it keeps. -/
theorem State.initStream_eq_resetRegs (s : State) (a : Alg) :
    s.initStream a =
      { s.resetRegs with alg := some a, ready := true, h := ivSlots a, src := s.src, reply := s.reply } := rfl

/-- INIT from two states with the same `SRC` leaves the same registers: only what is no register tells the two apart. -/
theorem State.initStream_eq_of_src_eq (s s' : State) (a : Alg) (h : s.src = s'.src) :
    s'.initStream a =
      { s.initStream a with params := s'.params, iwin := s'.iwin, racing := s'.racing, host := s'.host,
                            reply := s'.reply } := by
  simp only [State.initStream, h]

/-- Settles O13: INIT is `State.initStream` in every state (`exec_init`), which takes no register but `SRC` from the state
before it. -/
theorem initForgetsTheHistory : Obligations.InitForgetsTheHistory := by
  refine ⟨fun a s s' h => ⟨_, _, exec_init a s, exec_init a s', s.initStream_eq_of_src_eq s' a h⟩, fun a s => ?_⟩
  rw [exec_init, s.initStream_eq_resetRegs]

end Sys2Proof.Machine
end

section
/-! PROOFS. The statements about decoding and encoding (30_encoding.md R120 to R125): the decoder and the encoder undo each
other, and the words that decode are those of the opcode table. -/

namespace Sys2Proof

/-! Decoding an encoded instruction. -/

theorem encode_init (a : Alg) : encode (Instr.init a) = packCmd 0x1 a.code 0 0 := by cases a <;> rfl

theorem decode_encode_init (a : Alg) : decode (encode (Instr.init a)) = .ok (Instr.init a) := by
  simp [encode_init, decode]

/-- INIT by its algorithm, and the other five commands one by one. -/
theorem decode_encode (i : Instr) : decode (encode i) = .ok i := by
  cases hi : i.initAlg with
  | some a => rw [i.eq_init_of_initAlg a hi, decode_encode_init]
  | none =>
    cases i with
    | updr byte count => simp [encode, decode]
    | setsrc off => simp [encode, decode]
    | upds length => simp [encode, decode]
    | updz => simp [encode, decode]
    | digest => simp [encode, decode]
    | _ => cases hi

/-- Settles O2, by the fields of a packed word. -/
theorem decodeOfEncodeIsTheInstruction : Obligations.DecodeOfEncodeIsTheInstruction := decode_encode

/-! Encoding a decoded word. -/

/-- A word with the given fields is their packing. -/
theorem packCmd_eq_of_fields (w : Word64) (o a : BitVec 4) (b : Byte) (n : BitVec 48) (ho : (cmdOp w).toNat = o.toNat)
    (ha : cmdAlg w = a) (hb : cmdByte w = b) (hn : cmdN w = n) : packCmd o a b n = w := by
  rw [← BitVec.eq_of_toNat_eq ho, ← ha, ← hb, ← hn, packCmd_fields]

/-- A code that stands for an algorithm is the algorithm's (R124). -/
theorem Alg.code_of_ofCode (a : Alg) (c : BitVec 4) (h : Alg.ofCode c = some a) : c = a.code := by
  cases a <;> decide +revert

/-- Each opcode's checks fix the fields that its instruction does not hold (R125). -/
theorem encode_of_decode (w : Word64) (i : Instr) (h : decode w = .ok i) : encode i = w := by
  unfold decode at h
  split at h
  case h_1 hop =>
    split at h
    case isFalse => cases h
    case isTrue hf =>
      obtain ⟨hbyte, hn⟩ := hf
      split at h
      case h_2 => cases h
      case h_1 a ha =>
        cases h
        rw [encode_init]
        exact packCmd_eq_of_fields w _ _ _ _ hop (a.code_of_ofCode _ ha) hbyte hn
  case h_2 hop =>
    split at h
    case isFalse => cases h
    case isTrue halg =>
      cases h
      exact packCmd_eq_of_fields w _ _ _ _ hop halg rfl rfl
  case h_3 hop | h_4 hop =>
    split at h
    case isFalse => cases h
    case isTrue hf =>
      obtain ⟨halg, hbyte⟩ := hf
      cases h
      exact packCmd_eq_of_fields w _ _ _ _ hop halg hbyte rfl
  case h_5 hop | h_6 hop =>
    split at h
    case isFalse => cases h
    case isTrue hf =>
      obtain ⟨halg, hbyte, hn⟩ := hf
      cases h
      exact packCmd_eq_of_fields w _ _ _ _ hop halg hbyte hn
  case h_7 => cases h

/-- Settles O3, by the checks of each opcode. -/
theorem encodeOfDecodeIsTheWord : Obligations.EncodeOfDecodeIsTheWord := encode_of_decode

/-! The rows of the opcode table. -/

/-- The encoded word of an instruction matches its row. -/
theorem tableRow_matches_encode (i : Instr) : (tableRow i).matches (encode i) = true := by
  cases i with
  | updr byte count => exact Laws.EncodesToItsRow.updr byte count
  | setsrc off => exact Laws.EncodesToItsRow.setsrc off
  | upds length => exact Laws.EncodesToItsRow.upds length
  | _ => decide

/-- Every instruction has its row, which does not depend on its operands. -/
theorem tableRow_mem_opcodeRows (i : Instr) : tableRow i ∈ opcodeRows := by
  cases i with
  | updr byte count => exact List.mem_map_of_mem (a := Instr.updr 0 0) (by decide)
  | setsrc off => exact List.mem_map_of_mem (a := Instr.setsrc 0) (by decide)
  | upds length => exact List.mem_map_of_mem (a := Instr.upds 0) (by decide)
  | _ => exact List.mem_map_of_mem (by decide)

/-- Every row of the table is an instruction's. -/
theorem exists_tableRow_of_mem (r : OpcodeRow) (h : r ∈ opcodeRows) : ∃ i, tableRow i = r := by
  obtain ⟨i, -, hi⟩ := List.mem_map.mp h
  exact ⟨i, hi⟩

theorem cmdOp_and (x y : Word64) : cmdOp (x &&& y) = cmdOp x &&& cmdOp y := BitVec.extractLsb'_and
theorem cmdAlg_and (x y : Word64) : cmdAlg (x &&& y) = cmdAlg x &&& cmdAlg y := BitVec.extractLsb'_and
theorem cmdByte_and (x y : Word64) : cmdByte (x &&& y) = cmdByte x &&& cmdByte y := BitVec.extractLsb'_and

theorem OpcodeRow.matches_iff (r : OpcodeRow) (w : Word64) : r.matches w = true ↔ w &&& r.mask = r.bits := by
  rw [OpcodeRow.matches, beq_iff_eq]

/-- A row that fixes `OP` and `ALG`, `ALG` to 0, and of `BYTE` the bits of a mask to 0, fixes these fields of a word. -/
theorem fields_of_matches (w : Word64) (o : BitVec 4) (m : Byte) (i : Instr) (h : (tableRow i).matches w = true)
    (hr : tableRow i = ⟨packCmd o 0 0 0, packCmd (BitVec.allOnes 4) (BitVec.allOnes 4) m 0⟩) :
    cmdOp w = o ∧ cmdAlg w = 0 ∧ cmdByte w &&& m = 0 := by
  rw [hr, OpcodeRow.matches_iff] at h
  have hop := congrArg cmdOp h
  have halg := congrArg cmdAlg h
  have hbyte := congrArg cmdByte h
  rw [cmdOp_and, cmdOp_packCmd, cmdOp_packCmd, BitVec.and_allOnes] at hop
  rw [cmdAlg_and, cmdAlg_packCmd, cmdAlg_packCmd, BitVec.and_allOnes] at halg
  rw [cmdByte_and, cmdByte_packCmd, cmdByte_packCmd] at hbyte
  exact ⟨hop, halg, hbyte⟩

/-- A row that fixes every bit is matched by the word of its instruction alone. -/
theorem decode_of_matches_full (w : Word64) (i : Instr) (h : (tableRow i).matches w = true)
    (hr : tableRow i = ⟨encode i, BitVec.allOnes 64⟩) : decode w = .ok i := by
  rw [hr, OpcodeRow.matches_iff, BitVec.and_allOnes] at h
  rw [h, decode_encode]

/-- A word that matches the row of an instruction decodes: the row fixes all but the operands. -/
theorem exists_decode_of_matches (w : Word64) (i : Instr) (h : (tableRow i).matches w = true) :
    ∃ j, decode w = .ok j := by
  cases i with
  | updr byte count =>
    obtain ⟨hop, halg, -⟩ := fields_of_matches w 2 0 _ h rfl
    exact ⟨.updr (cmdByte w) (cmdN w), by simp [decode, hop, halg]⟩
  | setsrc off =>
    obtain ⟨hop, halg, hbyte⟩ := fields_of_matches w 3 (BitVec.allOnes 8) _ h rfl
    rw [BitVec.and_allOnes] at hbyte
    exact ⟨.setsrc (cmdN w), by simp [decode, hop, halg, hbyte]⟩
  | upds length =>
    obtain ⟨hop, halg, hbyte⟩ := fields_of_matches w 4 (BitVec.allOnes 8) _ h rfl
    rw [BitVec.and_allOnes] at hbyte
    exact ⟨.upds (cmdN w), by simp [decode, hop, halg, hbyte]⟩
  | _ => exact ⟨_, decode_of_matches_full w _ h rfl⟩

/-- Settles O4: a word that decodes is the encoding of its instruction, which matches that instruction's row. -/
theorem decodableWordsMatchARow : Obligations.DecodableWordsMatchARow := by
  intro w
  constructor
  · rintro ⟨i, hd⟩
    refine ⟨tableRow i, tableRow_mem_opcodeRows i, ?_⟩
    rw [← encode_of_decode w i hd]
    exact tableRow_matches_encode i
  · rintro ⟨r, hr, hm⟩
    obtain ⟨i, rfl⟩ := exists_tableRow_of_mem r hr
    exact exists_decode_of_matches w i hm

end Sys2Proof
end

section
/-! PROOFS. The layout of the state store (10_state.md R35, 41_accumulator.md R240) and the invariant of the registers
(R31 to R35, R38, R39): it holds at reset, and every operation a step is made of keeps it. -/

namespace Sys2Proof.Machine

/-! The slots a compression writes (R35, R240). -/

/-- Two groups of four words, the second after the first (R467): the slots after them stay, and these have zero upper
halves. -/
theorem put4_put4_getElem (h : Slots) (r r' : Regs4) (j : Fin 10) :
    (8 ≤ j.val → (put4 (put4 h 0 r) 4 r')[j] = h[j]) ∧
    (j.val < 8 → ((put4 (put4 h 0 r) 4 r')[j]).toNat < 2 ^ 32) := by
  obtain ⟨hfirst, hfirstNew⟩ := put4_getElem h 0 r j
  obtain ⟨hsecond, hsecondNew⟩ := put4_getElem (put4 h 0 r) 4 r' j
  refine ⟨fun hj => (hsecond (.inr hj)).trans (hfirst (.inr (Nat.le_trans (by decide) hj))), fun hj => ?_⟩
  rcases Nat.lt_or_ge j.val 4 with hlow | hhigh
  · rw [hsecond (.inl hlow)]
    exact hfirstNew ⟨Nat.zero_le _, hlow⟩
  · exact hsecondNew ⟨hhigh, hj⟩

/-- Two groups of five words, the second after the first, fill the store with words of zero upper halves (R467). -/
theorem put5_put5_lt (h : Slots) (r r' : Regs5) (j : Fin 10) : ((put5 (put5 h 0 r) 5 r')[j]).toNat < 2 ^ 32 := by
  obtain ⟨hsecond, hsecondNew⟩ := put5_getElem (put5 h 0 r) 5 r' j
  rcases Nat.lt_or_ge j.val 5 with hlow | hhigh
  · rw [hsecond (.inl hlow)]
    exact (put5_getElem h 0 r j).2 ⟨Nat.zero_le _, hlow⟩
  · exact hsecondNew ⟨hhigh, j.isLt⟩

/-- A compression leaves the slots from `N` on. -/
theorem compress_getElem_of_le (a : Alg) (h : Slots) (blk : List Byte) (i : Fin 10) (hi : a.stateWords ≤ i.val) :
    (compress a h blk)[i] = h[i] := by
  cases a with
  | md5 | rmd128 => exact (put4_getElem h 0 _ i).1 (.inr hi)
  | sha1 | rmd160 => exact (put5_getElem h 0 _ i).1 (.inr hi)
  | sha224 | sha256 | sha384 | sha512 | sha512_224 | sha512_256 => exact put8x64_getElem h _ i hi
  | rmd256 => exact (put4_put4_getElem h _ _ i).1 hi
  | rmd320 => exact absurd i.isLt (Nat.not_lt_of_le hi)

/-- At `W = 32` the words a compression writes have zero upper halves. -/
theorem compress_getElem_lt (a : Alg) (h : Slots) (blk : List Byte) (i : Fin 10) (hi : i.val < a.stateWords)
    (hw : a.wordBits = 32) : (compress a h blk)[i].toNat < 2 ^ 32 := by
  cases a with
  | md5 | rmd128 => exact (put4_getElem h 0 _ i).2 ⟨Nat.zero_le _, hi⟩
  | sha1 | rmd160 => exact (put5_getElem h 0 _ i).2 ⟨Nat.zero_le _, hi⟩
  | sha224 | sha256 => exact put8x32_lt h _ i hi
  | sha384 | sha512 | sha512_224 | sha512_256 => cases hw
  | rmd256 => exact (put4_put4_getElem h _ _ i).2 hi
  | rmd320 => exact put5_put5_lt h _ _ i

/-- Settles O39, algorithm by algorithm, from the slots that each group of words is written to. -/
theorem compressionWritesOnlyItsWords : Obligations.CompressionWritesOnlyItsWords :=
  fun a h blk i => ⟨compress_getElem_of_le a h blk i, compress_getElem_lt a h blk i⟩

/-! The layout of the state store (R35). -/

/-- The state words of a new stream: the IV, and 0 in the slots the algorithm does not use (R250). -/
theorem ivSlots_getElem (a : Alg) (i : Fin 10) :
    (ivSlots a)[i] = if i.val < a.stateWords then (iv a).getD i.val 0 else 0 := by
  rw [ivSlots, Fin.getElem_fin, Vector.getElem_ofFn]
  split
  · rfl
  · next hi => exact List.getD_eq_default _ _ (by rw [iv_length]; exact Nat.le_of_not_lt hi)

/-- At `W = 32` the IV's words have zero upper halves. -/
theorem iv_getD_lt (a : Alg) (hw : a.wordBits = 32) (i : Fin 10) : ((iv a).getD i.val 0).toNat < 2 ^ 32 := by
  cases a with
  | sha384 | sha512 | sha512_224 | sha512_256 => cases hw
  | _ => decide +revert

theorem slotsFit_ivSlots (a : Alg) : SlotsFit a (ivSlots a) := by
  intro i
  rw [ivSlots_getElem]
  refine ⟨fun hi => if_neg (Nat.not_lt_of_le hi), fun hw => ?_⟩
  split
  · exact iv_getD_lt a hw i
  · decide

theorem slotsFit_compress (a : Alg) (h : Slots) (blk : List Byte) (hf : SlotsFit a h) : SlotsFit a (compress a h blk) := by
  intro i
  obtain ⟨hzero, hlow⟩ := hf i
  refine ⟨fun hi => (compress_getElem_of_le a h blk i hi).trans (hzero hi), fun hw => ?_⟩
  rcases Nat.lt_or_ge i.val a.stateWords with hi | hi
  · exact compress_getElem_lt a h blk i hi hw
  · rw [compress_getElem_of_le a h blk i hi]
    exact hlow hw

theorem slotsFit_absorb (a : Alg) (c : Acc) (b : Byte) (hf : SlotsFit a c.h) : SlotsFit a (absorb a c b).h := by
  unfold absorb
  dsimp only
  split
  · exact slotsFit_compress a c.h _ hf
  · exact hf

theorem slotsFit_absorbSeq (a : Alg) (c : Acc) (bytes : List Byte) (hf : SlotsFit a c.h) :
    SlotsFit a (absorbSeq a c bytes).h := by
  induction bytes generalizing c with
  | nil => exact hf
  | cons b rest ih => exact ih _ (slotsFit_absorb a c b hf)

/-! The invariant of the registers. -/

/-- Power-on establishes the invariant, whatever the host is about to do (R55). -/
theorem State.inv_resetWith (p : Params) (hp : p.WellFormed) : (State.resetWith p).Inv where
  params_ok := hp
  ready_iff := rfl
  err_iff := by simp [State.resetWith]
  count_le a ha := by cases ha
  fresh _ := ⟨rfl, rfl, rfl⟩
  slots_fit a ha := by cases ha
  dlen_legal a ha := by cases ha
  dout_tail j _ := by simp [State.resetWith]
  iwin_wf := List.Pairwise.nil
  iwin_bound c hc := by cases hc
  racing_bound w hw := by cases hw

/-- Settles O36: reset establishes the invariant, and without an algorithm there is no stream. -/
theorem runInvariantHoldsAtReset : Obligations.RunInvariantHoldsAtReset :=
  ⟨State.inv_resetWith _ (by decide), fun p hp => ⟨State.inv_resetWith p hp, fun a ha => by cases ha⟩⟩

section
variable {s : State} (h : s.Inv)
include h

/-- The invariant does not speak of the model's own list and reply. -/
theorem State.Inv.taking (rest : List HostEvent) : (s.taking rest).Inv := { h with }

theorem State.Inv.land : s.land.Inv :=
  { h with
    iwin_wf := Memory.wf_foldl_write s.racing s.iwin h.iwin_wf
    iwin_bound := Memory.bound_foldl_write s.racing s.iwin _ h.iwin_bound h.racing_bound
    racing_bound := fun w hw => by cases hw }

theorem State.Inv.raise (code : ECode) (hc : code ≠ .none) : (s.raise code).Inv := by
  cases he : s.err with
  | true => rwa [s.raise_of_err_true code he]
  | false =>
    rw [s.raise_of_err_false code he]
    exact { h with err_iff := ⟨fun _ => hc, fun _ => rfl⟩ }

theorem State.Inv.initStream (a : Alg) : (s.initStream a).Inv :=
  { h with
    ready_iff := rfl
    err_iff := by simp
    count_le := fun b _ => Nat.zero_le _
    fresh := fun hb => by cases hb
    slots_fit := fun b hb => by cases hb; exact slotsFit_ivSlots a
    dlen_legal := fun b _ => .inl rfl
    dout_tail := fun j _ => by simp }

theorem State.Inv.setSrc (src : BitVec 48) : ({ s with src := src } : State).Inv := { h with }

theorem State.Inv.setDigest (a : Alg) (d : List Byte) (ha : s.alg = some a) : (s.setDigest a d).Inv :=
  { h with
    fresh := fun hb => by cases ha.symm.trans hb
    dlen_legal := fun b hb => by cases ha.symm.trans hb; exact .inr (s.setDigest_dlen a d)
    dout_tail := fun j hj => by
      rw [s.setDigest_dlen] at hj
      rw [s.setDigest_dout, digestOut_getElem, if_neg (Nat.not_lt_of_le hj)] }

theorem State.Inv.absorbed (a : Alg) (bytes : List Byte) (ha : s.alg = some a)
    (hl : s.count.toNat + bytes.length ≤ a.limit) : (s.setAcc (absorbSeq a s.acc bytes)).Inv :=
  { h with
    count_le := fun b hb => by
      cases ha.symm.trans hb
      have hlimit := a.limit_lt
      rw [s.setAcc_count, absorbSeq_count_toNat a s.acc bytes (by rw [s.acc_count]; omega)]
      exact hl
    fresh := fun hb => by cases ha.symm.trans hb
    slots_fit := fun b hb => by
      cases ha.symm.trans hb
      exact slotsFit_absorbSeq a s.acc bytes (h.slots_fit a ha) }

/-- Every command keeps the invariant. -/
theorem exec_keeps_inv {i : Instr} {t : State} (hx : exec i s = .next t) : t.Inv := by
  cases exec_cases i s t hx with
  | init a _ ht => exact ht ▸ h.initStream a
  | setsrc off _ ht => exact ht ▸ h.setSrc off
  | digest a _ _ ha ht => exact ht ▸ h.setDigest a _ ha
  | refused code _ hc _ ht => exact ht ▸ h.raise code hc
  | update a src _ _ ha hl _ ht => exact ht ▸ (h.absorbed a _ ha hl).setSrc src

theorem State.Inv.resetRegs : s.resetRegs.Inv :=
  { State.inv_resetWith s.params h.params_ok with
    iwin_wf := h.iwin_wf
    iwin_bound := h.iwin_bound
    racing_bound := h.racing_bound }

theorem State.Inv.powerOn : s.powerOn.Inv := { State.inv_resetWith s.params h.params_ok with }

theorem State.Inv.reply (r : Option Word64) : ({ s with reply := r } : State).Inv := { h with }

theorem State.Inv.windowStore (off : Nat) (bytes : List Byte) (hb : off + bytes.length ≤ s.params.iwinSize) :
    ({ s with iwin := s.iwin.writeBytes off bytes } : State).Inv :=
  { h with
    iwin_wf := Memory.wf_writeBytes s.iwin off bytes h.iwin_wf
    iwin_bound := Memory.bound_writeBytes s.iwin off _ bytes h.iwin_bound hb }

theorem State.Inv.overlap (w : RaceWrite) (hw : w.offset < s.params.iwinSize) :
    ({ s with racing := s.racing ++ [w] } : State).Inv :=
  { h with
    racing_bound := fun x hx => by
      rcases List.mem_append.mp hx with hx | hx
      · exact h.racing_bound x hx
      · rwa [List.mem_singleton.mp hx] }

/-- Every step keeps it. -/
theorem step_keeps_inv {t : State} (hx : step s = .next t) : t.Inv := by
  cases step_cases s t hx with
  | idle _ ht => exact ht ▸ h.land
  | discarded w rest _ _ _ ht => exact ht ▸ (h.taking rest).land
  | illegal w rest code _ hd ht => exact ht ▸ ((h.taking rest).raise code (decode_error_ne_none w code hd)).land
  | command w rest i u _ _ _ hx ht => exact ht ▸ (exec_keeps_inv (h.taking rest) hx).land
  | registerStore addr width v rest _ ht => exact ht ▸ (h.taking rest).land
  | windowStore off width v rest _ hw ht =>
    have hlen : ((storeLE v).take width).length ≤ width := List.length_take_le _ _
    exact ht ▸ (h.taking rest).land.windowStore off _ (by simp only [State.land_params]; omega)
  | load addr width v rest _ ht => exact ht ▸ (h.taking rest).land.reply (some v)
  | overlap w rest _ hw ht => exact ht ▸ (h.taking rest).overlap w hw
  | reset rest _ ht => exact ht ▸ (h.taking rest).land.resetRegs
  | powerOn rest _ ht => exact ht ▸ (h.taking rest).powerOn

end

/-- Settles O37: each of the operations a step is made of keeps the invariant. -/
theorem stepKeepsTheRunInvariant : Obligations.StepKeepsTheRunInvariant := fun _ _ h => step_keeps_inv h

end Sys2Proof.Machine
end

section
/-! PROOFS. The invariant of the stream (10_state.md R36, 70_reset_and_hazards.md R704, R711): every operation a step is made
of keeps it. -/

namespace Sys2Proof.Machine

/-- The stream and the digest of a state are those of a message within the limit. -/
def State.HoldsMessage (a : Alg) (msg : List Byte) (s : State) : Prop :=
  msg.length ≤ a.limit ∧ Accumulates a msg s.acc ∧ DigestOf a msg s

/-- The invariant with an algorithm known to be selected. -/
theorem State.streamInv_iff (s : State) (a : Alg) (ha : s.alg = some a) :
    s.StreamInv ↔ ∃ msg, s.HoldsMessage a msg := by
  refine ⟨fun h => h a ha, fun h b hb => ?_⟩
  cases ha.symm.trans hb
  exact h

/-- Without an algorithm there is no stream to speak of. -/
theorem State.streamInv_of_alg_none (s : State) (ha : s.alg = none) : s.StreamInv := by
  intro a hb
  cases ha.symm.trans hb

/-- A digest of the message so far stays one of a beginning of the message as it grows (R711). -/
theorem digestOf_append (a : Alg) (msg bytes : List Byte) (s : State) (h : DigestOf a msg s) :
    DigestOf a (msg ++ bytes) s :=
  h.imp_right fun ⟨pre, hpre, hd⟩ => ⟨pre, hpre.trans (List.prefix_append msg bytes), hd⟩

/-- INIT begins the stream of the empty message, with no digest (R250). -/
theorem State.streamInv_initStream (s : State) (a : Alg) : (s.initStream a).StreamInv :=
  (State.streamInv_iff _ a rfl).mpr ⟨[], Nat.zero_le _, accumulates_init a, .inl ⟨rfl, rfl⟩⟩

section
variable {s : State} (h : s.StreamInv)
include h

/-- What leaves `ALG`, the accumulator, `DOUT` and `DLEN` keeps the invariant. -/
theorem State.StreamInv.of_eq {t : State} (ha : t.alg = s.alg) (hacc : t.acc = s.acc) (hd : t.dout = s.dout)
    (hn : t.dlen = s.dlen) : t.StreamInv := by
  unfold State.StreamInv DigestOf
  rw [ha, hacc, hd, hn]
  exact h

theorem State.StreamInv.raise (code : ECode) : (s.raise code).StreamInv :=
  h.of_eq (s.raise_alg code) (s.acc_raise code) (s.raise_dout code) (s.raise_dlen code)

/-- DIGEST writes the hash of the whole message (R296). -/
theorem State.StreamInv.digest (a : Alg) (ha : s.alg = some a) : (s.setDigest a (finalize a s.acc)).StreamInv := by
  obtain ⟨msg, hlen, hacc, -⟩ := h a ha
  refine ((s.setDigest a _).streamInv_iff a ha).mpr ⟨msg, hlen, hacc, .inr ⟨msg, List.prefix_rfl, s.setDigest_dlen a _, ?_⟩⟩
  rw [s.setDigest_dout, finalize_eq_hash a msg s.acc hlen hacc]

/-- An update extends the message (R241). -/
theorem State.StreamInv.absorbed (a : Alg) (bytes : List Byte) (ha : s.alg = some a)
    (hl : s.count.toNat + bytes.length ≤ a.limit) : (s.setAcc (absorbSeq a s.acc bytes)).StreamInv := by
  obtain ⟨msg, hlen, hacc, hdig⟩ := h a ha
  have hcount : s.count.toNat = msg.length := hacc.count_eq
  have hlimit := a.limit_lt
  have hlen' : (msg ++ bytes).length ≤ a.limit := by rw [List.length_append]; omega
  exact ((s.setAcc _).streamInv_iff a ha).mpr
    ⟨msg ++ bytes, hlen', accumulates_absorbSeq a bytes msg s.acc hacc (by omega), digestOf_append a msg bytes s hdig⟩

/-- Every command keeps the invariant. -/
theorem exec_keeps_streamInv {i : Instr} {t : State} (hx : exec i s = .next t) : t.StreamInv := by
  cases exec_cases i s t hx with
  | init a _ ht => exact ht ▸ s.streamInv_initStream a
  | setsrc off _ ht => exact ht ▸ h.of_eq rfl rfl rfl rfl
  | digest a _ _ ha ht => exact ht ▸ h.digest a ha
  | refused code _ _ _ ht => exact ht ▸ h.raise code
  | update a src _ _ ha hl _ ht => exact ht ▸ (h.absorbed a _ ha hl).of_eq rfl rfl rfl rfl

/-- Every step keeps it. -/
theorem step_keeps_streamInv {t : State} (hx : step s = .next t) : t.StreamInv := by
  cases step_cases s t hx with
  | idle _ ht => exact ht ▸ h.of_eq rfl rfl rfl rfl
  | discarded w rest _ _ _ ht => exact ht ▸ h.of_eq rfl rfl rfl rfl
  | illegal w rest code _ _ ht =>
    have htaken : (s.taking rest).StreamInv := h.of_eq rfl rfl rfl rfl
    exact ht ▸ (htaken.raise code).of_eq rfl rfl rfl rfl
  | command w rest i u _ _ _ hx ht =>
    have htaken : (s.taking rest).StreamInv := h.of_eq rfl rfl rfl rfl
    exact ht ▸ (exec_keeps_streamInv htaken hx).of_eq rfl rfl rfl rfl
  | registerStore addr width v rest _ ht => exact ht ▸ h.of_eq rfl rfl rfl rfl
  | windowStore off width v rest _ _ ht => exact ht ▸ h.of_eq rfl rfl rfl rfl
  | load addr width v rest _ ht => exact ht ▸ h.of_eq rfl rfl rfl rfl
  | overlap w rest _ _ ht => exact ht ▸ h.of_eq rfl rfl rfl rfl
  | reset rest _ ht => exact ht ▸ State.streamInv_of_alg_none _ rfl
  | powerOn rest _ ht => exact ht ▸ State.streamInv_of_alg_none _ rfl

end

/-- Settles O38: a new stream is that of the empty message, an update extends the message, a digest is that of the whole
message, and nothing else touches the stream. -/
theorem stepKeepsTheStream : Obligations.StepKeepsTheStream := fun _ _ _ h => step_keeps_streamInv h

end Sys2Proof.Machine
end

section
/-! PROOFS. The statements about the commands (41_accumulator.md R244 to R266, 42_finalizer.md R290, 60_exceptions.md R601,
R605, R606): one rule for each way a command ends, with its checks as hypotheses. -/

namespace Sys2Proof.Machine

/-! INIT and SETSRC (R250, R262). -/

/-- Settles O12: INIT is `State.initStream` in every state. -/
theorem initStartsANewStream : Obligations.InitStartsANewStream := by
  intro a s
  exact ⟨_, exec_init a s, rfl, rfl, rfl, rfl, rfl, fun i => by simp, ivSlots_getElem a, iv_length a, fun i => by simp,
    rfl, rfl, rfl, rfl, rfl, rfl, fun _ => rfl⟩

/-- Settles O18, by definition. -/
theorem setsrcLoadsTheOffset : Obligations.SetsrcLoadsTheOffset := fun _ _ => rfl

/-! An update or DIGEST without a stream (R601). -/

theorem exec_of_not_ready (i : Instr) (s : State) (hi : isUpdate i = true ∨ i = .digest) (hr : s.ready = false) :
    exec i s = .next (s.raise .notInit) := by
  cases i with
  | updr byte count => exact s.withAlg_of_not_ready _ hr
  | upds length => exact s.withAlg_of_not_ready _ hr
  | updz => exact s.withAlg_of_not_ready _ hr
  | digest => exact s.withAlg_of_not_ready _ hr
  | _ => simp [isUpdate] at hi

/-! Reading the span. -/

theorem State.absorbSpan_of_known (s : State) (a : Alg) (next : Nat) (bytes : List Byte)
    (hb : ∀ k (hk : k < bytes.length), s.memRead .absorb (s.src.toNat + k) = some bytes[k]) :
    s.absorbSpan a bytes.length next = .next ((s.setAcc (absorbSeq a s.acc bytes)).setSrc next) := by
  simp only [State.absorbSpan, s.spanBytes_eq_some s.src.toNat bytes hb]

theorem State.absorbSpan_of_unknown (s : State) (a : Alg) (n k next : Nat) (hk : k < n)
    (hb : s.memRead .absorb (s.src.toNat + k) = none) : s.absorbSpan a n next = .fault .unwrittenByte := by
  simp only [State.absorbSpan, (s.spanBytes_none s.src.toNat n).mpr ⟨k, hk, hb⟩]

section
variable (s : State) (a : Alg) (hr : s.ready = true) (ha : s.alg = some a)
include hr ha

/-! UPDR (R260). -/

theorem exec_updr_of_le (byte : Byte) (count : BitVec 48) (hl : s.count.toNat + count.toNat ≤ a.limit) :
    exec (.updr byte count) s = .next (s.setAcc (absorbSeq a s.acc (List.replicate count.toNat byte))) :=
  (s.withAlg_of_ready a _ hr ha).trans (s.guardCount_of_le a _ _ hl)

theorem exec_updr_of_lt (byte : Byte) (count : BitVec 48) (hl : a.limit < s.count.toNat + count.toNat) :
    exec (.updr byte count) s = .next (s.raise .countOverflow) :=
  (s.withAlg_of_ready a _ hr ha).trans (s.guardCount_of_lt a _ _ hl)

/-! UPDS (R264). -/

theorem exec_upds_of_range (length : BitVec 48) (hs : s.params.iwinSize < s.src.toNat + length.toNat) :
    exec (.upds length) s = .next (s.raise .srcRange) :=
  (s.withAlg_of_ready a _ hr ha).trans (if_pos hs)

theorem exec_upds_in_range (length : BitVec 48) (hs : s.src.toNat + length.toNat ≤ s.params.iwinSize) :
    exec (.upds length) s =
      s.guardCount a length.toNat (s.absorbSpan a length.toNat (s.src.toNat + length.toNat)) :=
  (s.withAlg_of_ready a _ hr ha).trans (if_neg (Nat.not_lt_of_le hs))

/-- UPDS over known bytes absorbs them. -/
theorem exec_upds_of_known (length : BitVec 48) (bytes : List Byte)
    (hs : s.src.toNat + length.toNat ≤ s.params.iwinSize) (hl : s.count.toNat + length.toNat ≤ a.limit)
    (hlen : bytes.length = length.toNat)
    (hb : ∀ k (hk : k < bytes.length), s.memRead .absorb (s.src.toNat + k) = some bytes[k]) :
    exec (.upds length) s =
      .next ((s.setAcc (absorbSeq a s.acc bytes)).setSrc (s.src.toNat + length.toNat)) := by
  rw [exec_upds_in_range s a hr ha length hs, s.guardCount_of_le a _ _ hl, ← hlen, s.absorbSpan_of_known a _ bytes hb]

/-! UPDZ (R266). -/

theorem exec_updz_of_noZero (hz : s.findZero s.src.toNat (s.params.iwinSize - s.src.toNat) = .noZero) :
    exec .updz s = .next (s.raise .srcRange) :=
  (s.withAlg_of_ready a _ hr ha).trans (by simp only [hz])

theorem exec_updz_of_unwritten (hz : s.findZero s.src.toNat (s.params.iwinSize - s.src.toNat) = .unwritten) :
    exec .updz s = .fault .unwrittenByte :=
  (s.withAlg_of_ready a _ hr ha).trans (by simp only [hz])

/-- Once the search has found a zero byte, `k` bytes after `SRC`. -/
theorem exec_updz_of_found (k : Nat)
    (hz : s.findZero s.src.toNat (s.params.iwinSize - s.src.toNat) = .found (s.src.toNat + k)) :
    exec .updz s = s.guardCount a k (s.absorbSpan a k (s.src.toNat + k + 1)) := by
  refine (s.withAlg_of_ready a _ hr ha).trans ?_
  simp only [hz, Nat.add_sub_cancel_left]

end

/-- The search over the window from `SRC` on finds the first zero byte (R266). -/
theorem State.findZero_window_found (s : State) (k : Nat) (hk : s.src.toNat + k < s.params.iwinSize)
    (hj : ∀ j < k, ∃ b, s.memRead .scan (s.src.toNat + j) = some b ∧ b ≠ 0)
    (h0 : s.memRead .scan (s.src.toNat + k) = some 0) :
    s.findZero s.src.toNat (s.params.iwinSize - s.src.toNat) = .found (s.src.toNat + k) :=
  (s.findZero_found _ _ _).mpr ⟨k, by omega, rfl, h0, hj⟩

/-! The statements about completion. -/

/-- Settles O15: the checks of UPDR pass. -/
theorem updrAbsorbsTheRepeatedByte : Obligations.UpdrAbsorbsTheRepeatedByte :=
  fun s a byte count hr ha hl => ⟨_, rfl, exec_updr_of_le s a hr ha byte count hl⟩

/-- Settles O19: the checks of UPDS pass and its span is read. -/
theorem updsAbsorbsTheSpan : Obligations.UpdsAbsorbsTheSpan :=
  fun s a length bytes hr ha hs hl hlen hb => ⟨_, rfl, exec_upds_of_known s a hr ha length bytes hs hl hlen hb⟩

/-- Settles O20: the search finds the terminator, and the bytes before it are read. -/
theorem updzAbsorbsTheString : Obligations.UpdzAbsorbsTheString := by
  intro s a bytes hr ha hs hl hj h0 hb
  refine ⟨_, rfl, ?_⟩
  rw [exec_updz_of_found s a hr ha _ (s.findZero_window_found _ hs hj h0), s.guardCount_of_le a _ _ hl,
    s.absorbSpan_of_known a _ bytes hb]
  rfl

/-- The state words hold at least `DLEN` bytes, so the digest has `DLEN` (R293, R294). -/
theorem finalize_length (a : Alg) (c : Acc) : (finalize a c).length = a.digestBytes := by
  have hdlen : a.digestBytes ≤ a.stateWords * (a.wordBits / 8) := by cases a <;> decide
  rw [finalize, List.length_take, serialize_length, Nat.min_eq_left hdlen]

/-- Settles O32: DIGEST writes what `Finalize` returns, filled up with zeros. -/
theorem digestWritesTheDigest : Obligations.DigestWritesTheDigest :=
  fun s a hr ha => ⟨digestOut a (finalize a s.acc), BitVec.ofNat 7 a.digestBytes, exec_digest_of_ready s a hr ha,
    s.setDigest_dlen a (finalize a s.acc), finalize_length a s.acc, digestOut_getElem a _⟩

/-! UPDR of one byte value, in one command or in many (R131, R244). -/

/-- A sequence of UPDRs of one byte absorbs it as often as their counts say together. -/
theorem execAll_updrs (s : State) (a : Alg) (byte : Byte) (counts : List (BitVec 48)) (hr : s.ready = true)
    (ha : s.alg = some a) (hl : s.count.toNat + (counts.map BitVec.toNat).sum ≤ a.limit) :
    execAll (counts.map (.updr byte)) s =
      .next (s.setAcc (absorbSeq a s.acc (List.replicate (counts.map BitVec.toNat).sum byte))) := by
  induction counts generalizing s with
  | nil => rfl
  | cons n rest ih =>
    simp only [List.map_cons, List.sum_cons] at hl ⊢
    have hlimit := a.limit_lt
    have hcount := absorbSeq_count_toNat a s.acc (List.replicate n.toNat byte)
      (by rw [List.length_replicate, s.acc_count]; omega)
    rw [List.length_replicate, s.acc_count] at hcount
    rw [execAll, exec_updr_of_le s a hr ha byte n (by omega)]
    refine (ih (s.setAcc _) hr ha (by rw [s.setAcc_count]; omega)).trans ?_
    rw [s.acc_setAcc, ← absorbSeq_append, List.replicate_append_replicate]
    rfl

/-- Settles O16: `n` counts of 1 sum to `n`; and a span of equal bytes is the repeated byte. -/
theorem updrEqualsSingleBytes : Obligations.UpdrEqualsSingleBytes := by
  refine ⟨fun s a byte count hr ha hl => ?_, fun s a byte count hr ha hl hs hb => ?_⟩
  · have hsum : ((List.replicate count.toNat (1 : BitVec 48)).map BitVec.toNat).sum = count.toNat := by simp
    have h := execAll_updrs s a byte (List.replicate count.toNat 1) hr ha (by rwa [hsum])
    rw [List.map_replicate, hsum] at h
    rw [h, exec_updr_of_le s a hr ha byte count hl]
  · have hspan := exec_upds_of_known s a hr ha count (List.replicate count.toNat byte) hs hl List.length_replicate
      (fun k hk => by rw [List.getElem_replicate]; exact hb k (by rwa [List.length_replicate] at hk))
    exact ⟨_, _, exec_updr_of_le s a hr ha byte count hl, hspan, rfl⟩

/-- The counts of the commands that UPDRL expands to (R131). -/
def updrlCounts (count : Nat) : List (BitVec 48) :=
  List.replicate (count / maxCount) (BitVec.ofNat 48 maxCount) ++
    if count % maxCount = 0 then [] else [BitVec.ofNat 48 (count % maxCount)]

theorem expandUpdrl_eq_map (byte : Byte) (count : Nat) : expandUpdrl byte count = (updrlCounts count).map (.updr byte) := by
  rw [expandUpdrl, updrlCounts, List.map_append, List.map_replicate]
  split <;> rfl

/-- They sum to the whole count. -/
theorem updrlCounts_sum (count : Nat) : ((updrlCounts count).map BitVec.toNat).sum = count := by
  have hmax : (BitVec.ofNat 48 maxCount).toNat = maxCount := by decide
  have hrest : (BitVec.ofNat 48 (count % maxCount)).toNat = count % maxCount := by
    have hlt : count % maxCount < maxCount := Nat.mod_lt _ (by decide)
    rw [BitVec.toNat_ofNat, Nat.mod_eq_of_lt (Nat.lt_trans hlt (by decide))]
  have hdiv := Nat.div_add_mod' count maxCount
  rw [updrlCounts, List.map_append, List.sum_append, List.map_replicate, List.sum_replicate, hmax, smul_eq_mul]
  split
  case isTrue h => simp only [List.map_nil, List.sum_nil]; omega
  case isFalse => simp only [List.map_cons, List.map_nil, List.sum_singleton, hrest]; exact hdiv

/-- Settles O59: the expansion is a sequence of UPDRs whose counts sum to the whole. -/
theorem updrlAbsorbsTheWholeCount : Obligations.UpdrlAbsorbsTheWholeCount := by
  intro s a byte count hr ha hl
  have hsum := updrlCounts_sum count
  have h := execAll_updrs s a byte (updrlCounts count) hr ha (by rwa [hsum])
  rwa [hsum, ← expandUpdrl_eq_map] at h

/-! The statements about refusals and faults. -/

/-- Settles O21: the search finds no zero byte. -/
theorem updzWithoutTerminatorIsRefused : Obligations.UpdzWithoutTerminatorIsRefused := by
  intro s hr halg he hz
  obtain ⟨a, ha⟩ := Option.ne_none_iff_exists'.mp halg
  have hnone := (s.findZero_noZero s.src.toNat (s.params.iwinSize - s.src.toNat)).mpr
    fun k hk => hz _ (Nat.le_add_right _ k) (by omega)
  rw [exec_updz_of_noZero s a hr ha hnone, s.raise_of_err_false _ he]

/-- Settles O22: the span is not read, and the search stops. -/
theorem unwrittenBytesStopTheRun : Obligations.UnwrittenBytesStopTheRun := by
  refine ⟨fun s a length k hr ha hs hl hk hb => ?_, fun s k hr halg hs hj hb => ?_⟩
  · rw [exec_upds_in_range s a hr ha length hs, s.guardCount_of_le a _ _ hl, s.absorbSpan_of_unknown a _ k _ hk hb]
  · obtain ⟨a, ha⟩ := Option.ne_none_iff_exists'.mp halg
    exact exec_updz_of_unwritten s a hr ha ((s.findZero_unwritten _ _).mpr ⟨k, by omega, hb, hj⟩)

/-- Settles O23: the first check that fails records its code. -/
theorem stateChecksInPriorityOrder : Obligations.StateChecksInPriorityOrder := by
  refine ⟨fun s i hr he hi => ?_, fun s a length hr ha he hs => ?_, fun s a length hr ha he hs hl => ?_,
    fun s a byte count hr ha he hl => ?_, fun s a k hr ha he hs hj h0 hl => ?_⟩
  all_goals rw [← s.raise_of_err_false _ he]
  · exact exec_of_not_ready i s hi hr
  · exact exec_upds_of_range s a hr ha length hs
  · rw [exec_upds_in_range s a hr ha length hs, s.guardCount_of_lt a _ _ hl]
  · exact exec_updr_of_lt s a hr ha byte count hl
  · rw [exec_updz_of_found s a hr ha k (s.findZero_window_found k hs hj h0), s.guardCount_of_lt a _ _ hl]

/-! Where a command can stop (R606). -/

/-- A result is a next state, or the fault of reading a byte of the window, at or after `SRC`, that has no known value. -/
def State.StopsOnlyAtUnwritten (s : State) (r : Result) : Prop :=
  (∃ t, r = .next t) ∨
    (r = .fault .unwrittenByte ∧ ∃ off p, off < s.params.iwinSize ∧ s.src.toNat ≤ off ∧ s.memRead p off = none)

theorem State.stopsOnlyAtUnwritten_guardCount (s : State) (a : Alg) (k : Nat) (run : Result)
    (h : s.StopsOnlyAtUnwritten run) : s.StopsOnlyAtUnwritten (s.guardCount a k run) := by
  unfold State.guardCount
  split
  · exact .inl ⟨_, rfl⟩
  · exact h

theorem State.stopsOnlyAtUnwritten_absorbSpan (s : State) (a : Alg) (n next : Nat)
    (hn : s.src.toNat + n ≤ s.params.iwinSize) : s.StopsOnlyAtUnwritten (s.absorbSpan a n next) := by
  unfold State.absorbSpan
  split
  · next hb =>
    obtain ⟨k, hk, hk'⟩ := (s.spanBytes_none _ n).mp hb
    exact .inr ⟨rfl, _, .absorb, by omega, Nat.le_add_right _ k, hk'⟩
  · exact .inl ⟨_, rfl⟩

/-- In a run no stream is open, or one of an algorithm is (R31, R32). -/
theorem State.Inv.stream_cases {s : State} (h : s.Inv) :
    s.ready = false ∨ (s.ready = true ∧ ∃ a, s.alg = some a) := by
  cases hr : s.ready with
  | false => exact .inl rfl
  | true => exact .inr ⟨rfl, Option.isSome_iff_exists.mp (h.ready_iff ▸ hr)⟩

section
variable {s : State} (h : s.Inv)
include h

theorem State.Inv.updr_completes (byte : Byte) (count : BitVec 48) : ∃ t, exec (.updr byte count) s = .next t := by
  rcases h.stream_cases with hr | ⟨hr, a, ha⟩
  · exact ⟨_, exec_of_not_ready _ s (.inl rfl) hr⟩
  rcases Nat.lt_or_ge a.limit (s.count.toNat + count.toNat) with hl | hl
  · exact ⟨_, exec_updr_of_lt s a hr ha byte count hl⟩
  · exact ⟨_, exec_updr_of_le s a hr ha byte count hl⟩

theorem State.Inv.digest_completes : ∃ t, exec .digest s = .next t := by
  rcases h.stream_cases with hr | ⟨hr, a, ha⟩
  · exact ⟨_, exec_of_not_ready _ s (.inr rfl) hr⟩
  · exact ⟨_, exec_digest_of_ready s a hr ha⟩

theorem State.Inv.upds_stopsOnlyAtUnwritten (length : BitVec 48) : s.StopsOnlyAtUnwritten (exec (.upds length) s) := by
  rcases h.stream_cases with hr | ⟨hr, a, ha⟩
  · exact .inl ⟨_, exec_of_not_ready _ s (.inl rfl) hr⟩
  rcases Nat.lt_or_ge s.params.iwinSize (s.src.toNat + length.toNat) with hs | hs
  · exact .inl ⟨_, exec_upds_of_range s a hr ha length hs⟩
  · rw [exec_upds_in_range s a hr ha length hs]
    exact s.stopsOnlyAtUnwritten_guardCount a _ _ (s.stopsOnlyAtUnwritten_absorbSpan a _ _ hs)

theorem State.Inv.updz_stopsOnlyAtUnwritten : s.StopsOnlyAtUnwritten (exec .updz s) := by
  rcases h.stream_cases with hr | ⟨hr, a, ha⟩
  · exact .inl ⟨_, exec_of_not_ready _ s (.inl rfl) hr⟩
  cases hz : s.findZero s.src.toNat (s.params.iwinSize - s.src.toNat) with
  | noZero => exact .inl ⟨_, exec_updz_of_noZero s a hr ha hz⟩
  | unwritten =>
    obtain ⟨k, hk, hb, -⟩ := (s.findZero_unwritten _ _).mp hz
    exact .inr ⟨exec_updz_of_unwritten s a hr ha hz, _, .scan, by omega, Nat.le_add_right _ k, hb⟩
  | found z =>
    obtain ⟨k, hk, rfl, -⟩ := (s.findZero_found _ _ z).mp hz
    rw [exec_updz_of_found s a hr ha k hz]
    exact s.stopsOnlyAtUnwritten_guardCount a _ _ (s.stopsOnlyAtUnwritten_absorbSpan a _ _ (by omega))

end

/-- Settles O26, command by command: INIT and SETSRC complete in every state, and of the others only a read of the window
can stop. -/
theorem commandsNeverFailOnData : Obligations.CommandsNeverFailOnData := by
  intro i s h
  cases i with
  | updr byte count => exact .inl (h.updr_completes byte count)
  | upds length => exact (h.upds_stopsOnlyAtUnwritten length).imp_right fun ⟨hf, hoff⟩ => ⟨hf, .inr ⟨_, rfl⟩, hoff⟩
  | updz => exact h.updz_stopsOnlyAtUnwritten.imp_right fun ⟨hf, hoff⟩ => ⟨hf, .inl rfl, hoff⟩
  | digest => exact .inl h.digest_completes
  | _ => exact .inl ⟨_, rfl⟩

end Sys2Proof.Machine
end

section
/-! PROOFS. The statements about single steps (10_state.md R52, R53; 20_memory.md R82 to R100; 60_exceptions.md R602, R604;
70_reset_and_hazards.md R700, R701). -/

namespace Sys2Proof.Machine

/-! A command word arriving at CMD (R52, R126). -/

/-- A command that completes is followed by the landing of the overlapping writes (R97). -/
theorem runCommand_of_next (w : Word64) (s t : State) (h : issue w s = .next t) : runCommand w s = .next t.land := by
  simp only [runCommand, h]

/-- A word that decodes and is not discarded executes. -/
theorem issue_of_accepted (w : Word64) (i : Instr) (s : State) (ha : s.err = false ∨ validInit w = true)
    (hd : decode w = .ok i) : issue w s = exec i s := by
  rcases ha with he | hv
  · exact issue_of_decode_ok w i s he hd
  · simp [issue, hv, hd]

/-- Settles O6: the word is issued, and it executes. -/
theorem stepRunsTheDecodedCommand : Obligations.StepRunsTheDecodedCommand := by
  intro s w rest i hh hd ha
  rw [step_cmdWrite s w rest hh, runCommand, issue_of_accepted w i (s.taking rest) ha hd]
  rfl

/-- Settles O7: the word is issued, and its code is recorded. -/
theorem stepRefusesAnUndecodableWord : Obligations.StepRefusesAnUndecodableWord := by
  intro s w rest code hh he hd
  rw [step_cmdWrite s w rest hh]
  exact runCommand_of_next w _ _ (issue_of_decode_error w code (s.taking rest) he hd)

/-! Valid INITs (R604). -/

theorem validInit_encode_init (a : Alg) : validInit (encode (Instr.init a)) = true := by
  simp [validInit, encode_init]

/-- The valid INITs are the words that decode to an INIT. -/
theorem validInit_iff (w : Word64) : validInit w = true ↔ ∃ a, decode w = .ok (Instr.init a) := by
  refine ⟨decode_of_validInit w, fun ⟨a, hd⟩ => ?_⟩
  rw [← encode_of_decode w _ hd]
  exact validInit_encode_init a

theorem validInit_encode_setsrc (off : BitVec 48) : validInit (encode (.setsrc off)) = false := by
  simp [validInit, encode]

/-- The step that takes a valid INIT starts a new stream in any state, with `ERR = 1` too. -/
theorem step_init (s : State) (a : Alg) (rest : List HostEvent)
    (hh : s.host = cmdWrite s.params (encode (Instr.init a)) :: rest) :
    step s = .next ((s.taking rest).initStream a).land := by
  rw [step_cmdWrite s _ rest hh]
  refine runCommand_of_next _ _ _ ?_
  rw [issue_of_accepted _ _ _ (.inr (validInit_encode_init a)) (decode_encode _), exec_init]

/-! Loads and ignored stores of registers (R52, R53, R87). -/

theorem registerAccessOk_of_aligned (off : Nat) (h : off % 8 = 0) : registerAccessOk off 8 = true := by
  simp [registerAccessOk, h]

/-- An aligned load of a register answers with it. -/
theorem hostRead_register (s : State) (off : Nat) (hoff : off < 256) (halign : off % 8 = 0) :
    hostRead (s.params.regBase + off) 8 s = .next { s.land with reply := some (s.readReg off) } := by
  simp [hostRead, addrTarget_register s.params off hoff, registerAccessOk_of_aligned off halign]

/-- An aligned store to a register other than CMD is ignored. -/
theorem hostWrite_register (s : State) (off : Nat) (v : Word64) (hpos : 0 < off) (hoff : off < 256)
    (halign : off % 8 = 0) : hostWrite (s.params.regBase + off) 8 v s = .next s.land := by
  simp [hostWrite, addrTarget_register s.params off hoff, registerAccessOk_of_aligned off halign, Nat.ne_of_gt hpos]

/-- The step that takes a load of a register. -/
theorem step_read_register (s : State) (off : Nat) (rest : List HostEvent)
    (hh : s.host = .read (s.params.regBase + off) 8 :: rest) (hoff : off < 256) (halign : off % 8 = 0) :
    step s = .next { s.land with host := rest, reply := some (s.readReg off) } := by
  have h := hostRead_register (s.taking rest) off hoff halign
  simp only [step, hh, hostEvent]
  exact h

/-- Settles O45: the load answers with the register, and CMD reads 0. -/
theorem registerLoadsHaveNoSideEffect : Obligations.RegisterLoadsHaveNoSideEffect :=
  fun s off rest hh hoff halign => ⟨step_read_register s off rest hh hoff halign, fun h => by rw [h]; rfl⟩

/-- Settles O8, from the discard of `issue`, the step of a valid INIT, and what clears `ERR` (`step_clears_err`). -/
theorem stickyErrorDiscardsAllButInit : Obligations.StickyErrorDiscardsAllButInit := by
  refine ⟨fun s w rest hh he hv => ?_, validInit_encode_setsrc, validInit_iff, fun s a rest hh _ => ?_,
    fun s t he hx ht => ?_, fun s off rest hh hoff halign _ => step_read_register s off rest hh hoff halign⟩
  · rw [step_cmdWrite s w rest hh]
    exact runCommand_of_next w _ _ (issue_of_discarded w (s.taking rest) he hv)
  · exact ⟨_, step_init s a rest hh, rfl, rfl, rfl, rfl, rfl⟩
  · rcases step_clears_err s t he hx ht with ⟨w, rest, hh, hv, -⟩ | ⟨rest, hh, -⟩
    · exact .inl ⟨w, rest, hh, hv⟩
    · exact .inr ⟨rest, hh⟩

/-! Reset and power-on (R700, R701, R82). -/

/-- The step that takes a reset, between commands or during one. -/
theorem step_reset (s : State) (e : HostEvent) (rest : List HostEvent) (hh : s.host = e :: rest)
    (he : e = .reset ∨ ∃ cmd, e = .resetDuring cmd) : step s = .next (s.taking rest).land.resetRegs := by
  rcases he with rfl | ⟨cmd, rfl⟩ <;> simp only [step, hh, hostEvent]

/-- The step that takes a power-on. -/
theorem step_powerOn (s : State) (rest : List HostEvent) (hh : s.host = .powerOn :: rest) :
    step s = .next (s.taking rest).powerOn := by
  simp only [step, hh, hostEvent]

/-- Settles O10: both leave the reset registers, reset with the window as the overlapping writes leave it. -/
theorem resetEventLeavesUnconfigured : Obligations.ResetEventLeavesUnconfigured := by
  refine ⟨fun s e rest hh he => ?_, fun s rest hh => ?_⟩
  · exact ⟨_, step_reset s e rest hh he, by simp [State.mode_eq_unconfigured], rfl,
      fun hrace => by rw [s.land_of_racing_nil hrace]⟩
  · exact ⟨_, step_powerOn s rest hh, by simp [State.mode_eq_unconfigured], rfl, fun _ => rfl⟩

/-! What changes a byte of the window (R82, R86, R100). -/

/-- Where the window is that of before with the overlapping writes landed, a byte that changed is one of theirs. -/
theorem exists_race_of_landed (s t : State) (off : Nat) (ht : t.iwin = s.land.iwin)
    (h : t.iwin.read off ≠ s.iwin.read off) : ∃ w ∈ s.racing, w.offset = off := by
  by_contra hnone
  push Not at hnone
  rw [ht] at h
  exact h (Memory.read_foldl_write s.racing s.iwin off hnone)

/-- After a host store, a byte that changed is one of its own or of the overlapping writes that landed before it. -/
theorem exists_race_or_stored (s t : State) (start width off : Nat) (bytes : List Byte) (hlen : bytes.length ≤ width)
    (ht : t.iwin = s.land.iwin.writeBytes start bytes) (h : t.iwin.read off ≠ s.iwin.read off) :
    (∃ w ∈ s.racing, w.offset = off) ∨ (start ≤ off ∧ off < start + width) := by
  by_cases hin : start ≤ off ∧ off < start + bytes.length
  · exact .inr ⟨hin.1, by omega⟩
  · rw [ht, Memory.read_writeBytes_of_outside _ _ _ _ (by omega)] at h
    exact .inl (exists_race_of_landed s s.land off rfl h)

/-- Settles O11: in every case of a step the window is that of before with the overlapping writes landed, except for a host
store, a power-on, and the start of an overlapping write, which leaves it. -/
theorem onlyHostWritesChangeTheWindow : Obligations.OnlyHostWritesChangeTheWindow := by
  intro s t off hx h
  have landed (ht : t.iwin = s.land.iwin) := exists_race_of_landed s t off ht h
  cases step_cases s t hx with
  | idle _ ht => exact .inl (landed (by rw [ht]))
  | discarded w rest _ _ _ ht => exact .inl (landed (by rw [ht]; rfl))
  | illegal w rest code _ _ ht => exact .inl (landed (by simp [ht]))
  | command w rest i u _ _ _ hu ht =>
    obtain ⟨hiwin, -, hracing, -⟩ := exec_frame i _ u hu
    exact .inl (landed (by simp [ht, hiwin, hracing]))
  | registerStore addr width v rest _ ht => exact .inl (landed (by rw [ht]; rfl))
  | windowStore start width v rest hh _ ht =>
    have hiwin : t.iwin = s.land.iwin.writeBytes start ((storeLE v).take width) := by rw [ht]
    rcases exists_race_or_stored s t start width off _ (List.length_take_le _ _) hiwin h with hrace | hstored
    · exact .inl hrace
    · exact .inr (.inr ⟨width, v, start, rest, hh, hstored⟩)
  | load addr width v rest _ ht => exact .inl (landed (by rw [ht]; rfl))
  | overlap w rest _ _ ht => exact absurd (by rw [ht]) h
  | reset rest _ ht => exact .inl (landed (by rw [ht]; rfl))
  | powerOn rest hh _ => exact .inr (.inl ⟨rest, hh⟩)

end Sys2Proof.Machine
end

section
/-! PROOFS. The statements about the register block and the window (10_state.md R45 to R49, R53; 20_memory.md R85, R97). -/

namespace Sys2Proof.Machine

/-! Which register stands at an offset below 0x40 (R45 to R49). -/

theorem State.readReg_status (s : State) : s.readReg 0x08 = s.status := rfl
theorem State.readReg_algReg (s : State) : s.readReg 0x10 = s.algReg := rfl
theorem State.readReg_srcReg (s : State) : s.readReg 0x18 = s.srcReg := rfl
theorem State.readReg_countLo (s : State) : s.readReg 0x20 = s.countLo := rfl
theorem State.readReg_countHi (s : State) : s.readReg 0x28 = s.countHi := rfl
theorem State.readReg_dlenReg (s : State) : s.readReg 0x30 = s.dlenReg := rfl

/-! STATUS (R45). -/

/-- The word that STATUS makes of its three fields. -/
def statusWord (code : BitVec 4) (err ready : Bool) : Word64 :=
  (0 : BitVec 56) ++ code ++ (0 : BitVec 2) ++ BitVec.ofBool err ++ BitVec.ofBool ready

theorem State.status_eq_statusWord (s : State) : s.status = statusWord (ecodeBits s.ecode) s.err s.ready := rfl

/-- Each field at its place, and 0 in the reserved bits: two bits and a code, so there are 64 words to look at. -/
theorem statusWord_fields (code : BitVec 4) (err ready : Bool) :
    (statusWord code err ready).getLsbD 0 = ready ∧ (statusWord code err ready).getLsbD 1 = err ∧
    (statusWord code err ready).extractLsb' 2 2 = 0 ∧ (statusWord code err ready).extractLsb' 4 4 = code ∧
    (statusWord code err ready).extractLsb' 8 56 = 0 := by
  cases err <;> cases ready <;> decide +revert

/-- ECODE reads 0 while `ERR = 0` in a run. -/
theorem State.Inv.status_ecode {s : State} (h : s.Inv) (he : s.err = false) : s.status.extractLsb' 4 4 = 0 := by
  have hcode : s.ecode = .none := by
    by_contra hne
    rw [h.err_iff.mpr hne] at he
    cases he
  obtain ⟨-, -, -, hfield, -⟩ := statusWord_fields (ecodeBits s.ecode) s.err s.ready
  rw [s.status_eq_statusWord, hfield, hcode]
  rfl

/-- Settles O40: the fields of the word STATUS is, and the accesses to any register. -/
theorem statusRegisterShowsTheFlags : Obligations.StatusRegisterShowsTheFlags :=
  ⟨fun s => statusWord_fields (ecodeBits s.ecode) s.err s.ready,
    fun s => hostRead_register s 0x08 (by decide) (by decide),
    fun s v => hostWrite_register s 0x08 v (by decide) (by decide) (by decide),
    fun _ h he => h.status_ecode he, rfl, rfl, rfl, rfl, rfl, rfl, rfl, rfl⟩

/-! ALGREG, SRCREG, COUNT_LO, COUNT_HI and DLENREG (R46 to R49). -/

/-- A field alone, under zero bits, reads as its number. -/
theorem zero_append_toNat (k : Nat) {n : Nat} (x : BitVec n) : ((0 : BitVec k) ++ x).toNat = x.toNat := by simp

theorem State.algReg_of_none (s : State) (ha : s.alg = none) : s.algReg = 0 := by
  rw [State.algReg, State.algCode, ha]
  rfl

theorem State.algReg_of_some (s : State) (a : Alg) (ha : s.alg = some a) : s.algReg = a.code.setWidth 64 := by
  rw [State.algReg, State.algCode, ha]
  cases a <;> rfl

theorem mem_allAlgs (a : Alg) : a ∈ allAlgs := by cases a <;> decide

theorem State.srcReg_toNat (s : State) : s.srcReg.toNat = s.src.toNat := zero_append_toNat 16 s.src

theorem State.dlenReg_toNat (s : State) : s.dlenReg.toNat = s.dlen.toNat := zero_append_toNat 57 s.dlen

/-- The two halves of COUNT. -/
theorem State.countLo_add_countHi (s : State) : s.countLo.toNat + 2 ^ 64 * s.countHi.toNat = s.count.toNat := by
  have hlt := s.count.isLt
  simp only [State.countLo, State.countHi, BitVec.extractLsb'_toNat, Nat.shiftRight_eq_div_pow]
  omega

/-- With a length field of 8 bytes the limit leaves nothing for the upper half. -/
theorem State.Inv.countHi_eq_zero {s : State} (h : s.Inv) (a : Alg) (ha : s.alg = some a) (hl : a.lengthBytes = 8) :
    s.countHi = 0 := by
  have hle := h.count_le a ha
  have hsum := s.countLo_add_countHi
  rw [Alg.limit, hl] at hle
  have hzero : s.countHi.toNat = 0 := by omega
  exact BitVec.eq_of_toNat_eq hzero

/-- `DLEN` is 0 or one of the digest lengths of R8. -/
theorem State.Inv.dlen_values {s : State} (h : s.Inv) : s.dlen.toNat ∈ [0, 16, 20, 28, 32, 40, 48, 64] := by
  cases ha : s.alg with
  | none =>
    obtain ⟨-, -, hd⟩ := h.fresh ha
    rw [hd]
    decide
  | some a =>
    rcases h.dlen_legal a ha with hd | hd
    · rw [hd]
      decide
    · rw [hd]
      cases a <;> decide

/-- Settles O41, register by register. -/
theorem scalarRegistersShowTheState : Obligations.ScalarRegistersShowTheState :=
  ⟨State.algReg_of_none, State.algReg_of_some, rfl, fun a => ⟨mem_allAlgs a, a.ofCode_code⟩, State.srcReg_toNat,
    State.countLo_add_countHi, fun _ a h ha hl => h.countHi_eq_zero a ha hl, State.dlenReg_toNat,
    fun _ h => h.dlen_values⟩

/-! Registers that a store does not write, window accesses that are misaligned (R53, R85). -/

/-- Settles O44: no register but CMD takes a store, and the reserved offsets lie between and after the others. -/
theorem storesToOtherRegistersAreIgnored : Obligations.StoresToOtherRegistersAreIgnored := by
  refine ⟨fun s off v => hostWrite_register s off v, fun s off hoff => ?_⟩
  rcases hoff with rfl | hoff
  · rfl
  · rw [s.readReg_of_le off (by omega), if_neg (by omega), if_neg (by omega)]

theorem windowFault_of_misaligned (p : Params) (off width : Nat) (hwidth : width = 2 ∨ width = 4 ∨ width = 8)
    (halign : off % width ≠ 0) : windowFault p off width = some .windowBusError := by
  rw [windowFault, if_neg (not_not_intro (.inr hwidth)), if_pos halign]

/-- Settles O47: the address is one of the window, and the access is faulty there. -/
theorem misalignedWindowAccessIsABusError : Obligations.MisalignedWindowAccessIsABusError := by
  intro s off width hp hoff hwidth halign
  have ht := addrTarget_window s.params off hp hoff
  have hf := windowFault_of_misaligned s.params off width hwidth halign
  exact ⟨fun v => by simp [hostWrite, ht, hf], by simp [hostRead, ht, hf]⟩

/-! One overlapping write in flight (R97). -/

theorem State.memRead_of_race (s : State) (w : RaceWrite) (p : ReadPhase) (off : Nat) (hrace : s.racing = [w]) :
    s.memRead p off = if w.offset = off ∧ raceSeen p w = true then some w.value else s.iwin.read off := by
  rw [State.memRead, hrace]
  rfl

theorem State.land_iwin_of_race (s : State) (w : RaceWrite) (hrace : s.racing = [w]) :
    s.land.iwin = s.iwin.write w.offset w.value := by
  rw [s.land_iwin, hrace]
  rfl

/-- No command word, executed, refused or discarded, writes the window or lands a write (R86). -/
theorem issue_frame (w : Word64) (s t : State) (h : issue w s = .next t) : t.iwin = s.iwin ∧ t.racing = s.racing := by
  unfold issue at h
  split at h
  · cases h
    exact ⟨rfl, rfl⟩
  split at h
  · cases h
    exact ⟨s.raise_iwin _, s.raise_racing _⟩
  · obtain ⟨hiwin, -, hracing, -⟩ := exec_frame _ s t h
    exact ⟨hiwin, hracing⟩

/-- A command completes when its issue does, and the overlapping writes have then landed. -/
theorem runCommand_eq_next (w : Word64) (s t : State) (h : runCommand w s = .next t) :
    ∃ u, issue w s = .next u ∧ t = u.land := by
  rw [runCommand] at h
  cases hu : issue w s with
  | next u =>
    rw [hu] at h
    cases h
    exact ⟨u, rfl, rfl⟩
  | fault f => rw [hu] at h; cases h
  | refused r => rw [hu] at h; cases h

/-- Settles O49: the one write is what a read may see and what lands. -/
theorem overlappedByteReadsOldOrNew : Obligations.OverlappedByteReadsOldOrNew := by
  intro s w hrace
  refine ⟨fun p => ?_, fun p x hx => ?_, fun cmd t h => ?_⟩
  · simp only [s.memRead_of_race w p _ hrace, true_and]
  · rw [s.memRead_of_race w p x hrace, if_neg fun hseen => hx hseen.1.symm]
  · obtain ⟨u, hu, rfl⟩ := runCommand_eq_next cmd s t h
    obtain ⟨hiwin, hracing⟩ := issue_frame cmd s u hu
    rw [u.land_iwin_of_race w (hracing.trans hrace), hiwin]
    exact ⟨u.land_racing, s.iwin.read_write_self _ _, fun x hx => s.iwin.read_write_of_ne _ x _ hx⟩

end Sys2Proof.Machine
end

section
/-! PROOFS. The statements about the tables, the worked examples and the byte-count limit (00_scope.md R9, 43_md5.md R332,
46_ripemd.md R460 to R463, 42_finalizer.md R297). -/

namespace Sys2Proof.Machine

/-! The tables of MD5 and RIPEMD (R332, R460 to R463). -/

/-- The 64 rows, one by one. -/
theorem md5Table_closedForms : ∀ t : Fin md5Table.length,
    (md5Table[t].word.val =
      if t.val < 16 then t.val else if t.val < 32 then (5 * t + 1) % 16 else if t.val < 48 then (3 * t + 5) % 16
        else 7 * t % 16) ∧
    some md5Table[t].rot =
      (if t.val < 16 then [7, 12, 17, 22] else if t.val < 32 then [5, 9, 14, 20] else if t.val < 48 then [4, 11, 16, 23]
        else [6, 10, 15, 21])[t.val % 4]? := by
  decide

/-- Settles O53: the rows there are, are those of the table. -/
theorem md5TableFollowsItsClosedForms : Obligations.Md5TableFollowsItsClosedForms := by
  refine ⟨rfl, fun t row h => ?_⟩
  obtain ⟨ht, rfl⟩ := List.getElem?_eq_some_iff.mp h
  exact md5Table_closedForms ⟨t, ht⟩

/-- `f1` is Parity (R463). -/
theorem rmdFn_f1 (x y z : Word32) : rmdFn .f1 x y z = parity x y z := rfl

/-- `f2` is Ch: in each bit at most one of the two sides is 1, so OR and XOR agree (R463). -/
theorem rmdFn_f2 (x y z : Word32) : rmdFn .f2 x y z = ch x y z := by
  ext i hi
  cases hx : x[i] <;> simp [rmdFn, ch, hx]

theorem rmdRounds_right_eq_reverse_left (rs : List RmdRound) (h : rs = rmdRounds5 ∨ rs = rmdRounds4) :
    rs.map (·.fnRight) = (rs.map (·.fnLeft)).reverse := by
  rcases h with rfl | rfl <;> rfl

/-- Each of the nine rounds has sixteen steps, and on both lines every word occurs among them. -/
theorem rmdRounds_use_every_word : ∀ q ∈ rmdRounds5 ++ rmdRounds4, q.rows.length = 16 ∧
    ∀ i : Fin 16, (∃ row ∈ q.rows, row.wordLeft = i) ∧ ∃ row ∈ q.rows, row.wordRight = i := by
  decide

/-- Settles O56: the functions for all words; the tables by evaluation. -/
theorem ripemdLinesUseTheirFunctionsInOrder : Obligations.RipemdLinesUseTheirFunctionsInOrder :=
  ⟨fun x y z => ⟨rmdFn_f1 x y z, rmdFn_f2 x y z⟩, rfl, rfl, rmdRounds_right_eq_reverse_left, rmdRounds_use_every_word⟩

/-! Worked examples (R297, R345 to R476). -/

/-- INIT and then DIGEST, in any state, give the digest of the empty message. -/
theorem execAll_init_digest (a : Alg) (s : State) :
    execAll [Instr.init a, .digest] s = .next ((s.initStream a).setDigest a (finalize a (accInit a))) := by
  refine (execAll_cons_eq_next _ _ s _).mpr ⟨_, exec_init a s, ?_⟩
  exact (execAll_cons_eq_next _ _ _ _).mpr ⟨_, exec_digest_of_ready (s.initStream a) a rfl rfl, rfl⟩

/-- Settles O35: both digests are computed. -/
theorem emptyMessageDigests : Obligations.EmptyMessageDigests := by
  refine ⟨⟨_, execAll_init_digest .md5 State.reset, ?_⟩, ⟨_, execAll_init_digest .sha1 State.reset, ?_⟩⟩
  all_goals
    rw [State.setDigest_dout]
    decide +kernel

/-- Settles O57: the ten compressions are computed. -/
theorem compressionExamples : Obligations.CompressionExamples := by
  refine ⟨?_, ?_, ?_, ?_, ?_, ?_, ?_, ?_, ?_, ?_⟩ <;> decide +kernel

/-! The limit (R9). -/

/-- Settles O58: eight times `2 ^ (8L - 3)` is `2 ^ (8L)`, for the two lengths `L` there are. -/
theorem limitIsTheLargestCount : Obligations.LimitIsTheLargestCount := by
  intro a
  rcases a.block_layout with ⟨-, hL⟩ | ⟨-, hL⟩ <;> rw [Alg.limit, hL] <;> decide

end Sys2Proof.Machine
end

section
/-! PROOFS. The statement about a platform (20_memory.md R102, 60_exceptions.md R632). -/

namespace Sys2Proof.Machine

/-- A step of a platform is one of its engines, whose state it replaces. -/
theorem Platform.step_eq_next (p q : Platform) (k : Nat) :
    Platform.step p k = .next q ↔
      ∃ s t, p.engines[k]? = some s ∧ Machine.step s = .next t ∧ q = ⟨p.engines.set k t⟩ := by
  unfold Platform.step
  cases hs : p.engines[k]? with
  | none => simp
  | some s => cases ht : Machine.step s <;> simp [ht, eq_comm]

theorem Platform.getElem?_set_engine (p : Platform) (k : Nat) (s t : State) (h : p.engines[k]? = some s) :
    (p.engines.set k t)[k]? = some t := by
  obtain ⟨hk, -⟩ := List.getElem?_eq_some_iff.mp h
  exact List.getElem?_set_self hk

/-- Settles O60: only engine `k` is replaced, and by its own step. -/
theorem instancesShareNothing : Obligations.InstancesShareNothing := by
  refine ⟨fun p q k j h hj => ?_, fun p k s t hs ht => ?_, fun p p' k q hp h => ?_⟩
  · obtain ⟨s, t, -, -, rfl⟩ := (Platform.step_eq_next p q k).mp h
    exact List.getElem?_set_ne hj.symm
  · exact ⟨_, (Platform.step_eq_next p _ k).mpr ⟨s, t, hs, ht, rfl⟩, p.getElem?_set_engine k s t hs⟩
  · obtain ⟨s, t, hs, ht, rfl⟩ := (Platform.step_eq_next p q k).mp h
    have hs' := hp ▸ hs
    refine ⟨_, (Platform.step_eq_next p' _ k).mpr ⟨s, t, hs', ht, rfl⟩, ?_⟩
    rw [p.getElem?_set_engine k s t hs, p'.getElem?_set_engine k s t hs']

end Sys2Proof.Machine
end
